-- ==== Sys2Proof/Word.lean ====
section
/-! DEFINITION. The widths of the machine: bytes of memory and 16-bit registers (00_scope.md R7, XLEN = 16). -/

namespace Sys2Proof

/-- A byte of memory or of the instruction stream (10_state.md R45). -/
abbrev Byte := BitVec 8

/-- A register-wide value: XLEN = 16 bits (00_scope.md R7). -/
abbrev Word := BitVec 16

end Sys2Proof
end

