-- ==== Sys2Proof/Syntax.lean ====
section
/-! DEFINITION. The instructions: one constructor per row of spec/opcode_table.json (30_encoding.md R101), with the
operands its format carries (R91). -/

namespace Sys2Proof

/-- The eight general registers, in the order of their numbers 0 to 7 (10_state.md R21). -/
inductive Reg
  | ax | bx | cx | dx | si | di | bp | sp
deriving DecidableEq, Repr

/-- The four segment registers, in the order of their numbers 0 to 3 (10_state.md R30). -/
inductive SReg
  | cs | ds | ss | es
deriving DecidableEq, Repr

/-- The instruction set, in the order of the opcode bytes of 30_encoding.md R101. The letters after a name give the form:
R a register, I an immediate, A a direct address, X a base register with displacement, S a segment register. -/
inductive Instr
  -- system and flag control (46_system.md)
  | hlt
  | wait
  | int (vector : Byte)
  | iret
  | clc
  | stc
  | cli
  | sti
  | cld
  | std
  -- data transfer (42_data_transfer.md)
  | movRR (a b : Reg)
  | movRI (a : Reg) (imm : Word)
  | movRA (a : Reg) (addr : Word)
  | movAR (a : Reg) (addr : Word)
  | movRX (a b : Reg) (disp : Word)
  | movXR (a b : Reg) (disp : Word)
  | movSR (a : SReg) (b : Reg)
  | movRS (a : Reg) (b : SReg)
  | lea (a b : Reg) (disp : Word)
  | ldsA (a : Reg) (addr : Word)
  | ldsX (a b : Reg) (disp : Word)
  | lesA (a : Reg) (addr : Word)
  | lesX (a b : Reg) (disp : Word)
  -- arithmetic (41_arithmetic_logic.md)
  | addRR (a b : Reg)
  | addRI (a : Reg) (imm : Word)
  | adcRR (a b : Reg)
  | adcRI (a : Reg) (imm : Word)
  | subRR (a b : Reg)
  | subRI (a : Reg) (imm : Word)
  | sbcRR (a b : Reg)
  | sbcRI (a : Reg) (imm : Word)
  | cmpRR (a b : Reg)
  | cmpRI (a : Reg) (imm : Word)
  | incR (a : Reg)
  | decR (a : Reg)
  | negR (a : Reg)
  | divR (a : Reg)
  -- logic (41_arithmetic_logic.md)
  | andRR (a b : Reg)
  | andRI (a : Reg) (imm : Word)
  | orRR (a b : Reg)
  | orRI (a : Reg) (imm : Word)
  | xorRR (a b : Reg)
  | xorRI (a : Reg) (imm : Word)
  | testRR (a b : Reg)
  | testRI (a : Reg) (imm : Word)
  | notR (a : Reg)
  -- control flow (43_control_flow.md)
  | jmpA (addr : Word)
  | jmpR (a : Reg)
  | jmpS (rel : Byte)
  | callA (addr : Word)
  | callR (a : Reg)
  | callF (off seg : Word)
  | ret
  | retI (n : Word)
  | retF
  | loop (rel : Byte)
  | loopz (rel : Byte)
  | loopnz (rel : Byte)
  | jo (rel : Byte)
  | jno (rel : Byte)
  | jc (rel : Byte)
  | jnc (rel : Byte)
  | jz (rel : Byte)
  | jnz (rel : Byte)
  | jbe (rel : Byte)
  | ja (rel : Byte)
  | js (rel : Byte)
  | jns (rel : Byte)
  | jp (rel : Byte)
  | jnp (rel : Byte)
  | jl (rel : Byte)
  | jge (rel : Byte)
  | jle (rel : Byte)
  | jg (rel : Byte)
  -- stack and frame (44_stack_frame.md)
  | push (a : Reg)
  | pop (a : Reg)
  | pusha
  | popa
  | enter (size : Word) (level : Byte)
  | leave
  -- string and repeat (45_string_repeat.md); a repeat carries the byte that follows it (R310, log 8)
  | movsb
  | movsw
  | stosb
  | stosw
  | lodsb
  | lodsw
  | cmpsb
  | cmpsw
  | rep (next : Byte)
  | repz (next : Byte)
  | repnz (next : Byte)
deriving DecidableEq, Repr

end Sys2Proof
end

