-- ==== Sys2Proof/Decode.lean ====
section
/-! DEFINITION. The decoder and, after it, the encoder, both written from 30_encoding.md: formats (R91), selector byte (R92),
operand assembly (R93 to R96) and opcode map (R101). The decoder is total on any bytes and rejects by name. -/

namespace Sys2Proof

/-! ## Bytes and words -/

/-- Bits 7:0 of a word, the byte at the lower address (20_memory.md R65, R66). -/
def lowByte (w : Word) : Byte := w.extractLsb' 0 8

/-- Bits 15:8 of a word, the byte at the higher address (20_memory.md R65, R66). -/
def highByte (w : Word) : Byte := w.extractLsb' 8 8

/-- `(hi << 8) | lo`, a word assembled from its bytes, low byte first (20_memory.md R64, 30_encoding.md R93). -/
def wordOfBytes (lo hi : Byte) : Word := hi ++ lo

/-- A signed 8-bit displacement extended to 16 bits (30_encoding.md R95). -/
def signExtendByte (d : Byte) : Word := d.signExtend 16

/-! ## Register numbers and the selector byte -/

/-- The register a 3-bit field selects (10_state.md R21). -/
def Reg.ofBits (v : BitVec 3) : Reg :=
  match v.toNat with
  | 0 => .ax
  | 1 => .bx
  | 2 => .cx
  | 3 => .dx
  | 4 => .si
  | 5 => .di
  | 6 => .bp
  | _ => .sp

/-- The number of a general register (10_state.md R21). -/
def Reg.toBits : Reg → BitVec 3
  | .ax => 0
  | .bx => 1
  | .cx => 2
  | .dx => 3
  | .si => 4
  | .di => 5
  | .bp => 6
  | .sp => 7

/-- The segment register the low two bits of a field select (10_state.md R30, 30_encoding.md R92). -/
def SReg.ofBits (v : BitVec 2) : SReg :=
  match v.toNat with
  | 0 => .cs
  | 1 => .ds
  | 2 => .ss
  | _ => .es

/-- The number of a segment register (10_state.md R30). -/
def SReg.toBits : SReg → BitVec 2
  | .cs => 0
  | .ds => 1
  | .ss => 2
  | .es => 3

/-- Field `a = sel[6:4]` of a selector byte (30_encoding.md R92). -/
def selA (sel : Byte) : BitVec 3 := sel.extractLsb' 4 3

/-- Field `b = sel[2:0]` of a selector byte (30_encoding.md R92). -/
def selB (sel : Byte) : BitVec 3 := sel.extractLsb' 0 3

/-- The selector byte with fields `a` and `b` and the undecoded bits 7 and 3 zero, as an assembler writes it (30_encoding.md R92). -/
def selByte (a b : BitVec 3) : Byte := 0#1 ++ a ++ 0#1 ++ b

/-! ## The opcode map -/

/-- A row of the opcode map: the format of the instruction (30_encoding.md R91) with the instruction its operands make.
Segment fields have formats of their own, since format SR holds the segment register in `a` or in `b`. -/
inductive Row
  | n (i : Instr)                        -- opcode alone
  | p (mk : Byte → Instr)                -- the byte after a repeat byte
  | r (mk : Reg → Instr)                 -- sel: a
  | rr (mk : Reg → Reg → Instr)          -- sel: a, b
  | sr (mk : SReg → Reg → Instr)         -- sel: a a segment register, b
  | rs (mk : Reg → SReg → Instr)         -- sel: a, b a segment register
  | ri (mk : Reg → Word → Instr)         -- sel: a; imm16
  | ra (mk : Reg → Word → Instr)         -- sel: a; addr16
  | rx (mk : Reg → Reg → Word → Instr)   -- sel: a, b; disp16
  | j8 (mk : Byte → Instr)               -- rel8
  | a16 (mk : Word → Instr)              -- addr16
  | far (mk : Word → Word → Instr)       -- off16; seg16
  | i8 (mk : Byte → Instr)               -- imm8
  | i16 (mk : Word → Instr)              -- imm16
  | en (mk : Word → Byte → Instr)        -- size16; level8

/-- How many bytes follow the opcode byte in a format (30_encoding.md R91). -/
def Row.operandBytes : Row → Nat
  | .n _ => 0
  | .p _ | .r _ | .rr _ | .sr _ | .rs _ | .j8 _ | .i8 _ => 1
  | .a16 _ | .i16 _ => 2
  | .ri _ | .ra _ | .rx _ | .en _ => 3
  | .far _ => 4

/-- Operand byte `k` (0 is the byte after the opcode). -/
def operandByte (bytes : List Byte) (k : Nat) : Byte := bytes.getD k 0

/-- The 16-bit operand whose low byte is operand byte `k` (30_encoding.md R93). -/
def operandWord (bytes : List Byte) (k : Nat) : Word := wordOfBytes (operandByte bytes k) (operandByte bytes (k + 1))

/-- The instruction a row makes of its operand bytes (30_encoding.md R91 to R96). In a one-register format field `b` is not
decoded, and in a segment field only the low two bits are (R92). -/
def Row.build (row : Row) (bytes : List Byte) : Instr :=
  let sel := operandByte bytes 0
  let a := Reg.ofBits (selA sel)
  let b := Reg.ofBits (selB sel)
  match row with
  | .n i => i
  | .p mk => mk (operandByte bytes 0)
  | .r mk => mk a
  | .rr mk => mk a b
  | .sr mk => mk (SReg.ofBits ((selA sel).extractLsb' 0 2)) b
  | .rs mk => mk a (SReg.ofBits ((selB sel).extractLsb' 0 2))
  | .ri mk => mk a (operandWord bytes 1)
  | .ra mk => mk a (operandWord bytes 1)
  | .rx mk => mk a b (operandWord bytes 1)
  | .j8 mk => mk (operandByte bytes 0)
  | .a16 mk => mk (operandWord bytes 0)
  | .far mk => mk (operandWord bytes 0) (operandWord bytes 2)
  | .i8 mk => mk (operandByte bytes 0)
  | .i16 mk => mk (operandWord bytes 0)
  | .en mk => mk (operandWord bytes 0) (operandByte bytes 2)

/-- OPMAP: the opcode map of 30_encoding.md R101, a partial function from the opcode byte (log 2). -/
def opmap (op : Byte) : Option Row :=
  match op.toNat with
  | 0x01 => some (.n .hlt)
  | 0x02 => some (.n .wait)
  | 0x03 => some (.i8 .int)
  | 0x04 => some (.n .iret)
  | 0x05 => some (.n .clc)
  | 0x06 => some (.n .stc)
  | 0x07 => some (.n .cli)
  | 0x08 => some (.n .sti)
  | 0x09 => some (.n .cld)
  | 0x0A => some (.n .std)
  | 0x10 => some (.rr .movRR)
  | 0x11 => some (.ri .movRI)
  | 0x12 => some (.ra .movRA)
  | 0x13 => some (.ra .movAR)
  | 0x14 => some (.rx .movRX)
  | 0x15 => some (.rx .movXR)
  | 0x16 => some (.sr .movSR)
  | 0x17 => some (.rs .movRS)
  | 0x18 => some (.rx .lea)
  | 0x19 => some (.ra .ldsA)
  | 0x1A => some (.rx .ldsX)
  | 0x1B => some (.ra .lesA)
  | 0x1C => some (.rx .lesX)
  | 0x20 => some (.rr .addRR)
  | 0x21 => some (.ri .addRI)
  | 0x22 => some (.rr .adcRR)
  | 0x23 => some (.ri .adcRI)
  | 0x24 => some (.rr .subRR)
  | 0x25 => some (.ri .subRI)
  | 0x26 => some (.rr .sbcRR)
  | 0x27 => some (.ri .sbcRI)
  | 0x28 => some (.rr .cmpRR)
  | 0x29 => some (.ri .cmpRI)
  | 0x2A => some (.r .incR)
  | 0x2B => some (.r .decR)
  | 0x2C => some (.r .negR)
  | 0x2D => some (.r .divR)
  | 0x30 => some (.rr .andRR)
  | 0x31 => some (.ri .andRI)
  | 0x32 => some (.rr .orRR)
  | 0x33 => some (.ri .orRI)
  | 0x34 => some (.rr .xorRR)
  | 0x35 => some (.ri .xorRI)
  | 0x36 => some (.rr .testRR)
  | 0x37 => some (.ri .testRI)
  | 0x38 => some (.r .notR)
  | 0x40 => some (.a16 .jmpA)
  | 0x41 => some (.r .jmpR)
  | 0x42 => some (.j8 .jmpS)
  | 0x43 => some (.a16 .callA)
  | 0x44 => some (.r .callR)
  | 0x45 => some (.far .callF)
  | 0x46 => some (.n .ret)
  | 0x47 => some (.i16 .retI)
  | 0x48 => some (.n .retF)
  | 0x49 => some (.j8 .loop)
  | 0x4A => some (.j8 .loopz)
  | 0x4B => some (.j8 .loopnz)
  | 0x50 => some (.j8 .jo)
  | 0x51 => some (.j8 .jno)
  | 0x52 => some (.j8 .jc)
  | 0x53 => some (.j8 .jnc)
  | 0x54 => some (.j8 .jz)
  | 0x55 => some (.j8 .jnz)
  | 0x56 => some (.j8 .jbe)
  | 0x57 => some (.j8 .ja)
  | 0x58 => some (.j8 .js)
  | 0x59 => some (.j8 .jns)
  | 0x5A => some (.j8 .jp)
  | 0x5B => some (.j8 .jnp)
  | 0x5C => some (.j8 .jl)
  | 0x5D => some (.j8 .jge)
  | 0x5E => some (.j8 .jle)
  | 0x5F => some (.j8 .jg)
  | 0x60 => some (.r .push)
  | 0x61 => some (.r .pop)
  | 0x62 => some (.n .pusha)
  | 0x63 => some (.n .popa)
  | 0x64 => some (.en .enter)
  | 0x65 => some (.n .leave)
  | 0x70 => some (.n .movsb)
  | 0x71 => some (.n .movsw)
  | 0x72 => some (.n .stosb)
  | 0x73 => some (.n .stosw)
  | 0x74 => some (.n .lodsb)
  | 0x75 => some (.n .lodsw)
  | 0x76 => some (.n .cmpsb)
  | 0x77 => some (.n .cmpsw)
  | 0x78 => some (.p .rep)
  | 0x79 => some (.p .repz)
  | 0x7A => some (.p .repnz)
  | _ => none

/-! ## Decoding -/

/-- Why the decoder rejects a list of bytes. -/
inductive DecodeError
  /-- There is no opcode byte. -/
  | empty
  /-- The opcode byte is unassigned (30_encoding.md R104). -/
  | unknownOpcode (op : Byte)
  /-- The list ends before the operand bytes of the opcode's format do. -/
  | truncated (op : Byte)
deriving DecidableEq, Repr

/-- The first instruction of a list of bytes and the bytes after it. The opcode byte alone fixes the length (30_encoding.md R90). -/
def decode : List Byte → Except DecodeError (Instr × List Byte)
  | [] => .error .empty
  | op :: rest =>
    match opmap op with
    | none => .error (.unknownOpcode op)
    | some row =>
      if rest.length < row.operandBytes then .error (.truncated op)
      else .ok (row.build rest, rest.drop row.operandBytes)

/-- The five bytes (the longest instruction, 30_encoding.md R90) of a table word: the low `nbits` bits of `w`, the least
significant byte first, and zeros above them. -/
def tableBytes (nbits w : Nat) : List Byte :=
  let v := w % 2 ^ nbits
  [BitVec.ofNat 8 v, BitVec.ofNat 8 (v >>> 8), BitVec.ofNat 8 (v >>> 16), BitVec.ofNat 8 (v >>> 24), BitVec.ofNat 8 (v >>> 32)]

/-- The instruction the decoder reads from a word numbered as spec/opcode_table.json numbers it: bit 0 is the least
significant bit of the opcode byte. -/
def decodeTableWord (nbits w : Nat) : Option Instr :=
  match decode (tableBytes nbits w) with
  | .ok (i, _) => some i
  | .error _ => none

/-! ## Encoding -/

/-- The selector byte of a one-register format, field `b` zero. -/
def selR (a : Reg) : Byte := selByte a.toBits 0

/-- The selector byte of a two-register format. -/
def selRR (a b : Reg) : Byte := selByte a.toBits b.toBits

/-- The selector byte with a segment register in field `a`. -/
def selSR (a : SReg) (b : Reg) : Byte := selByte (a.toBits.setWidth 3) b.toBits

/-- The selector byte with a segment register in field `b`. -/
def selRS (a : Reg) (b : SReg) : Byte := selByte a.toBits (b.toBits.setWidth 3)

/-- The bytes of an instruction (30_encoding.md R91, R101), the undecoded selector bits zero (R92). -/
def encode : Instr → List Byte
  | .hlt => [0x01]
  | .wait => [0x02]
  | .int v => [0x03, v]
  | .iret => [0x04]
  | .clc => [0x05]
  | .stc => [0x06]
  | .cli => [0x07]
  | .sti => [0x08]
  | .cld => [0x09]
  | .std => [0x0A]
  | .movRR a b => [0x10, selRR a b]
  | .movRI a imm => [0x11, selR a, lowByte imm, highByte imm]
  | .movRA a addr => [0x12, selR a, lowByte addr, highByte addr]
  | .movAR a addr => [0x13, selR a, lowByte addr, highByte addr]
  | .movRX a b disp => [0x14, selRR a b, lowByte disp, highByte disp]
  | .movXR a b disp => [0x15, selRR a b, lowByte disp, highByte disp]
  | .movSR a b => [0x16, selSR a b]
  | .movRS a b => [0x17, selRS a b]
  | .lea a b disp => [0x18, selRR a b, lowByte disp, highByte disp]
  | .ldsA a addr => [0x19, selR a, lowByte addr, highByte addr]
  | .ldsX a b disp => [0x1A, selRR a b, lowByte disp, highByte disp]
  | .lesA a addr => [0x1B, selR a, lowByte addr, highByte addr]
  | .lesX a b disp => [0x1C, selRR a b, lowByte disp, highByte disp]
  | .addRR a b => [0x20, selRR a b]
  | .addRI a imm => [0x21, selR a, lowByte imm, highByte imm]
  | .adcRR a b => [0x22, selRR a b]
  | .adcRI a imm => [0x23, selR a, lowByte imm, highByte imm]
  | .subRR a b => [0x24, selRR a b]
  | .subRI a imm => [0x25, selR a, lowByte imm, highByte imm]
  | .sbcRR a b => [0x26, selRR a b]
  | .sbcRI a imm => [0x27, selR a, lowByte imm, highByte imm]
  | .cmpRR a b => [0x28, selRR a b]
  | .cmpRI a imm => [0x29, selR a, lowByte imm, highByte imm]
  | .incR a => [0x2A, selR a]
  | .decR a => [0x2B, selR a]
  | .negR a => [0x2C, selR a]
  | .divR a => [0x2D, selR a]
  | .andRR a b => [0x30, selRR a b]
  | .andRI a imm => [0x31, selR a, lowByte imm, highByte imm]
  | .orRR a b => [0x32, selRR a b]
  | .orRI a imm => [0x33, selR a, lowByte imm, highByte imm]
  | .xorRR a b => [0x34, selRR a b]
  | .xorRI a imm => [0x35, selR a, lowByte imm, highByte imm]
  | .testRR a b => [0x36, selRR a b]
  | .testRI a imm => [0x37, selR a, lowByte imm, highByte imm]
  | .notR a => [0x38, selR a]
  | .jmpA addr => [0x40, lowByte addr, highByte addr]
  | .jmpR a => [0x41, selR a]
  | .jmpS rel => [0x42, rel]
  | .callA addr => [0x43, lowByte addr, highByte addr]
  | .callR a => [0x44, selR a]
  | .callF off seg => [0x45, lowByte off, highByte off, lowByte seg, highByte seg]
  | .ret => [0x46]
  | .retI n => [0x47, lowByte n, highByte n]
  | .retF => [0x48]
  | .loop rel => [0x49, rel]
  | .loopz rel => [0x4A, rel]
  | .loopnz rel => [0x4B, rel]
  | .jo rel => [0x50, rel]
  | .jno rel => [0x51, rel]
  | .jc rel => [0x52, rel]
  | .jnc rel => [0x53, rel]
  | .jz rel => [0x54, rel]
  | .jnz rel => [0x55, rel]
  | .jbe rel => [0x56, rel]
  | .ja rel => [0x57, rel]
  | .js rel => [0x58, rel]
  | .jns rel => [0x59, rel]
  | .jp rel => [0x5A, rel]
  | .jnp rel => [0x5B, rel]
  | .jl rel => [0x5C, rel]
  | .jge rel => [0x5D, rel]
  | .jle rel => [0x5E, rel]
  | .jg rel => [0x5F, rel]
  | .push a => [0x60, selR a]
  | .pop a => [0x61, selR a]
  | .pusha => [0x62]
  | .popa => [0x63]
  | .enter size level => [0x64, lowByte size, highByte size, level]
  | .leave => [0x65]
  | .movsb => [0x70]
  | .movsw => [0x71]
  | .stosb => [0x72]
  | .stosw => [0x73]
  | .lodsb => [0x74]
  | .lodsw => [0x75]
  | .cmpsb => [0x76]
  | .cmpsw => [0x77]
  | .rep next => [0x78, next]
  | .repz next => [0x79, next]
  | .repnz next => [0x7A, next]

end Sys2Proof
end

