-- ==== Sys2Proof/Config.lean ====
section
/-! DEFINITION. The implementation parameters of 00_scope.md R7, each at the default the spec gives it (log 1).
The parameters the spec leaves open without a default (CYC, the introspection values) are in Machine/Open.lean. -/

namespace Sys2Proof.Config

/-- MEM_SIZE, the number of bytes of physical memory. DESIGN CHOICE (log 1): the default of 00_scope.md R7. -/
def memSize : Nat := 0x100000

/-- IVT_BASE, the physical address of vector-table entry 0. DESIGN CHOICE (log 1): the default of 00_scope.md R7. -/
def ivtBase : Nat := 0

/-- RESET_PC. DESIGN CHOICE (log 1): the default of 00_scope.md R7. -/
def resetPc : Word := 0x0100#16

/-- RESET_SS. DESIGN CHOICE (log 1): the default of 00_scope.md R7. -/
def resetSs : Word := 0x1000#16

/-- RESET_SP. DESIGN CHOICE (log 1): the default of 00_scope.md R7. -/
def resetSp : Word := 0xFFFE#16

end Sys2Proof.Config
end

