-- ==== Sys2Proof/Machine/State.lean ====
section
/-! DEFINITION. The architectural state (10_state.md), the reasons a step can stop, and the state after reset. -/

namespace Sys2Proof.Machine

/-- The eight general registers (10_state.md R20, R21); `sp` is register 7, the one cell of the stack pointer (R22). -/
structure Regs where
  ax : Word
  bx : Word
  cx : Word
  dx : Word
  si : Word
  di : Word
  bp : Word
  sp : Word
deriving DecidableEq, Repr

/-- The four segment registers (10_state.md R30). -/
structure Segs where
  cs : Word
  ds : Word
  ss : Word
  es : Word
deriving DecidableEq, Repr

/-- The eight flags (10_state.md R33): carry, parity, zero, sign, trap, interrupt-enable, direction, overflow. The packed
FLAGS word of R34 is computed from them. -/
structure Flags where
  c : Bool
  p : Bool
  z : Bool
  s : Bool
  t : Bool
  i : Bool
  d : Bool
  o : Bool
deriving DecidableEq, Repr

/-- The kind and info of a halting engine error; there are exactly two kinds (60_exceptions.md R350 to R352). -/
inductive EngineError
  /-- The offending opcode byte (R351). -/
  | unknownOpcode (byte : Byte)
  /-- The physical address at or past MEM_SIZE (R352). -/
  | addressOutOfRange (pa : Nat)
deriving DecidableEq, Repr

/-- Physical memory (10_state.md R45): the bytes that differ from what an unlisted address reads as, addresses strictly rising
(`Memory.wf` in Machine/Memory.lean). -/
abbrev Memory := List Host.Cell

/-- The whole state of the core (10_state.md sections 1 to 6). -/
structure State where
  /-- general registers (R20) -/
  regs : Regs
  /-- segment registers (R30) -/
  segs : Segs
  /-- program counter, an offset within the code segment (R24) -/
  pc : Word
  /-- flags (R33) -/
  flags : Flags
  /-- physical memory (R45) -/
  mem : Memory
  /-- an interrupt request is latched (R40) -/
  pending : Bool
  /-- the vector of the latch (R40) -/
  pvec : Byte
  /-- HLT or an engine error stopped the core (R41) -/
  halted : Bool
  /-- WAIT suspended the core (R41) -/
  waiting : Bool
  /-- an engine error happened (R41) -/
  error : Bool
  /-- the error message: none is the empty text (R42, log 7) -/
  errmsg : Option EngineError
  /-- cycle counter (R43) -/
  cycles : Nat
  /-- instruction counter (R43) -/
  instructions : Nat
  /-- introspection: the last opcode byte fetched (R44) -/
  lastOpcode : Byte
  /-- introspection: last-fetched address (R44, log 4) -/
  lastAddress : BitVec 21
  /-- introspection: last-fetched data (R44, log 4) -/
  lastData : Word
deriving DecidableEq, Repr

/-- Why a step stops. Both reasons are the halting engine errors of 60_exceptions.md section 1, and each carries the state the
error leaves (`error` and `halted` true, R350), from which every later step is a no-op (40_step_fetch_dispatch.md R129). -/
inductive Fault
  /-- Raised by `step` for an unassigned opcode byte and by the repeat driver for a byte that is no string opcode
  (60_exceptions.md R351). Safe: the spec's own outcome (R353, log 6). -/
  | unknownOpcode (byte : Byte) (after : State)
  /-- Raised by every byte access at or past MEM_SIZE (60_exceptions.md R352). Safe: the spec's own outcome (R353, log 6). -/
  | addressOutOfRange (pa : Nat) (after : State)
deriving DecidableEq, Repr

/-- Why an instruction has no meaning. -/
inductive Refusal
  /-- Raised by `exec` for an instruction that is not modelled yet; no arm raises it in this model. Safe: nothing runs. -/
  | notModelled (mnemonic : String)
deriving DecidableEq, Repr

/-- Every general register zero but SP = RESET_SP (10_state.md R50). -/
def Regs.reset : Regs where
  ax := 0#16
  bx := 0#16
  cx := 0#16
  dx := 0#16
  si := 0#16
  di := 0#16
  bp := 0#16
  sp := Config.resetSp

/-- Every segment register zero but SS = RESET_SS (10_state.md R50). -/
def Segs.reset : Segs where
  cs := 0#16
  ds := 0#16
  ss := Config.resetSs
  es := 0#16

/-- RESET_FLAGS = 0x0000: every flag 0 (10_state.md R50). -/
def Flags.reset : Flags where
  c := false
  p := false
  z := false
  s := false
  t := false
  i := false
  d := false
  o := false

/-- The machine right after `initialize`, the state a model starts from: every item of 10_state.md R50 at its value and every
byte of memory 0x00 (R51, log 5). The host operation `reset`, which keeps memory, is `State.hostReset`. -/
def State.reset : State where
  regs := Regs.reset
  segs := Segs.reset
  pc := Config.resetPc
  flags := Flags.reset
  mem := []
  pending := false
  pvec := 0#8
  halted := false
  waiting := false
  error := false
  errmsg := none
  cycles := 0
  instructions := 0
  lastOpcode := 0#8
  lastAddress := 0#21
  lastData := 0#16

end Sys2Proof.Machine
end

