-- ==== Sys2Proof/Machine/Flags.lean ====
section
/-! DEFINITION. The flags: the packed word (10_state.md R34), the flag-derivation helper (41_arithmetic_logic.md section 1) and
the conditions (43_control_flow.md R236). -/

namespace Sys2Proof.Machine

/-! ## The packed word -/

/-- A flag in a bit position of the FLAGS word. -/
def flagBit (b : Bool) (k : Nat) : Word := if b then BitVec.twoPow 16 k else 0#16

/-- FLAGS, the 16-bit wire format: C, P, Z, S, T, I, D, O in bits 0, 2, 6, 7, 8, 9, 10, 11, the rest 0 (10_state.md R34). -/
def Flags.pack (f : Flags) : Word :=
  flagBit f.o 11 ||| flagBit f.d 10 ||| flagBit f.i 9 ||| flagBit f.t 8 ||| flagBit f.s 7 ||| flagBit f.z 6 |||
    flagBit f.p 2 ||| flagBit f.c 0

/-- The flags of a word; the bits that name no flag are dropped (10_state.md R34). -/
def Flags.unpack (w : Word) : Flags where
  c := w.getLsbD 0
  p := w.getLsbD 2
  z := w.getLsbD 6
  s := w.getLsbD 7
  t := w.getLsbD 8
  i := w.getLsbD 9
  d := w.getLsbD 10
  o := w.getLsbD 11

/-! ## The flag-derivation helper -/

/-- Whether the number of one bits of a byte is even (41_arithmetic_logic.md R150). -/
def evenParity (b : Byte) : Bool :=
  !(b.getLsbD 0 ^^ b.getLsbD 1 ^^ b.getLsbD 2 ^^ b.getLsbD 3 ^^ b.getLsbD 4 ^^ b.getLsbD 5 ^^ b.getLsbD 6 ^^ b.getLsbD 7)

/-- `SZP(r)`: zero, sign and parity of a result; parity sees the low byte only (41_arithmetic_logic.md R150). -/
def Flags.szp (f : Flags) (r : Word) : Flags :=
  { f with z := r == 0#16, s := r.getLsbD 15, p := evenParity (lowByte r) }

/-- `Add16(a, bw)`: the result and flags of an addition whose second operand is already widened (41_arithmetic_logic.md R151).
The overflow formula sees bits 15:0 of `bw`. -/
def add16 (f : Flags) (a : Word) (bw : Nat) : Word × Flags :=
  let w := a.toNat + bw
  let r := BitVec.ofNat 16 w
  let b := BitVec.ofNat 16 bw
  (r, { f.szp r with c := decide (0xFFFF < w), o := ((a ^^^ r) &&& (b ^^^ r) &&& 0x8000#16) != 0#16 })

/-- `Sub16(a, bw)`: the result and flags of a subtraction, carry being the borrow (41_arithmetic_logic.md R152). -/
def sub16 (f : Flags) (a : Word) (bw : Nat) : Word × Flags :=
  let r := BitVec.ofNat 16 (a.toNat + 2 ^ 17 - bw)
  let b := BitVec.ofNat 16 bw
  (r, { f.szp r with c := decide (a.toNat < bw), o := ((a ^^^ b) &&& (a ^^^ r) &&& 0x8000#16) != 0#16 })

/-- `Logic16(r)`: the flags of a logic result, carry and overflow cleared (41_arithmetic_logic.md R153). -/
def logic16 (f : Flags) (r : Word) : Flags := { f.szp r with c := false, o := false }

/-- The carry flag as a number (41_arithmetic_logic.md R154). -/
def Flags.carry (f : Flags) : Nat := f.c.toNat

/-- Add 1, the prior carry restored afterward (41_arithmetic_logic.md R155). -/
def inc16 (f : Flags) (a : Word) : Word × Flags :=
  ((add16 f a 1).1, { (add16 f a 1).2 with c := f.c })

/-- Subtract 1, the prior carry restored afterward (41_arithmetic_logic.md R155). -/
def dec16 (f : Flags) (a : Word) : Word × Flags :=
  ((sub16 f a 1).1, { (sub16 f a 1).2 with c := f.c })

/-! ## Conditions -/

/-- The sixteen conditions, in the order of their numbers 0x0 to 0xF (43_control_flow.md R236). -/
inductive Cond
  | o | no | c | nc | z | nz | be | a | s | ns | p | np | l | ge | le | g
deriving DecidableEq, Repr

/-- When a condition is true (43_control_flow.md R236). -/
def Cond.holds (k : Cond) (f : Flags) : Bool :=
  match k with
  | .o => f.o
  | .no => !f.o
  | .c => f.c
  | .nc => !f.c
  | .z => f.z
  | .nz => !f.z
  | .be => f.c || f.z
  | .a => !f.c && !f.z
  | .s => f.s
  | .ns => !f.s
  | .p => f.p
  | .np => !f.p
  | .l => f.s ^^ f.o
  | .ge => !(f.s ^^ f.o)
  | .le => f.z || (f.s ^^ f.o)
  | .g => !f.z && !(f.s ^^ f.o)

end Sys2Proof.Machine
end

