-- ==== Sys2Proof/Machine/Memory.lean ====
section
/-! DEFINITION. Physical memory as data: reading and writing one byte of the sparse list, and its canonical form. -/

namespace Sys2Proof.Machine

/-- What an unlisted address reads as: `initialize` writes 0x00 to every byte (10_state.md R51). -/
def Memory.unlisted : Byte := 0x00#8

/-- The byte at a physical address. -/
def Memory.read : Memory → Nat → Byte
  | [], _ => Memory.unlisted
  | (a, b) :: m, k => if a = k then b else Memory.read m k

/-- Memory without any entry for an address. -/
def Memory.erase : Memory → Nat → Memory
  | [], _ => []
  | (a, b) :: m, k => if a = k then Memory.erase m k else (a, b) :: Memory.erase m k

/-- Memory with an entry put before the first higher address. -/
def Memory.insert : Memory → Nat → Byte → Memory
  | [], k, v => [(k, v)]
  | (a, b) :: m, k, v => if k < a then (k, v) :: (a, b) :: m else (a, b) :: Memory.insert m k v

/-- Memory after one byte is written; writing what an unlisted address reads as removes the entry. -/
def Memory.write (m : Memory) (k : Nat) (v : Byte) : Memory :=
  if v = Memory.unlisted then Memory.erase m k else Memory.insert (Memory.erase m k) k v

/-- The canonical form: addresses strictly rising, no entry that reads as an unlisted one, every address below MEM_SIZE. -/
abbrev Memory.wf (m : Memory) : Prop :=
  m.Pairwise (fun x y => x.1 < y.1) ∧ ∀ c ∈ m, c.2 ≠ Memory.unlisted ∧ c.1 < Config.memSize

/-- Memory with bytes copied to rising addresses (20_memory.md R80). -/
def Memory.writeBytes : Memory → Nat → List Byte → Memory
  | m, _, [] => m
  | m, k, b :: bs => Memory.writeBytes (Memory.write m k b) (k + 1) bs

end Sys2Proof.Machine
end

