-- ==== Sys2Proof/Machine/Ops.lean ====
section
/-! DEFINITION. The named operations over registers and memory, the stack primitives, taking an exception (`dispatch`) and
returning from one. An operation that can raise an engine error answers in `Except Fault`; the fault carries the state with
every effect made before the failing access (60_exceptions.md R353). -/

namespace Sys2Proof.Machine

/-! ## Registers -/

/-- `x[i]` (00_scope.md R9). -/
def State.getReg (s : State) : Reg → Word
  | .ax => s.regs.ax
  | .bx => s.regs.bx
  | .cx => s.regs.cx
  | .dx => s.regs.dx
  | .si => s.regs.si
  | .di => s.regs.di
  | .bp => s.regs.bp
  | .sp => s.regs.sp

/-- `x[i] <- v` (00_scope.md R9). -/
def State.setReg (s : State) (r : Reg) (v : Word) : State :=
  { s with regs := match r with
    | .ax => { s.regs with ax := v }
    | .bx => { s.regs with bx := v }
    | .cx => { s.regs with cx := v }
    | .dx => { s.regs with dx := v }
    | .si => { s.regs with si := v }
    | .di => { s.regs with di := v }
    | .bp => { s.regs with bp := v }
    | .sp => { s.regs with sp := v } }

/-- `s[j]` (00_scope.md R9). -/
def State.getSeg (s : State) : SReg → Word
  | .cs => s.segs.cs
  | .ds => s.segs.ds
  | .ss => s.segs.ss
  | .es => s.segs.es

/-- `s[j] <- v` (00_scope.md R9). -/
def State.setSeg (s : State) (j : SReg) (v : Word) : State :=
  { s with segs := match j with
    | .cs => { s.segs with cs := v }
    | .ds => { s.segs with ds := v }
    | .ss => { s.segs with ss := v }
    | .es => { s.segs with es := v } }

/-- `pc <- target` (00_scope.md R9). -/
def State.setPc (s : State) (v : Word) : State := { s with pc := v }

/-- The flags replaced. -/
def State.setFlags (s : State) (f : Flags) : State := { s with flags := f }

/-! ## Engine errors -/

/-- The state an engine error leaves: `error`, `halted` and a message (60_exceptions.md R350). -/
def State.errored (s : State) (e : EngineError) : State :=
  { s with error := true, halted := true, errmsg := some e }

/-- `raise EngineError(kind, info)` (60_exceptions.md R350). -/
def raiseEngine (e : EngineError) (s : State) : Fault :=
  match e with
  | .unknownOpcode b => .unknownOpcode b (s.errored e)
  | .addressOutOfRange pa => .addressOutOfRange pa (s.errored e)

/-- The state a fault carries. -/
def Fault.after : Fault → State
  | .unknownOpcode _ s => s
  | .addressOutOfRange _ s => s

/-- The outcome of a meaning whose operations can raise an engine error. -/
def finish : Except Fault State → Host.Outcome State Fault Refusal
  | .ok s => .next s
  | .error f => .fault f

/-! ## Memory -/

/-- `phys(seg, off) = (seg << 4) + off`, not truncated (20_memory.md R60). -/
def phys (seg off : Word) : Nat := seg.toNat * 2 ^ 4 + off.toNat

/-- The byte of memory at a physical address. -/
def State.byteAt (s : State) (pa : Nat) : Byte := Memory.read s.mem pa

/-- `MemRead(pa, 1)` (20_memory.md R62). -/
def readByte (s : State) (pa : Nat) : Except Fault Byte :=
  if pa < Config.memSize then .ok (s.byteAt pa) else .error (raiseEngine (.addressOutOfRange pa) s)

/-- `MemWrite(pa, 1, v)` (20_memory.md R63). -/
def writeByte (s : State) (pa : Nat) (v : Byte) : Except Fault State :=
  if pa < Config.memSize then .ok { s with mem := Memory.write s.mem pa v }
  else .error (raiseEngine (.addressOutOfRange pa) s)

/-- `MemRead(pa, 2)`: low byte first, the high byte at `pa + 1`, each checked on its own (20_memory.md R64). -/
def readWord (s : State) (pa : Nat) : Except Fault Word := do
  let lo ← readByte s pa
  let hi ← readByte s (pa + 1)
  .ok (wordOfBytes lo hi)

/-- `MemWrite(pa, 2, v)`: low byte first, so it is written when the high byte is out of range (20_memory.md R65). -/
def writeWord (s : State) (pa : Nat) (v : Word) : Except Fault State := do
  let t ← writeByte s pa (lowByte v)
  writeByte t (pa + 1) (highByte v)

/-! ## The stack -/

/-- `Push(v)`: SP is decremented, then the word is written at the new SS:SP (44_stack_frame.md R280). -/
def push (s : State) (v : Word) : Except Fault State :=
  let t := s.setReg .sp (s.getReg .sp - 2#16)
  writeWord t (phys (t.getSeg .ss) (t.getReg .sp)) v

/-- `Pop()`: the word at SS:SP is read, then SP is incremented (44_stack_frame.md R281). -/
def pop (s : State) : Except Fault (Word × State) := do
  let v ← readWord s (phys (s.getSeg .ss) (s.getReg .sp))
  .ok (v, s.setReg .sp (s.getReg .sp + 2#16))

/-! ## Taking an exception and returning from one -/

/-- The physical address of a vector's entry (60_exceptions.md R361). -/
def vectorEntry (v : Byte) : Nat := Config.ivtBase + 4 * v.toNat

/-- `Dispatch(v)`, the one entry sequence of a hardware interrupt, INT and the divide fault (60_exceptions.md R360): FLAGS, CS
and pc are pushed, I and T cleared, and pc and CS loaded from the vector's entry, both words read before either is written. -/
def dispatch (s : State) (v : Byte) : Except Fault State := do
  let s ← push s s.flags.pack
  let s ← push s (s.getSeg .cs)
  let s ← push s s.pc
  let s := s.setFlags { s.flags with i := false, t := false }
  let off ← readWord s (vectorEntry v)
  let sg ← readWord s (vectorEntry v + 2)
  .ok ((s.setPc off).setSeg .cs sg)

/-- The restore half of `dispatch` (46_system.md R333): offset, segment and flags are popped, and pc, CS and FLAGS written
after all three pops. -/
def returnFromInterrupt (s : State) : Except Fault State := do
  let (off, s) ← pop s
  let (sg, s) ← pop s
  let (fl, s) ← pop s
  .ok (((s.setPc off).setSeg .cs sg).setFlags (Flags.unpack fl))

/-- The instruction's result written to a register together with its flags. -/
def State.setResult (s : State) (r : Reg) (res : Word × Flags) : State := (s.setReg r res.1).setFlags res.2

end Sys2Proof.Machine
end

