-- ==== Sys2Proof/Machine/Operands.lean ====
section
/-! DEFINITION. The operand forms (30_encoding.md R97, 40_step_fetch_dispatch.md section 4): memory operands as a pair of segment
value and offset, far pointers, and relative targets. -/

namespace Sys2Proof.Machine

/-- The direct memory operand `[addr16]`, in DS (40_step_fetch_dispatch.md R131). -/
def directOperand (s : State) (addr : Word) : Word × Word := (s.getSeg .ds, addr)

/-- The effective offset `(x[b] + disp16) mod 2^16` (30_encoding.md R94, 40_step_fetch_dispatch.md R133). -/
def effectiveOffset (s : State) (b : Reg) (disp : Word) : Word := s.getReg b + disp

/-- The register-indexed memory operand `[rb+disp16]`, in DS for every base (40_step_fetch_dispatch.md R132). -/
def indexedOperand (s : State) (b : Reg) (disp : Word) : Word × Word := (s.getSeg .ds, effectiveOffset s b disp)

/-- The physical address of a memory operand (20_memory.md R60). -/
def operandAddress (m : Word × Word) : Nat := phys m.1 m.2

/-- `ReadW` of a memory operand (00_scope.md R9). -/
def loadOperand (s : State) (m : Word × Word) : Except Fault Word := readWord s (operandAddress m)

/-- `WriteW` of a memory operand (00_scope.md R9). -/
def storeOperand (s : State) (m : Word × Word) (v : Word) : Except Fault State := writeWord s (operandAddress m) v

/-- The far pointer at a memory operand: offset word, then segment word two offsets on, wrapping in 16 bits (42_data_transfer.md R209). -/
def loadFarPointer (s : State) (m : Word × Word) : Except Fault (Word × Word) := do
  let off ← loadOperand s m
  let sg ← loadOperand s (m.1, m.2 + 2#16)
  .ok (off, sg)

/-- The target of a relative transfer, from the pc after the displacement byte (43_control_flow.md R231). -/
def relativeTarget (s : State) (d : Byte) : Word := s.pc + signExtendByte d

/-- A relative transfer taken when a condition holds (43_control_flow.md R231, R237). -/
def jumpIf (taken : Bool) (d : Byte) (s : State) : State := if taken then s.setPc (relativeTarget s d) else s

end Sys2Proof.Machine
end

