-- ==== Sys2Proof/Machine/Arith.lean ====
section
/-! DEFINITION. The arithmetic instructions (41_arithmetic_logic.md sections 2 to 4). -/

namespace Sys2Proof.Machine

/-- ADD rd, rs (41_arithmetic_logic.md R160). -/
def execAddRR (a b : Reg) (s : State) : Host.Outcome State Fault Refusal :=
  .next (s.setResult a (add16 s.flags (s.getReg a) (s.getReg b).toNat))

/-- ADD rd, imm16 (41_arithmetic_logic.md R161). -/
def execAddRI (a : Reg) (imm : Word) (s : State) : Host.Outcome State Fault Refusal :=
  .next (s.setResult a (add16 s.flags (s.getReg a) imm.toNat))

/-- ADC rd, rs (carry folded into the widened operand, R154) (41_arithmetic_logic.md R162). -/
def execAdcRR (a b : Reg) (s : State) : Host.Outcome State Fault Refusal :=
  .next (s.setResult a (add16 s.flags (s.getReg a) ((s.getReg b).toNat + s.flags.carry)))

/-- ADC rd, imm16 (carry folded into the widened operand, R154) (41_arithmetic_logic.md R163). -/
def execAdcRI (a : Reg) (imm : Word) (s : State) : Host.Outcome State Fault Refusal :=
  .next (s.setResult a (add16 s.flags (s.getReg a) (imm.toNat + s.flags.carry)))

/-- SUB rd, rs (41_arithmetic_logic.md R164). -/
def execSubRR (a b : Reg) (s : State) : Host.Outcome State Fault Refusal :=
  .next (s.setResult a (sub16 s.flags (s.getReg a) (s.getReg b).toNat))

/-- SUB rd, imm16 (41_arithmetic_logic.md R165). -/
def execSubRI (a : Reg) (imm : Word) (s : State) : Host.Outcome State Fault Refusal :=
  .next (s.setResult a (sub16 s.flags (s.getReg a) imm.toNat))

/-- SBC rd, rs (carry folded into the widened operand, R154) (41_arithmetic_logic.md R166). -/
def execSbcRR (a b : Reg) (s : State) : Host.Outcome State Fault Refusal :=
  .next (s.setResult a (sub16 s.flags (s.getReg a) ((s.getReg b).toNat + s.flags.carry)))

/-- SBC rd, imm16 (carry folded into the widened operand, R154) (41_arithmetic_logic.md R167). -/
def execSbcRI (a : Reg) (imm : Word) (s : State) : Host.Outcome State Fault Refusal :=
  .next (s.setResult a (sub16 s.flags (s.getReg a) (imm.toNat + s.flags.carry)))

/-- CMP ra, rs: the subtract derivation, result discarded (41_arithmetic_logic.md R168). -/
def execCmpRR (a b : Reg) (s : State) : Host.Outcome State Fault Refusal :=
  .next (s.setFlags (sub16 s.flags (s.getReg a) (s.getReg b).toNat).2)

/-- CMP ra, imm16: the subtract derivation, result discarded (41_arithmetic_logic.md R169). -/
def execCmpRI (a : Reg) (imm : Word) (s : State) : Host.Outcome State Fault Refusal :=
  .next (s.setFlags (sub16 s.flags (s.getReg a) imm.toNat).2)

/-- INC r: carry unchanged (41_arithmetic_logic.md R170). -/
def execIncR (a : Reg) (s : State) : Host.Outcome State Fault Refusal := .next (s.setResult a (inc16 s.flags (s.getReg a)))

/-- DEC r: carry unchanged (41_arithmetic_logic.md R171). -/
def execDecR (a : Reg) (s : State) : Host.Outcome State Fault Refusal := .next (s.setResult a (dec16 s.flags (s.getReg a)))

/-- NEG r: `0 - operand` (41_arithmetic_logic.md R172, R156). -/
def execNegR (a : Reg) (s : State) : Host.Outcome State Fault Refusal :=
  .next (s.setResult a (sub16 s.flags 0#16 (s.getReg a).toNat))

/-- The 32-bit dividend DX ++ AX (41_arithmetic_logic.md R176). -/
def dividend (s : State) : Nat := (s.getReg .dx).toNat * 2 ^ 16 + (s.getReg .ax).toNat

/-- The divide fault: entry through vector 0 inside the DIV step, not gated by I (60_exceptions.md R355). -/
def divideFault (s : State) : Except Fault State := dispatch s 0#8

/-- DIV r: unsigned, quotient to AX and remainder to DX, no flag written; a zero divisor and a quotient above 0xFFFF take the
divide fault with no register changed (41_arithmetic_logic.md R176). -/
def execDivR (a : Reg) (s : State) : Host.Outcome State Fault Refusal :=
  let d := (s.getReg a).toNat
  let n := dividend s
  if d = 0 then finish (divideFault s)
  else if 0xFFFF < n / d then finish (divideFault s)
  else .next ((s.setReg .ax (BitVec.ofNat 16 (n / d))).setReg .dx (BitVec.ofNat 16 (n % d)))

end Sys2Proof.Machine
end

