-- ==== Sys2Proof/Machine/Control.lean ====
section
/-! DEFINITION. Control flow (43_control_flow.md). No instruction of this file writes a flag; a target is
any offset, and no transfer faults because of its target (R230). -/

namespace Sys2Proof.Machine

/-! ## Jumps -/

/-- JMP addr16 (43_control_flow.md R232). -/
def execJmpA (addr : Word) (s : State) : Host.Outcome State Fault Refusal := .next (s.setPc addr)

/-- JMP r (43_control_flow.md R233). -/
def execJmpR (a : Reg) (s : State) : Host.Outcome State Fault Refusal := .next (s.setPc (s.getReg a))

/-- JMP rel8, JMPS (43_control_flow.md R234). -/
def execJmpS (d : Byte) (s : State) : Host.Outcome State Fault Refusal := .next (s.setPc (relativeTarget s d))

/-- The common operation of every conditional jump (43_control_flow.md R237). -/
def conditionalJump (k : Cond) (d : Byte) (s : State) : State := jumpIf (k.holds s.flags) d s

/-- JO rel8 (43_control_flow.md R240). -/
def execJo (d : Byte) (s : State) : Host.Outcome State Fault Refusal := .next (conditionalJump .o d s)

/-- JNO rel8 (43_control_flow.md R241). -/
def execJno (d : Byte) (s : State) : Host.Outcome State Fault Refusal := .next (conditionalJump .no d s)

/-- JC rel8 (43_control_flow.md R242). -/
def execJc (d : Byte) (s : State) : Host.Outcome State Fault Refusal := .next (conditionalJump .c d s)

/-- JNC rel8 (43_control_flow.md R243). -/
def execJnc (d : Byte) (s : State) : Host.Outcome State Fault Refusal := .next (conditionalJump .nc d s)

/-- JZ rel8 (43_control_flow.md R244). -/
def execJz (d : Byte) (s : State) : Host.Outcome State Fault Refusal := .next (conditionalJump .z d s)

/-- JNZ rel8 (43_control_flow.md R245). -/
def execJnz (d : Byte) (s : State) : Host.Outcome State Fault Refusal := .next (conditionalJump .nz d s)

/-- JBE rel8 (43_control_flow.md R246). -/
def execJbe (d : Byte) (s : State) : Host.Outcome State Fault Refusal := .next (conditionalJump .be d s)

/-- JA rel8 (43_control_flow.md R247). -/
def execJa (d : Byte) (s : State) : Host.Outcome State Fault Refusal := .next (conditionalJump .a d s)

/-- JS rel8 (43_control_flow.md R248). -/
def execJs (d : Byte) (s : State) : Host.Outcome State Fault Refusal := .next (conditionalJump .s d s)

/-- JNS rel8 (43_control_flow.md R249). -/
def execJns (d : Byte) (s : State) : Host.Outcome State Fault Refusal := .next (conditionalJump .ns d s)

/-- JP rel8 (43_control_flow.md R250). -/
def execJp (d : Byte) (s : State) : Host.Outcome State Fault Refusal := .next (conditionalJump .p d s)

/-- JNP rel8 (43_control_flow.md R251). -/
def execJnp (d : Byte) (s : State) : Host.Outcome State Fault Refusal := .next (conditionalJump .np d s)

/-- JL rel8 (43_control_flow.md R252). -/
def execJl (d : Byte) (s : State) : Host.Outcome State Fault Refusal := .next (conditionalJump .l d s)

/-- JGE rel8 (43_control_flow.md R253). -/
def execJge (d : Byte) (s : State) : Host.Outcome State Fault Refusal := .next (conditionalJump .ge d s)

/-- JLE rel8 (43_control_flow.md R254). -/
def execJle (d : Byte) (s : State) : Host.Outcome State Fault Refusal := .next (conditionalJump .le d s)

/-- JG rel8 (43_control_flow.md R255). -/
def execJg (d : Byte) (s : State) : Host.Outcome State Fault Refusal := .next (conditionalJump .g d s)

/-! ## Calls and returns -/

/-- A near call: the return offset is pushed, then pc is the target (43_control_flow.md R260, R261). -/
def nearCall (t : Word) (s : State) : Host.Outcome State Fault Refusal :=
  finish do
    let s ← push s s.pc
    .ok (s.setPc t)

/-- CALL addr16 (43_control_flow.md R260). -/
def execCallA (addr : Word) (s : State) : Host.Outcome State Fault Refusal := nearCall addr s

/-- CALL r: the target is read before the push (43_control_flow.md R261). -/
def execCallR (a : Reg) (s : State) : Host.Outcome State Fault Refusal := nearCall (s.getReg a) s

/-- CALLF off16, seg16: CS is pushed, then pc (43_control_flow.md R262). -/
def execCallF (off sg : Word) (s : State) : Host.Outcome State Fault Refusal :=
  finish do
    let s ← push s (s.getSeg .cs)
    let s ← push s s.pc
    .ok ((s.setSeg .cs sg).setPc off)

/-- RET (43_control_flow.md R263). -/
def execRet (s : State) : Host.Outcome State Fault Refusal :=
  finish do
    let (off, s) ← pop s
    .ok (s.setPc off)

/-- RET imm16: pops pc, then discards `n` bytes (43_control_flow.md R264). -/
def execRetI (n : Word) (s : State) : Host.Outcome State Fault Refusal :=
  finish do
    let (off, s) ← pop s
    .ok ((s.setPc off).setReg .sp (s.getReg .sp + n))

/-- RETF: pops the offset, then the segment (43_control_flow.md R265). -/
def execRetF (s : State) : Host.Outcome State Fault Refusal :=
  finish do
    let (off, s) ← pop s
    let (sg, s) ← pop s
    .ok ((s.setPc off).setSeg .cs sg)

/-! ## Loops -/

/-- The common operation of the loops: CX is decremented first, with no flag written, and the transfer is taken when CX is not
zero and the condition holds (43_control_flow.md section 5). -/
def loopIf (cond : Bool) (d : Byte) (s : State) : State :=
  let t := s.setReg .cx (s.getReg .cx - 1#16)
  jumpIf (t.getReg .cx != 0#16 && cond) d t

/-- LOOP rel8 (43_control_flow.md R270). -/
def execLoop (d : Byte) (s : State) : Host.Outcome State Fault Refusal := .next (loopIf true d s)

/-- LOOPZ rel8 (43_control_flow.md R271). -/
def execLoopz (d : Byte) (s : State) : Host.Outcome State Fault Refusal := .next (loopIf s.flags.z d s)

/-- LOOPNZ rel8 (43_control_flow.md R272). -/
def execLoopnz (d : Byte) (s : State) : Host.Outcome State Fault Refusal := .next (loopIf (!s.flags.z) d s)

end Sys2Proof.Machine
end

