-- ==== Sys2Proof/Machine/Logic.lean ====
section
/-! DEFINITION. The logic instructions (41_arithmetic_logic.md section 5). -/

namespace Sys2Proof.Machine

/-- A logic result written to a register with its flags (41_arithmetic_logic.md R153). -/
def logicInto (a : Reg) (r : Word) (s : State) : Host.Outcome State Fault Refusal := .next (s.setResult a (r, logic16 s.flags r))

/-- The flags of a logic result, the result discarded (41_arithmetic_logic.md R186). -/
def logicTest (r : Word) (s : State) : Host.Outcome State Fault Refusal := .next (s.setFlags (logic16 s.flags r))

/-- AND rd, rs (41_arithmetic_logic.md R180). -/
def execAndRR (a b : Reg) (s : State) : Host.Outcome State Fault Refusal := logicInto a (s.getReg a &&& s.getReg b) s

/-- AND rd, imm16 (41_arithmetic_logic.md R181). -/
def execAndRI (a : Reg) (imm : Word) (s : State) : Host.Outcome State Fault Refusal := logicInto a (s.getReg a &&& imm) s

/-- OR rd, rs (41_arithmetic_logic.md R182). -/
def execOrRR (a b : Reg) (s : State) : Host.Outcome State Fault Refusal := logicInto a (s.getReg a ||| s.getReg b) s

/-- OR rd, imm16 (41_arithmetic_logic.md R183). -/
def execOrRI (a : Reg) (imm : Word) (s : State) : Host.Outcome State Fault Refusal := logicInto a (s.getReg a ||| imm) s

/-- XOR rd, rs (41_arithmetic_logic.md R184). -/
def execXorRR (a b : Reg) (s : State) : Host.Outcome State Fault Refusal := logicInto a (s.getReg a ^^^ s.getReg b) s

/-- XOR rd, imm16 (41_arithmetic_logic.md R185). -/
def execXorRI (a : Reg) (imm : Word) (s : State) : Host.Outcome State Fault Refusal := logicInto a (s.getReg a ^^^ imm) s

/-- TEST ra, rs (41_arithmetic_logic.md R186). -/
def execTestRR (a b : Reg) (s : State) : Host.Outcome State Fault Refusal := logicTest (s.getReg a &&& s.getReg b) s

/-- TEST ra, imm16 (41_arithmetic_logic.md R187). -/
def execTestRI (a : Reg) (imm : Word) (s : State) : Host.Outcome State Fault Refusal := logicTest (s.getReg a &&& imm) s

/-- NOT r: the complement, no flag written (41_arithmetic_logic.md R188). -/
def execNotR (a : Reg) (s : State) : Host.Outcome State Fault Refusal := .next (s.setReg a (~~~(s.getReg a)))

end Sys2Proof.Machine
end

