-- ==== Sys2Proof/Machine/Stack.lean ====
section
/-! DEFINITION. The stack and frame instructions (44_stack_frame.md). None reads or writes a flag. -/

namespace Sys2Proof.Machine

/-- PUSH r: the register is read before SP is decremented (44_stack_frame.md R282). -/
def execPush (a : Reg) (s : State) : Host.Outcome State Fault Refusal := finish (push s (s.getReg a))

/-- POP r: the register is written after SP is incremented (44_stack_frame.md R283). -/
def execPop (a : Reg) (s : State) : Host.Outcome State Fault Refusal :=
  finish do
    let (v, s) ← pop s
    .ok (s.setReg a v)

/-- Words pushed in order, the first first. -/
def pushAll (s : State) : List Word → Except Fault State
  | [] => .ok s
  | v :: vs => do
    let t ← push s v
    pushAll t vs

/-- The words PUSHA pushes: AX, BX, CX, DX, SI, DI, BP, then SP at PUSHA time (44_stack_frame.md R284). -/
def pushaWords (s : State) : List Word :=
  [s.getReg .ax, s.getReg .bx, s.getReg .cx, s.getReg .dx, s.getReg .si, s.getReg .di, s.getReg .bp, s.getReg .sp]

/-- PUSHA (44_stack_frame.md R284). -/
def execPusha (s : State) : Host.Outcome State Fault Refusal := finish (pushAll s (pushaWords s))

/-- The word `k` slots above SP, at SS:`(SP + 2*k) mod 2^16` (44_stack_frame.md R285). -/
def frameWord (s : State) (k : Nat) : Except Fault Word :=
  readWord s (phys (s.getSeg .ss) (s.getReg .sp + BitVec.ofNat 16 (2 * k)))

/-- POPA: all eight words are read from the frame before any register is written, and SP is loaded from its slot
(44_stack_frame.md R285, 90_conflicts.md C4). -/
def execPopa (s : State) : Host.Outcome State Fault Refusal :=
  finish do
    let w0 ← frameWord s 0
    let w1 ← frameWord s 1
    let w2 ← frameWord s 2
    let w3 ← frameWord s 3
    let w4 ← frameWord s 4
    let w5 ← frameWord s 5
    let w6 ← frameWord s 6
    let w7 ← frameWord s 7
    .ok { s with regs := { sp := w0, bp := w1, di := w2, si := w3, dx := w4, cx := w5, bx := w6, ax := w7 } }

/-- The chain copy of ENTER: `n` times, BP steps down by 2 and the word at SS:BP is pushed (44_stack_frame.md R286). -/
def copyFrames (s : State) : Nat → Except Fault State
  | 0 => .ok s
  | n + 1 => do
    let t := s.setReg .bp (s.getReg .bp - 2#16)
    let w ← readWord t (phys (t.getSeg .ss) (t.getReg .bp))
    let u ← push t w
    copyFrames u n

/-- The nested part of ENTER for a level above 0: `level - 1` outer frame pointers, then the new one (44_stack_frame.md R286). -/
def nestFrames (s : State) (level : Nat) (frame : Word) : Except Fault State :=
  if level = 0 then .ok s
  else do
    let t ← copyFrames s (level - 1)
    push t frame

/-- ENTER size16, level8: the level is taken modulo 32 (44_stack_frame.md R286). -/
def execEnter (size : Word) (level : Byte) (s : State) : Host.Outcome State Fault Refusal :=
  finish do
    let t ← push s (s.getReg .bp)
    let frame := t.getReg .sp
    let u ← nestFrames t (level.toNat % 32) frame
    let u := u.setReg .bp frame
    .ok (u.setReg .sp (u.getReg .sp - size))

/-- LEAVE: SP from BP, then BP from the stack (44_stack_frame.md R287). -/
def execLeave (s : State) : Host.Outcome State Fault Refusal :=
  finish do
    let (v, t) ← pop (s.setReg .sp (s.getReg .bp))
    .ok (t.setReg .bp v)

end Sys2Proof.Machine
end

