-- ==== Sys2Proof/Machine/StringOps.lean ====
section
/-! DEFINITION. The string instructions and the repeat driver (45_string_repeat.md). -/

namespace Sys2Proof.Machine

/-! ## Single iterations -/

/-- What a string pointer is advanced by for an operand of `n` bytes: `+n`, or `-n` when D is set (45_string_repeat.md R298). -/
def stringDelta (s : State) (n : Word) : Word := if s.flags.d then -n else n

/-- The physical address of the source operand DS:SI (45_string_repeat.md R298). -/
def sourceAddress (s : State) : Nat := phys (s.getSeg .ds) (s.getReg .si)

/-- The physical address of the destination operand ES:DI (45_string_repeat.md R298). -/
def destAddress (s : State) : Nat := phys (s.getSeg .es) (s.getReg .di)

/-- SI advanced (45_string_repeat.md R298). -/
def advanceSource (s : State) (n : Word) : State := s.setReg .si (s.getReg .si + stringDelta s n)

/-- DI advanced (45_string_repeat.md R298). -/
def advanceDest (s : State) (n : Word) : State := s.setReg .di (s.getReg .di + stringDelta s n)

/-- One MOVSB (45_string_repeat.md R300). -/
def movsbOnce (s : State) : Except Fault State := do
  let v ← readByte s (sourceAddress s)
  let t ← writeByte s (destAddress s) v
  .ok (advanceDest (advanceSource t 1#16) 1#16)

/-- One MOVSW (45_string_repeat.md R301). -/
def movswOnce (s : State) : Except Fault State := do
  let v ← readWord s (sourceAddress s)
  let t ← writeWord s (destAddress s) v
  .ok (advanceDest (advanceSource t 2#16) 2#16)

/-- One STOSB (45_string_repeat.md R302). -/
def stosbOnce (s : State) : Except Fault State := do
  let t ← writeByte s (destAddress s) (lowByte (s.getReg .ax))
  .ok (advanceDest t 1#16)

/-- One STOSW (45_string_repeat.md R303). -/
def stoswOnce (s : State) : Except Fault State := do
  let t ← writeWord s (destAddress s) (s.getReg .ax)
  .ok (advanceDest t 2#16)

/-- One LODSB: the high byte of AX is kept (45_string_repeat.md R304). -/
def lodsbOnce (s : State) : Except Fault State := do
  let v ← readByte s (sourceAddress s)
  .ok (advanceSource (s.setReg .ax (wordOfBytes v (highByte (s.getReg .ax)))) 1#16)

/-- One LODSW (45_string_repeat.md R305). -/
def lodswOnce (s : State) : Except Fault State := do
  let v ← readWord s (sourceAddress s)
  .ok (advanceSource (s.setReg .ax v) 2#16)

/-- One CMPSB: the bytes are zero-extended into the 16-bit derivation, source minus destination (45_string_repeat.md R306). -/
def cmpsbOnce (s : State) : Except Fault State := do
  let p ← readByte s (sourceAddress s)
  let q ← readByte s (destAddress s)
  let t := s.setFlags (sub16 s.flags (p.setWidth 16) q.toNat).2
  .ok (advanceDest (advanceSource t 1#16) 1#16)

/-- One CMPSW (45_string_repeat.md R307). -/
def cmpswOnce (s : State) : Except Fault State := do
  let p ← readWord s (sourceAddress s)
  let q ← readWord s (destAddress s)
  let t := s.setFlags (sub16 s.flags p q.toNat).2
  .ok (advanceDest (advanceSource t 2#16) 2#16)

/-- MOVSB (45_string_repeat.md R300). -/
def execMovsb (s : State) : Host.Outcome State Fault Refusal := finish (movsbOnce s)

/-- MOVSW (45_string_repeat.md R301). -/
def execMovsw (s : State) : Host.Outcome State Fault Refusal := finish (movswOnce s)

/-- STOSB (45_string_repeat.md R302). -/
def execStosb (s : State) : Host.Outcome State Fault Refusal := finish (stosbOnce s)

/-- STOSW (45_string_repeat.md R303). -/
def execStosw (s : State) : Host.Outcome State Fault Refusal := finish (stoswOnce s)

/-- LODSB (45_string_repeat.md R304). -/
def execLodsb (s : State) : Host.Outcome State Fault Refusal := finish (lodsbOnce s)

/-- LODSW (45_string_repeat.md R305). -/
def execLodsw (s : State) : Host.Outcome State Fault Refusal := finish (lodswOnce s)

/-- CMPSB (45_string_repeat.md R306). -/
def execCmpsb (s : State) : Host.Outcome State Fault Refusal := finish (cmpsbOnce s)

/-- CMPSW (45_string_repeat.md R307). -/
def execCmpsw (s : State) : Host.Outcome State Fault Refusal := finish (cmpswOnce s)

/-! ## The repeat driver -/

/-- The string operations a repeat byte can be followed by. -/
inductive StringOp
  | movsb | movsw | stosb | stosw | lodsb | lodsw | cmpsb | cmpsw
deriving DecidableEq, Repr

/-- The string operation of an opcode byte 0x70 to 0x77 (30_encoding.md R100, R101). -/
def StringOp.ofByte (b : Byte) : Option StringOp :=
  match b.toNat with
  | 0x70 => some .movsb
  | 0x71 => some .movsw
  | 0x72 => some .stosb
  | 0x73 => some .stosw
  | 0x74 => some .lodsb
  | 0x75 => some .lodsw
  | 0x76 => some .cmpsb
  | 0x77 => some .cmpsw
  | _ => none

/-- One iteration of a string operation (45_string_repeat.md R310). -/
def StringOp.once (op : StringOp) (s : State) : Except Fault State :=
  match op with
  | .movsb => movsbOnce s
  | .movsw => movswOnce s
  | .stosb => stosbOnce s
  | .stosw => stoswOnce s
  | .lodsb => lodsbOnce s
  | .lodsw => lodswOnce s
  | .cmpsb => cmpsbOnce s
  | .cmpsw => cmpswOnce s

/-- Whether a string operation produces a zero flag (45_string_repeat.md R310). -/
def StringOp.compares : StringOp → Bool
  | .cmpsb | .cmpsw => true
  | .movsb | .movsw | .stosb | .stosw | .lodsb | .lodsw => false

/-- The three repeat kinds (45_string_repeat.md R310). -/
inductive RepeatKind
  | rep | repz | repnz
deriving DecidableEq, Repr

/-- Whether the driver stops after an iteration that left a state: REPZ at Z = 0 and REPNZ at Z = 1, after a compare only
(45_string_repeat.md R310). -/
def RepeatKind.stops (kind : RepeatKind) (op : StringOp) (s : State) : Bool :=
  match kind with
  | .rep => false
  | .repz => op.compares && !s.flags.z
  | .repnz => op.compares && s.flags.z

/-- The loop of the repeat driver with at most `fuel` iterations: CX is tested before each iteration and decremented after it,
then the zero flag is tested (45_string_repeat.md R310). -/
def repeatLoop (kind : RepeatKind) (op : StringOp) : Nat → State → Except Fault State
  | 0, s => .ok s
  | fuel + 1, s =>
    if s.getReg .cx = 0#16 then .ok s
    else do
      let t ← op.once s
      let u := t.setReg .cx (t.getReg .cx - 1#16)
      if kind.stops op u then .ok u else repeatLoop kind op fuel u

/-- The repeat driver (45_string_repeat.md R310): a byte that is no string opcode raises UnknownOpcode (R314). CX iterations are
enough, since no string operation writes CX. -/
def repeatDriver (kind : RepeatKind) (next : Byte) (s : State) : Except Fault State :=
  match StringOp.ofByte next with
  | none => .error (raiseEngine (.unknownOpcode next) s)
  | some op => repeatLoop kind op (s.getReg .cx).toNat s

/-- REP (45_string_repeat.md R311). -/
def execRep (next : Byte) (s : State) : Host.Outcome State Fault Refusal := finish (repeatDriver .rep next s)

/-- REPZ (45_string_repeat.md R312). -/
def execRepz (next : Byte) (s : State) : Host.Outcome State Fault Refusal := finish (repeatDriver .repz next s)

/-- REPNZ (45_string_repeat.md R313). -/
def execRepnz (next : Byte) (s : State) : Host.Outcome State Fault Refusal := finish (repeatDriver .repnz next s)

end Sys2Proof.Machine
end

