-- ==== Sys2Proof/Machine/System.lean ====
section
/-! DEFINITION. The system instructions (46_system.md). -/

namespace Sys2Proof.Machine

/-- HLT (46_system.md R330). -/
def execHlt (s : State) : Host.Outcome State Fault Refusal := .next { s with halted := true }

/-- WAIT (46_system.md R331). -/
def execWait (s : State) : Host.Outcome State Fault Refusal := .next { s with waiting := true }

/-- INT imm8: enters the handler unconditionally, not gated by I and without the latch (46_system.md R332). -/
def execInt (v : Byte) (s : State) : Host.Outcome State Fault Refusal := finish (dispatch s v)

/-- IRET (46_system.md R333). -/
def execIret (s : State) : Host.Outcome State Fault Refusal := finish (returnFromInterrupt s)

/-- CLC (46_system.md R334). -/
def execClc (s : State) : Host.Outcome State Fault Refusal := .next (s.setFlags { s.flags with c := false })

/-- STC (46_system.md R335). -/
def execStc (s : State) : Host.Outcome State Fault Refusal := .next (s.setFlags { s.flags with c := true })

/-- CLI (46_system.md R336). -/
def execCli (s : State) : Host.Outcome State Fault Refusal := .next (s.setFlags { s.flags with i := false })

/-- STI (46_system.md R337). -/
def execSti (s : State) : Host.Outcome State Fault Refusal := .next (s.setFlags { s.flags with i := true })

/-- CLD (46_system.md R338). -/
def execCld (s : State) : Host.Outcome State Fault Refusal := .next (s.setFlags { s.flags with d := false })

/-- STD (46_system.md R339). -/
def execStd (s : State) : Host.Outcome State Fault Refusal := .next (s.setFlags { s.flags with d := true })

end Sys2Proof.Machine
end

