-- ==== Sys2Proof/Machine/Transfer.lean ====
section
/-! DEFINITION. The data-transfer instructions (42_data_transfer.md). None writes a flag. -/

namespace Sys2Proof.Machine

/-- A word load into a register; the register is not written when the load raises (42_data_transfer.md R202, R204). -/
def loadInto (a : Reg) (m : Word × Word) (s : State) : Host.Outcome State Fault Refusal :=
  finish do
    let v ← loadOperand s m
    .ok (s.setReg a v)

/-- A far-pointer load into a register and a segment register, both words read before either is written (42_data_transfer.md R209). -/
def loadFarInto (a : Reg) (j : SReg) (m : Word × Word) (s : State) : Host.Outcome State Fault Refusal :=
  finish do
    let (off, sg) ← loadFarPointer s m
    .ok ((s.setReg a off).setSeg j sg)

/-- MOV rd, rs (42_data_transfer.md R200). -/
def execMovRR (a b : Reg) (s : State) : Host.Outcome State Fault Refusal := .next (s.setReg a (s.getReg b))

/-- MOV rd, imm16 (42_data_transfer.md R201). -/
def execMovRI (a : Reg) (imm : Word) (s : State) : Host.Outcome State Fault Refusal := .next (s.setReg a imm)

/-- MOV rd, [addr16] (42_data_transfer.md R202). -/
def execMovRA (a : Reg) (addr : Word) (s : State) : Host.Outcome State Fault Refusal := loadInto a (directOperand s addr) s

/-- MOV [addr16], rs (42_data_transfer.md R203). -/
def execMovAR (a : Reg) (addr : Word) (s : State) : Host.Outcome State Fault Refusal :=
  finish (storeOperand s (directOperand s addr) (s.getReg a))

/-- MOV rd, [rb+disp16] (42_data_transfer.md R204). -/
def execMovRX (a b : Reg) (disp : Word) (s : State) : Host.Outcome State Fault Refusal := loadInto a (indexedOperand s b disp) s

/-- MOV [rb+disp16], rs (42_data_transfer.md R205). -/
def execMovXR (a b : Reg) (disp : Word) (s : State) : Host.Outcome State Fault Refusal :=
  finish (storeOperand s (indexedOperand s b disp) (s.getReg a))

/-- MOV sreg, rs (42_data_transfer.md R206). -/
def execMovSR (a : SReg) (b : Reg) (s : State) : Host.Outcome State Fault Refusal := .next (s.setSeg a (s.getReg b))

/-- MOV rd, sreg (42_data_transfer.md R207). -/
def execMovRS (a : Reg) (b : SReg) (s : State) : Host.Outcome State Fault Refusal := .next (s.setReg a (s.getSeg b))

/-- LEA rd, [rb+disp16]: the offset only, no memory access (42_data_transfer.md R208). -/
def execLea (a b : Reg) (disp : Word) (s : State) : Host.Outcome State Fault Refusal := .next (s.setReg a (effectiveOffset s b disp))

/-- LDS rd, [addr16] (42_data_transfer.md R209). -/
def execLdsA (a : Reg) (addr : Word) (s : State) : Host.Outcome State Fault Refusal := loadFarInto a .ds (directOperand s addr) s

/-- LDS rd, [rb+disp16] (42_data_transfer.md R210). -/
def execLdsX (a b : Reg) (disp : Word) (s : State) : Host.Outcome State Fault Refusal := loadFarInto a .ds (indexedOperand s b disp) s

/-- LES rd, [addr16] (42_data_transfer.md R211). -/
def execLesA (a : Reg) (addr : Word) (s : State) : Host.Outcome State Fault Refusal := loadFarInto a .es (directOperand s addr) s

/-- LES rd, [rb+disp16] (42_data_transfer.md R212). -/
def execLesX (a b : Reg) (disp : Word) (s : State) : Host.Outcome State Fault Refusal := loadFarInto a .es (indexedOperand s b disp) s

end Sys2Proof.Machine
end

