-- ==== Sys2Proof/Machine/Dispatch.lean ====
section
/-! DEFINITION. One arm per instruction: the handler lookup of 40_step_fetch_dispatch.md R127. The state an arm gets has pc at
the next sequential instruction (10_state.md R25). -/

namespace Sys2Proof.Machine

def exec (i : Instr) (s : State) : Host.Outcome State Fault Refusal :=
  match i with
  | .hlt => Sys2Proof.Machine.execHlt s
  | .wait => Sys2Proof.Machine.execWait s
  | .int v => Sys2Proof.Machine.execInt v s
  | .iret => Sys2Proof.Machine.execIret s
  | .clc => Sys2Proof.Machine.execClc s
  | .stc => Sys2Proof.Machine.execStc s
  | .cli => Sys2Proof.Machine.execCli s
  | .sti => Sys2Proof.Machine.execSti s
  | .cld => Sys2Proof.Machine.execCld s
  | .std => Sys2Proof.Machine.execStd s
  | .movRR a b => Sys2Proof.Machine.execMovRR a b s
  | .movRI a imm => Sys2Proof.Machine.execMovRI a imm s
  | .movRA a addr => Sys2Proof.Machine.execMovRA a addr s
  | .movAR a addr => Sys2Proof.Machine.execMovAR a addr s
  | .movRX a b disp => Sys2Proof.Machine.execMovRX a b disp s
  | .movXR a b disp => Sys2Proof.Machine.execMovXR a b disp s
  | .movSR a b => Sys2Proof.Machine.execMovSR a b s
  | .movRS a b => Sys2Proof.Machine.execMovRS a b s
  | .lea a b disp => Sys2Proof.Machine.execLea a b disp s
  | .ldsA a addr => Sys2Proof.Machine.execLdsA a addr s
  | .ldsX a b disp => Sys2Proof.Machine.execLdsX a b disp s
  | .lesA a addr => Sys2Proof.Machine.execLesA a addr s
  | .lesX a b disp => Sys2Proof.Machine.execLesX a b disp s
  | .addRR a b => Sys2Proof.Machine.execAddRR a b s
  | .addRI a imm => Sys2Proof.Machine.execAddRI a imm s
  | .adcRR a b => Sys2Proof.Machine.execAdcRR a b s
  | .adcRI a imm => Sys2Proof.Machine.execAdcRI a imm s
  | .subRR a b => Sys2Proof.Machine.execSubRR a b s
  | .subRI a imm => Sys2Proof.Machine.execSubRI a imm s
  | .sbcRR a b => Sys2Proof.Machine.execSbcRR a b s
  | .sbcRI a imm => Sys2Proof.Machine.execSbcRI a imm s
  | .cmpRR a b => Sys2Proof.Machine.execCmpRR a b s
  | .cmpRI a imm => Sys2Proof.Machine.execCmpRI a imm s
  | .incR a => Sys2Proof.Machine.execIncR a s
  | .decR a => Sys2Proof.Machine.execDecR a s
  | .negR a => Sys2Proof.Machine.execNegR a s
  | .divR a => Sys2Proof.Machine.execDivR a s
  | .andRR a b => Sys2Proof.Machine.execAndRR a b s
  | .andRI a imm => Sys2Proof.Machine.execAndRI a imm s
  | .orRR a b => Sys2Proof.Machine.execOrRR a b s
  | .orRI a imm => Sys2Proof.Machine.execOrRI a imm s
  | .xorRR a b => Sys2Proof.Machine.execXorRR a b s
  | .xorRI a imm => Sys2Proof.Machine.execXorRI a imm s
  | .testRR a b => Sys2Proof.Machine.execTestRR a b s
  | .testRI a imm => Sys2Proof.Machine.execTestRI a imm s
  | .notR a => Sys2Proof.Machine.execNotR a s
  | .jmpA addr => Sys2Proof.Machine.execJmpA addr s
  | .jmpR a => Sys2Proof.Machine.execJmpR a s
  | .jmpS rel => Sys2Proof.Machine.execJmpS rel s
  | .callA addr => Sys2Proof.Machine.execCallA addr s
  | .callR a => Sys2Proof.Machine.execCallR a s
  | .callF off sg => Sys2Proof.Machine.execCallF off sg s
  | .ret => Sys2Proof.Machine.execRet s
  | .retI n => Sys2Proof.Machine.execRetI n s
  | .retF => Sys2Proof.Machine.execRetF s
  | .loop rel => Sys2Proof.Machine.execLoop rel s
  | .loopz rel => Sys2Proof.Machine.execLoopz rel s
  | .loopnz rel => Sys2Proof.Machine.execLoopnz rel s
  | .jo rel => Sys2Proof.Machine.execJo rel s
  | .jno rel => Sys2Proof.Machine.execJno rel s
  | .jc rel => Sys2Proof.Machine.execJc rel s
  | .jnc rel => Sys2Proof.Machine.execJnc rel s
  | .jz rel => Sys2Proof.Machine.execJz rel s
  | .jnz rel => Sys2Proof.Machine.execJnz rel s
  | .jbe rel => Sys2Proof.Machine.execJbe rel s
  | .ja rel => Sys2Proof.Machine.execJa rel s
  | .js rel => Sys2Proof.Machine.execJs rel s
  | .jns rel => Sys2Proof.Machine.execJns rel s
  | .jp rel => Sys2Proof.Machine.execJp rel s
  | .jnp rel => Sys2Proof.Machine.execJnp rel s
  | .jl rel => Sys2Proof.Machine.execJl rel s
  | .jge rel => Sys2Proof.Machine.execJge rel s
  | .jle rel => Sys2Proof.Machine.execJle rel s
  | .jg rel => Sys2Proof.Machine.execJg rel s
  | .push a => Sys2Proof.Machine.execPush a s
  | .pop a => Sys2Proof.Machine.execPop a s
  | .pusha => Sys2Proof.Machine.execPusha s
  | .popa => Sys2Proof.Machine.execPopa s
  | .enter size level => Sys2Proof.Machine.execEnter size level s
  | .leave => Sys2Proof.Machine.execLeave s
  | .movsb => Sys2Proof.Machine.execMovsb s
  | .movsw => Sys2Proof.Machine.execMovsw s
  | .stosb => Sys2Proof.Machine.execStosb s
  | .stosw => Sys2Proof.Machine.execStosw s
  | .lodsb => Sys2Proof.Machine.execLodsb s
  | .lodsw => Sys2Proof.Machine.execLodsw s
  | .cmpsb => Sys2Proof.Machine.execCmpsb s
  | .cmpsw => Sys2Proof.Machine.execCmpsw s
  | .rep next => Sys2Proof.Machine.execRep next s
  | .repz next => Sys2Proof.Machine.execRepz next s
  | .repnz next => Sys2Proof.Machine.execRepnz next s

end Sys2Proof.Machine
end

