-- ==== Sys2Proof/Machine/Open.lean ====
section
/-! DEFINITION. The values the spec leaves open: constants of Config with no body, applied to the state. Nothing can be proved
of what they are. -/

namespace Sys2Proof.Config

open Sys2Proof.Machine (State)

/-- FREE VALUE (log 3): what the cost CYC of an instruction in a state exceeds 1 by (00_scope.md R7, 70_reset_and_hazards.md R410). -/
opaque extraCycles (i : Instr) (s : State) : Nat

/-- FREE VALUE (log 4): what `last_address` holds after a step that fetched from a state (10_state.md R44, 93_implementation_defined.md U12). -/
opaque lastAddress (s : State) : BitVec 21

/-- FREE VALUE (log 4): what `last_data` holds after a step that fetched from a state (10_state.md R44, 93_implementation_defined.md U12). -/
opaque lastData (s : State) : Word

end Sys2Proof.Config
end

