-- ==== Sys2Proof/Machine/Fetch.lean ====
section
/-! DEFINITION. The parts of one step around the instruction (40_step_fetch_dispatch.md): the fetch unit, the acceptance of an
interrupt, the idle step and the counters. Step.lean puts them in order. -/

namespace Sys2Proof.Machine

/-! ## Fetch -/

/-- `Fetch8()`: the byte at CS:pc, then pc advances by one; when the read raises pc has not advanced (40_step_fetch_dispatch.md R125). -/
def fetch8 (s : State) : Except Fault (Byte × State) := do
  let b ← readByte s (phys (s.getSeg .cs) s.pc)
  .ok (b, s.setPc (s.pc + 1#16))

/-- `n` bytes fetched one after the other, each translated on its own (40_step_fetch_dispatch.md R126, R127). -/
def fetchBytes : Nat → State → Except Fault (List Byte × State)
  | 0, s => .ok ([], s)
  | n + 1, s => do
    let (b, s) ← fetch8 s
    let (bs, s) ← fetchBytes n s
    .ok (b :: bs, s)

/-- The introspection registers after an opcode fetch (40_step_fetch_dispatch.md R120, 10_state.md R44): `last_opcode` is the byte;
`last_address` and `last_data` are free values (log 4). -/
def State.noteFetch (s : State) (op : Byte) : State :=
  { s with lastOpcode := op, lastAddress := Config.lastAddress s, lastData := Config.lastData s }

/-- The opcode fetch, the lookup in OPMAP and the fetch of the operand bytes (40_step_fetch_dispatch.md R120, R123, R127). -/
def fetchInstr (s : State) : Except Fault (Instr × State) := do
  let (op, s) ← fetch8 s
  let s := s.noteFetch op
  match opmap op with
  | none => .error (raiseEngine (.unknownOpcode op) s)
  | some row => do
    let (bytes, s) ← fetchBytes row.operandBytes s
    .ok (row.build bytes, s)

/-- Bytes put where `fetchInstr` reads them, one after the other from CS:pc; an address outside memory takes none. -/
def placeBytes (s : State) (pc : Word) : List Byte → State
  | [] => s
  | b :: bs =>
    let pa := phys (s.getSeg .cs) pc
    placeBytes (if pa < Config.memSize then { s with mem := Memory.write s.mem pa b } else s) (pc + 1#16) bs

/-! ## Interrupts, idling, counting -/

/-- An enabled request is pending (40_step_fetch_dispatch.md R121, R122). -/
def State.interruptReady (s : State) : Bool := s.pending && s.flags.i

/-- Acceptance of an enabled request: `waiting` and the latch are cleared and the handler entered (40_step_fetch_dispatch.md R122). -/
def acceptInterrupt (s : State) : Except Fault State :=
  if s.interruptReady then dispatch { s with waiting := false, pending := false } s.pvec else .ok s

/-- The idle step: one cycle, nothing else (40_step_fetch_dispatch.md R121). -/
def State.idle (s : State) : State := { s with cycles := s.cycles + 1 }

/-- The cost CYC of an instruction in a state, at least 1 (00_scope.md R7, 70_reset_and_hazards.md R410, log 3). -/
def instructionCost (i : Instr) (s : State) : Nat := 1 + Config.extraCycles i s

/-- The counters after an instruction that ended normally (40_step_fetch_dispatch.md R124). -/
def State.counted (s : State) (cost : Nat) : State :=
  { s with cycles := s.cycles + cost, instructions := s.instructions + 1 }

/-- The outcome of an instruction with its counters accumulated; nothing is added when it ends in an engine error
(40_step_fetch_dispatch.md R124, 60_exceptions.md R350). -/
def account (cost : Nat) : Host.Outcome State Fault Refusal → Host.Outcome State Fault Refusal
  | .next s => .next (s.counted cost)
  | .fault f => .fault f
  | .refused r => .refused r

end Sys2Proof.Machine
end

