-- ==== Sys2Proof/Machine/Step.lean ====
section
/-! DEFINITION. One step of the machine (40_step_fetch_dispatch.md R120). -/

namespace Sys2Proof.Machine

/-- `step()` (40_step_fetch_dispatch.md R120): nothing when halted or errored (R129); the idle step when waiting without an
enabled request (R121); else an enabled request is accepted (R122), an instruction is fetched (R123) and executed, and the
counters are accumulated (R124). -/
def step (s : State) : Host.Outcome State Fault Refusal :=
  if s.halted || s.error then .next s
  else if s.waiting && !s.interruptReady then .next s.idle
  else
    match (acceptInterrupt s).bind fetchInstr with
    | .error f => .fault f
    | .ok (i, t) => account (instructionCost i t) (exec i t)

/-- The state with the instruction of a table word (bits above `nbits` zero, five bytes) at CS:pc, where a core that is not
halted, errored or waiting and accepts no interrupt fetches its next instruction. -/
def State.withFetchWord (s : State) (nbits w : Nat) : State := placeBytes s s.pc (tableBytes nbits w)

end Sys2Proof.Machine
end

