-- ==== Sys2Proof/Machine/HostOps.lean ====
section
/-! DEFINITION. The host operations that act between steps (70_reset_and_hazards.md R415, log 11). The raw register and flag
writes of the host are `State.setReg`, `State.setSeg`, `State.setPc` and `State.setFlags`. -/

namespace Sys2Proof.Machine

/-- `reset`: every item of 10_state.md R50 at its value, memory kept (70_reset_and_hazards.md R390). -/
def State.hostReset (s : State) : State := { State.reset with mem := s.mem }

/-- `initialize`: `reset` with every byte of memory 0x00 (70_reset_and_hazards.md R391). -/
def State.hostInitialize (_ : State) : State := State.reset

/-- `load-program(bytes, base)`: the bytes are copied to physical memory; a load past MEM_SIZE is refused as a whole and changes
nothing (20_memory.md R80). -/
def State.loadProgram (s : State) (bytes : List Byte) (base : Nat) : State :=
  if base + bytes.length ≤ Config.memSize then { s with mem := Memory.writeBytes s.mem base bytes } else s

/-- `request-interrupt(vector)`: the latch is set, the vector taken modulo NVEC = 256; an earlier request is overwritten
(60_exceptions.md R357). -/
def State.requestInterrupt (s : State) (vector : Nat) : State := { s with pending := true, pvec := BitVec.ofNat 8 vector }

end Sys2Proof.Machine
end

