-- ==== Sys2Proof/Machine/Run.lean ====
section
/-! DEFINITION. What `step` returns to the host, and `run(budget)` (40_step_fetch_dispatch.md R120, R128; logs 12 and 13). -/

namespace Sys2Proof.Machine

/-- The number `step` returns: 1 for an idle step, the cost of the instruction executed, 0 when halted or errored or when an engine
error ends the call (40_step_fetch_dispatch.md R120, 60_exceptions.md R350). It is what the step adds to `cycles`. -/
def stepReturn (s : State) : Nat :=
  match step s with
  | .next t => t.cycles - s.cycles
  | .fault _ => 0
  | .refused _ => 0

/-- The state after a step, that of the fault when an engine error ends it (60_exceptions.md R350). -/
def stateAfterStep (s : State) : State :=
  match step s with
  | .next t => t
  | .fault f => f.after
  | .refused _ => s

/-- The loop of `run` with `total` cycles already spent and at most `fuel` steps to make: it ends when halted or errored or when
the total reaches the budget, tested before each step (40_step_fetch_dispatch.md R128). -/
def runLoop (budget : Nat) : Nat → Nat → State → Nat × State
  | 0, total, s => (total, s)
  | fuel + 1, total, s =>
    if s.halted || s.error then (total, s)
    else if budget ≤ total then (total, s)
    else runLoop budget fuel (total + stepReturn s) (stateAfterStep s)

/-- `run(budget)`: the total returned and the state left (40_step_fetch_dispatch.md R128). A step of a core that is not halted
returns at least 1 or leaves it errored, so `budget + 1` steps are enough. -/
def runBudget (budget : Nat) (s : State) : Nat × State := runLoop budget (budget + 1) 0 s

end Sys2Proof.Machine
end

