-- ==== Sys2Proof/WellFormed.lean ====
section
/-! DEFINITION. Which instruction terms are well formed. Every operand value of every format is legal (30_encoding.md R105);
the one illegal combination is a repeat byte followed by a byte that is no string opcode (R100, 45_string_repeat.md R314). -/

namespace Sys2Proof

/-- The eight string opcodes are the bytes 0x70 to 0x77 (30_encoding.md R100). -/
def isStringOpcode (b : Byte) : Bool := decide (0x70 ≤ b.toNat ∧ b.toNat ≤ 0x77)

/-- Well-formedness: a repeat instruction is followed by a string opcode; nothing else is restricted (30_encoding.md R105). -/
def Instr.wellFormed : Instr → Bool
  | .rep b | .repz b | .repnz b => isStringOpcode b
  | _ => true

end Sys2Proof
end

