-- ==== Sys2Proof/Safety.lean ====
section
/-! DEFINITION. What counts as a safe state and a safe step, and the terms the claims are stated in: what an instruction may
change, which accesses are in range, what entering a handler does. -/

namespace Sys2Proof.Machine

/-! ## Reading a state -/

/-- The eight flags by name (10_state.md R33). -/
inductive Flag
  | c | p | z | s | t | i | d | o
deriving DecidableEq, Repr

/-- A flag by name. -/
def Flags.get (f : Flags) : Flag → Bool
  | .c => f.c
  | .p => f.p
  | .z => f.z
  | .s => f.s
  | .t => f.t
  | .i => f.i
  | .d => f.d
  | .o => f.o

/-- The word in memory at a physical address, low byte first (20_memory.md R66). -/
def State.wordAt (s : State) (pa : Nat) : Word := wordOfBytes (s.byteAt pa) (s.byteAt (pa + 1))

/-- The offset of the word `n` pushes below SP. -/
def pushOffset (s : State) (n : Nat) : Word := s.getReg .sp - BitVec.ofNat 16 (2 * n)

/-- The offset of the word `n` pops above SP. -/
def popOffset (s : State) (n : Nat) : Word := s.getReg .sp + BitVec.ofNat 16 (2 * n)

/-- The physical address of an offset in the stack segment. -/
def stackAddress (s : State) (off : Word) : Nat := phys (s.getSeg .ss) off

/-- The kind and info of a fault (60_exceptions.md R350). -/
def Fault.kind : Fault → EngineError
  | .unknownOpcode b _ => .unknownOpcode b
  | .addressOutOfRange pa _ => .addressOutOfRange pa

/-! ## Ranges -/

/-- Both bytes of a word are in memory (20_memory.md R61, R64). -/
def wordInRange (pa : Nat) : Prop := pa + 1 < Config.memSize

/-- Every byte a word at any offset of a segment can touch is in memory. -/
def segmentInRange (seg : Word) : Prop := wordInRange (phys seg 0xFFFF#16)

/-- `n` words can be pushed. -/
def roomToPush (s : State) (n : Nat) : Prop := ∀ k, k < n → wordInRange (stackAddress s (pushOffset s (k + 1)))

/-- `n` words can be popped. -/
def wordsToPop (s : State) (n : Nat) : Prop := ∀ k, k < n → wordInRange (stackAddress s (popOffset s k))

/-- An address is one of the two bytes of a word. -/
def inWord (pa a : Nat) : Prop := a = pa ∨ a = pa + 1

/-- An address is in one of the `n` words below SP that `n` pushes write. -/
def inPushed (s : State) (n a : Nat) : Prop := ∃ k, k < n ∧ inWord (stackAddress s (pushOffset s (k + 1))) a

/-- The two bytes of a word in the order they are accessed, low byte first (20_memory.md R64, R65). -/
def wordBytes (pa : Nat) : List Nat := [pa, pa + 1]

/-- The bytes `n` pushes write, in order (44_stack_frame.md R280). -/
def pushBytes (s : State) (n : Nat) : List Nat :=
  (List.range n).flatMap fun k => wordBytes (stackAddress s (pushOffset s (k + 1)))

/-- The bytes `n` pops read, in order (44_stack_frame.md R281). -/
def popBytes (s : State) (n : Nat) : List Nat := (List.range n).flatMap fun k => wordBytes (stackAddress s (popOffset s k))

/-- The bytes the entry to the handler of a vector accesses, in order: the three pushes and the vector's entry
(60_exceptions.md R360, R361). -/
def entryBytes (s : State) (v : Byte) : List Nat :=
  pushBytes s 3 ++ wordBytes (Config.ivtBase + 4 * v.toNat) ++ wordBytes (Config.ivtBase + 4 * v.toNat + 2)

/-- The bytes of a far pointer in DS, in order; the offset of its second word wraps (42_data_transfer.md R209). -/
def farPointerBytes (s : State) (off : Word) : List Nat :=
  wordBytes (phys (s.getSeg .ds) off) ++ wordBytes (phys (s.getSeg .ds) (off + 2#16))

/-- The bytes ENTER accesses at a level taken modulo 32, in order: BP is pushed, each outer frame pointer is read and pushed, then
the new frame pointer is pushed (44_stack_frame.md R286). -/
def enterBytes (s : State) : Nat → List Nat
  | 0 => pushBytes s 1
  | n + 1 =>
    pushBytes s 1 ++
      ((List.range n).flatMap fun k =>
        wordBytes (stackAddress s (s.getReg .bp - BitVec.ofNat 16 (2 * (k + 1)))) ++
          wordBytes (stackAddress s (pushOffset s (k + 2)))) ++
      wordBytes (stackAddress s (pushOffset s (n + 2)))

/-- The bytes of data an instruction other than a repeat accesses, in order, when every one of them is in memory
(60_exceptions.md R352). A repeat accesses those of its single instruction turn by turn and is stated apart. -/
def dataAccesses (i : Instr) (s : State) : List Nat :=
  match i with
  | .movRA _ addr | .movAR _ addr => wordBytes (phys (s.getSeg .ds) addr)
  | .movRX _ b disp | .movXR _ b disp => wordBytes (phys (s.getSeg .ds) (s.getReg b + disp))
  | .ldsA _ addr | .lesA _ addr => farPointerBytes s addr
  | .ldsX _ b disp | .lesX _ b disp => farPointerBytes s (s.getReg b + disp)
  | .push _ | .callA _ | .callR _ => pushBytes s 1
  | .callF .. => pushBytes s 2
  | .pusha => pushBytes s 8
  | .enter _ level => enterBytes s (level.toNat % 32)
  | .int v => entryBytes s v
  | .divR a => if (s.getReg a).toNat ≤ (s.getReg .dx).toNat then entryBytes s 0#8 else []
  | .pop _ | .ret | .retI _ => popBytes s 1
  | .retF => popBytes s 2
  | .iret => popBytes s 3
  | .popa => popBytes s 8
  | .leave => wordBytes (stackAddress s (s.getReg .bp))
  | .movsb | .cmpsb => [phys (s.getSeg .ds) (s.getReg .si), phys (s.getSeg .es) (s.getReg .di)]
  | .movsw | .cmpsw => wordBytes (phys (s.getSeg .ds) (s.getReg .si)) ++ wordBytes (phys (s.getSeg .es) (s.getReg .di))
  | .stosb => [phys (s.getSeg .es) (s.getReg .di)]
  | .stosw => wordBytes (phys (s.getSeg .es) (s.getReg .di))
  | .lodsb => [phys (s.getSeg .ds) (s.getReg .si)]
  | .lodsw => wordBytes (phys (s.getSeg .ds) (s.getReg .si))
  | .hlt | .wait | .clc | .stc | .cli | .sti | .cld | .std | .movRR .. | .movRI .. | .movSR .. | .movRS .. | .lea ..
  | .addRR .. | .addRI .. | .adcRR .. | .adcRI .. | .subRR .. | .subRI .. | .sbcRR .. | .sbcRI .. | .cmpRR ..
  | .cmpRI .. | .incR .. | .decR .. | .negR .. | .andRR .. | .andRI .. | .orRR .. | .orRI .. | .xorRR .. | .xorRI ..
  | .testRR .. | .testRI .. | .notR .. | .jmpA .. | .jmpR .. | .jmpS .. | .loop .. | .loopz .. | .loopnz .. | .jo ..
  | .jno .. | .jc .. | .jnc .. | .jz .. | .jnz .. | .jbe .. | .ja .. | .js .. | .jns .. | .jp .. | .jnp .. | .jl ..
  | .jge .. | .jle .. | .jg .. | .rep .. | .repz .. | .repnz .. => []

/-- The first of the bytes accessed that is at or past MEM_SIZE (20_memory.md R61). -/
def firstOutside (accesses : List Nat) : Option Nat := accesses.find? fun a => decide (Config.memSize ≤ a)

/-- An outcome is the engine error AddressOutOfRange of an address (60_exceptions.md R350, R352). -/
def raisesOutOfRange (o : Host.Outcome State Fault Refusal) (pa : Nat) : Prop :=
  ∃ t, o = .fault (.addressOutOfRange pa t) ∧ t.error = true ∧ t.halted = true

/-- No address: what a form that stores nothing stores to. -/
def noBytes (_ : Nat) : Prop := False

/-! ## Frames -/

/-- What an instruction leaves unchanged: every general register, segment register, flag and byte of memory but those named, and
the latch, the run state, the counters and the introspection registers. The pc is stated apart. The `introspection` clause is the
model's and not the spec's: DESIGN CHOICE (log 4) for `last_address` and `last_data`, whose update points 10_state.md R44 leaves open
and the model puts at the opcode fetch alone; DEDUCED (log 8) for `last_opcode` after a repeated string instruction. -/
structure Keeps (s t : State) (regs : List Reg) (segs : List SReg) (flags : List Flag) (bytes : Nat → Prop) : Prop where
  regs : ∀ r, r ∉ regs → t.getReg r = s.getReg r
  segs : ∀ j, j ∉ segs → t.getSeg j = s.getSeg j
  flags : ∀ f, f ∉ flags → t.flags.get f = s.flags.get f
  bytes : ∀ a, ¬ bytes a → t.byteAt a = s.byteAt a
  latch : t.pending = s.pending ∧ t.pvec = s.pvec
  runState : t.halted = s.halted ∧ t.waiting = s.waiting ∧ t.error = s.error ∧ t.errmsg = s.errmsg
  counters : t.cycles = s.cycles ∧ t.instructions = s.instructions
  introspection : t.lastOpcode = s.lastOpcode ∧ t.lastAddress = s.lastAddress ∧ t.lastData = s.lastData

/-- The flags an arithmetic or logic instruction derives (10_state.md R36). -/
def derivedFlags : List Flag := [.c, .p, .z, .s, .o]

/-- Every flag. -/
def allFlags : List Flag := [.c, .p, .z, .s, .t, .i, .d, .o]

/-! ## Flag derivation, in arithmetic terms -/

/-- The number of one bits of a byte is even (41_arithmetic_logic.md R150). -/
def evenOnes (b : Byte) : Prop := (List.range 8).countP (fun k => b.getLsbD k) % 2 = 0

/-- Z, S and P describe a result (41_arithmetic_logic.md R150). -/
def describesResult (f : Flags) (r : Word) : Prop :=
  (f.z = true ↔ r = 0#16) ∧ (f.s = true ↔ 0x8000 ≤ r.toNat) ∧ (f.p = true ↔ evenOnes (r.setWidth 8))

/-- An integer is in the signed 16-bit range. -/
def fitsSigned (n : Int) : Prop := -32768 ≤ n ∧ n ≤ 32767

/-- Bit 15 of a 16-bit quantity given as a number. -/
def topBit (n : Nat) : Bool := n.testBit 15

/-! ## Which instruction may write what -/

/-- The flags the "Flags" line of an instruction's rule lists as written (10_state.md R35, R36). INT and DIV clear I and T through
`Dispatch`; a repeated compare writes what the compare writes. -/
def flagsWritten : Instr → List Flag
  | .addRR .. | .addRI .. | .adcRR .. | .adcRI .. | .subRR .. | .subRI .. | .sbcRR .. | .sbcRI .. => derivedFlags
  | .cmpRR .. | .cmpRI .. | .negR .. => derivedFlags
  | .incR .. | .decR .. => [.p, .z, .s, .o]
  | .andRR .. | .andRI .. | .orRR .. | .orRI .. | .xorRR .. | .xorRI .. | .testRR .. | .testRI .. => derivedFlags
  | .clc | .stc => [.c]
  | .cli | .sti => [.i]
  | .cld | .std => [.d]
  | .int _ | .divR _ => [.i, .t]
  | .iret => allFlags
  | .cmpsb | .cmpsw => derivedFlags
  | .rep b | .repz b | .repnz b => if b = 0x76#8 ∨ b = 0x77#8 then derivedFlags else []
  | .hlt | .wait | .movRR .. | .movRI .. | .movRA .. | .movAR .. | .movRX .. | .movXR .. | .movSR .. | .movRS ..
  | .lea .. | .ldsA .. | .ldsX .. | .lesA .. | .lesX .. | .notR .. | .jmpA .. | .jmpR .. | .jmpS .. | .callA ..
  | .callR .. | .callF .. | .ret | .retI .. | .retF | .loop .. | .loopz .. | .loopnz .. | .jo .. | .jno .. | .jc ..
  | .jnc .. | .jz .. | .jnz .. | .jbe .. | .ja .. | .js .. | .jns .. | .jp .. | .jnp .. | .jl .. | .jge .. | .jle ..
  | .jg .. | .push .. | .pop .. | .pusha | .popa | .enter .. | .leave | .movsb | .movsw | .stosb | .stosw | .lodsb
  | .lodsw => []

/-- The segment registers an instruction writes (10_state.md R32). -/
def segsWritten : Instr → List SReg
  | .movSR a _ => [a]
  | .ldsA .. | .ldsX .. => [.ds]
  | .lesA .. | .lesX .. => [.es]
  | .callF .. | .retF | .iret | .int _ | .divR _ => [.cs]
  | .hlt | .wait | .clc | .stc | .cli | .sti | .cld | .std | .movRR .. | .movRI .. | .movRA .. | .movAR .. | .movRX ..
  | .movXR .. | .movRS .. | .lea .. | .addRR .. | .addRI .. | .adcRR .. | .adcRI .. | .subRR .. | .subRI .. | .sbcRR ..
  | .sbcRI .. | .cmpRR .. | .cmpRI .. | .incR .. | .decR .. | .negR .. | .andRR .. | .andRI .. | .orRR .. | .orRI ..
  | .xorRR .. | .xorRI .. | .testRR .. | .testRI .. | .notR .. | .jmpA .. | .jmpR .. | .jmpS .. | .callA .. | .callR ..
  | .ret | .retI .. | .loop .. | .loopz .. | .loopnz .. | .jo .. | .jno .. | .jc .. | .jnc .. | .jz .. | .jnz ..
  | .jbe .. | .ja .. | .js .. | .jns .. | .jp .. | .jnp .. | .jl .. | .jge .. | .jle .. | .jg .. | .push .. | .pop ..
  | .pusha | .popa | .enter .. | .leave | .movsb | .movsw | .stosb | .stosw | .lodsb | .lodsw | .cmpsb | .cmpsw
  | .rep .. | .repz .. | .repnz .. => []

/-- The store-class instructions (10_state.md R46): the two MOV stores, STOS, MOVS and everything that pushes. -/
def storesMemory : Instr → Bool
  | .movAR .. | .movXR .. => true
  | .stosb | .stosw | .movsb | .movsw => true
  | .rep b | .repz b | .repnz b => b == 0x70#8 || b == 0x71#8 || b == 0x72#8 || b == 0x73#8
  | .push _ | .pusha | .callA _ | .callR _ | .callF .. | .enter .. | .int _ | .divR _ => true
  | .hlt | .wait | .iret | .clc | .stc | .cli | .sti | .cld | .std | .movRR .. | .movRI .. | .movRA .. | .movRX ..
  | .movSR .. | .movRS .. | .lea .. | .ldsA .. | .ldsX .. | .lesA .. | .lesX .. | .addRR .. | .addRI .. | .adcRR ..
  | .adcRI .. | .subRR .. | .subRI .. | .sbcRR .. | .sbcRI .. | .cmpRR .. | .cmpRI .. | .incR .. | .decR .. | .negR ..
  | .andRR .. | .andRI .. | .orRR .. | .orRI .. | .xorRR .. | .xorRI .. | .testRR .. | .testRI .. | .notR .. | .jmpA ..
  | .jmpR .. | .jmpS .. | .ret | .retI .. | .retF | .loop .. | .loopz .. | .loopnz .. | .jo .. | .jno .. | .jc ..
  | .jnc .. | .jz .. | .jnz .. | .jbe .. | .ja .. | .js .. | .jns .. | .jp .. | .jnp .. | .jl .. | .jge .. | .jle ..
  | .jg .. | .pop .. | .popa | .leave | .lodsb | .lodsw | .cmpsb | .cmpsw => false

/-- The opcode bytes that name no instruction (30_encoding.md R104). -/
def unassigned (b : Byte) : Prop :=
  b.toNat = 0x00 ∨ (0x0B ≤ b.toNat ∧ b.toNat ≤ 0x0F) ∨ (0x1D ≤ b.toNat ∧ b.toNat ≤ 0x1F) ∨
    (0x2E ≤ b.toNat ∧ b.toNat ≤ 0x2F) ∨ (0x39 ≤ b.toNat ∧ b.toNat ≤ 0x3F) ∨ (0x4C ≤ b.toNat ∧ b.toNat ≤ 0x4F) ∨
    (0x66 ≤ b.toNat ∧ b.toNat ≤ 0x6F) ∨ 0x7B ≤ b.toNat

/-! ## Control transfers and exceptions -/

/-- The pc is the signed displacement past where it was, modulo 2^16 (43_control_flow.md R231). -/
def movesBy (s t : State) (d : Byte) : Prop := (t.pc.toNat : Int) = ((s.pc.toNat : Int) + d.toInt) % 65536

/-- A state is another after the entry to the handler of a vector (60_exceptions.md R360): FLAGS, CS and pc are on the stack in
that order, I and T are clear, pc and CS hold the words of the vector's entry, and nothing else changed. -/
def entersHandler (s t : State) (v : Byte) : Prop :=
  t.wordAt (stackAddress s (pushOffset s 1)) = s.flags.pack ∧
  t.wordAt (stackAddress s (pushOffset s 2)) = s.getSeg .cs ∧
  t.wordAt (stackAddress s (pushOffset s 3)) = s.pc ∧
  t.getReg .sp = pushOffset s 3 ∧
  t.flags.i = false ∧ t.flags.t = false ∧
  t.pc = t.wordAt (Config.ivtBase + 4 * v.toNat) ∧
  t.getSeg .cs = t.wordAt (Config.ivtBase + 4 * v.toNat + 2) ∧
  Keeps s t [.sp] [.cs] [.i, .t] (inPushed s 3)

/-- The core fetches at CS:pc in its next step (40_step_fetch_dispatch.md R120). -/
def readyToFetch (s : State) : Prop :=
  s.halted = false ∧ s.error = false ∧ s.waiting = false ∧ ¬ (s.pending = true ∧ s.flags.i = true)

/-- The bytes at CS:pc are these, each at its own translated address in memory (40_step_fetch_dispatch.md R126). -/
def bytesAtPc (s : State) (bytes : List Byte) : Prop :=
  ∀ k b, bytes[k]? = some b →
    phys (s.getSeg .cs) (s.pc + BitVec.ofNat 16 k) < Config.memSize ∧ s.byteAt (phys (s.getSeg .cs) (s.pc + BitVec.ofNat 16 k)) = b

/-! ## Strings -/

/-- A string pointer after `k` advances of `n` bytes in the direction of D (45_string_repeat.md R298). -/
def stringOffset (s : State) (start n : Word) (k : Nat) : Word :=
  if s.flags.d then start - BitVec.ofNat 16 k * n else start + BitVec.ofNat 16 k * n

/-- The size of the operand of a string opcode: odd opcodes are the word forms (30_encoding.md R101). -/
def stringSize (b : Byte) : Word := if b.getLsbD 0 then 2#16 else 1#16

/-- The addresses a repeated MOVS or STOS stores to: those of its elements in ES from DI on. -/
def repeatStores (s : State) (b : Byte) (a : Nat) : Prop :=
  (b = 0x70#8 ∨ b = 0x71#8 ∨ b = 0x72#8 ∨ b = 0x73#8) ∧
  ∃ k j, k < (s.getReg .cx).toNat ∧ j < (stringSize b).toNat ∧
    a = phys (s.getSeg .es) (stringOffset s (s.getReg .di) (stringSize b) k) + j

/-! ## Safe states and steps -/

/-- The invariant of the machine: memory keeps its canonical form, the message is there exactly when an engine error happened
(10_state.md R42), and an engine error halts the core (60_exceptions.md R350). -/
def Inv (s : State) : Prop :=
  Memory.wf s.mem ∧ (s.error = true ↔ s.errmsg ≠ none) ∧ (s.error = true → s.halted = true)

/-- A step is safe when it raises no engine error (60_exceptions.md R350). -/
def SafeStep (s : State) : Prop := ∃ t, step s = .next t

/-- A run of `n` steps is safe when no step of it raises an engine error. -/
def SafeRun (n : Nat) (s : State) : Prop := ∃ t : State, Sys2Proof.core.run n s = .next t

end Sys2Proof.Machine
end

