-- ==== Sys2Proof/Certificates/Slice0/Obligations.lean ====
section
/-! DEFINITION. The statements for the provers. Each formalises rules of spec/ named in its docstring; a completion statement gives
the next state of `exec` from hypotheses on the state and the operands alone. -/

open Sys2Proof Sys2Proof.Machine

/-! ## Decoding -/

/-- 30_encoding.md R91, R92, R101: a few words written out from the spec's encodings decode to the instructions they stand for. -/
def Obligations.SampleWordsDecode : Prop :=
  decode [0x03#8, 0x21#8] = .ok (.int 0x21#8, []) ∧
  decode [0x16#8, 0x52#8] = .ok (.movSR .ds .cx, []) ∧
  decode [0x15#8, 0x21#8, 0x02#8, 0x00#8] = .ok (.movXR .cx .bx 0x0002#16, []) ∧
  decode [0x30#8, 0x89#8] = .ok (.andRR .ax .bx, []) ∧
  decode [0x21#8, 0x00#8, 0x01#8, 0x00#8] = .ok (.addRI .ax 0x0001#16, []) ∧
  decode [0x45#8, 0x10#8, 0x00#8, 0x00#8, 0x20#8] = .ok (.callF 0x0010#16 0x2000#16, []) ∧
  decode [0x64#8, 0x04#8, 0x00#8, 0x03#8] = .ok (.enter 0x0004#16 0x03#8, []) ∧
  decode [0x79#8, 0x76#8, 0x01#8] = .ok (.repz 0x76#8, [0x01#8])

/-- 30_encoding.md R91 to R97, R101: decoding the bytes of any instruction, whatever follows them, gives it back. -/
def Obligations.DecodeInvertsEncode : Prop :=
  ∀ (i : Instr) (rest : List Byte), decode (encode i ++ rest) = .ok (i, rest)

/-- 30_encoding.md R90: an instruction takes 1 to 5 bytes, as many as its opcode byte fixes, and the decoder leaves the rest. -/
def Obligations.DecodedLength : Prop :=
  ∀ (bytes : List Byte) (i : Instr) (rest : List Byte), decode bytes = .ok (i, rest) →
    bytes.head? = (encode i).head? ∧ 1 ≤ (encode i).length ∧ (encode i).length ≤ 5 ∧
    (encode i).length ≤ bytes.length ∧ rest = bytes.drop (encode i).length

/-- 30_encoding.md R104: the decoder rejects an opcode byte as unknown exactly when it is one of the 165 unassigned ones. -/
def Obligations.UnassignedBytesRejected : Prop :=
  ∀ (b : Byte) (rest : List Byte), decode (b :: rest) = .error (.unknownOpcode b) ↔ unassigned b

/-! ## The step -/

/-- 40_step_fetch_dispatch.md R120, R123 to R127: when the bytes at CS:pc decode to an instruction, the step is its `exec` at the
state with pc past it and the introspection registers set, with the counters accumulated. -/
def Obligations.StepRunsDecoded : Prop :=
  ∀ (s : State) (bytes : List Byte) (i : Instr),
    readyToFetch s → decode bytes = .ok (i, []) →
    (∀ k b, bytes[k]? = some b →
      phys (s.getSeg .cs) (s.pc + BitVec.ofNat 16 k) < Config.memSize ∧
      s.byteAt (phys (s.getSeg .cs) (s.pc + BitVec.ofNat 16 k)) = b) →
    ∃ (op : Byte) (a : BitVec 21) (d : Word) (t : State), bytes.head? = some op ∧
      t = { s with pc := s.pc + BitVec.ofNat 16 bytes.length, lastOpcode := op, lastAddress := a, lastData := d } ∧
      (∀ u, exec i t = .next u → step s =
        .next { u with cycles := u.cycles + instructionCost i t, instructions := u.instructions + 1 }) ∧
      (∀ f, exec i t = .fault f → step s = .fault f)

/-- 40_step_fetch_dispatch.md R121: the idle step adds one cycle and changes nothing else, also when a request is pending with I clear. -/
def Obligations.IdleStep : Prop :=
  ∀ s : State, s.halted = false → s.error = false → s.waiting = true → ¬ (s.pending = true ∧ s.flags.i = true) →
    step s = .next { s with cycles := s.cycles + 1 } ∧ stepReturn s = 1

/-- 40_step_fetch_dispatch.md R129: a halted or errored core's step changes nothing and returns 0, whatever is pending. -/
def Obligations.HaltedStep : Prop :=
  ∀ s : State, s.halted = true ∨ s.error = true → step s = .next s ∧ stepReturn s = 0

/-- 40_step_fetch_dispatch.md R122, 60_exceptions.md R358: an enabled pending request is accepted whether or not the core waits: the
latch and `waiting` are cleared, the handler of the latched vector is entered, and the same step goes on with the opcode fetch there.
Room on the stack is the only premise on memory because the vector table lies in memory at the model's IVT_BASE and MEM_SIZE (log 1,
DESIGN CHOICE); at others the read of the entry can raise (00_scope.md R7, 60_exceptions.md R362). -/
def Obligations.InterruptAcceptance : Prop :=
  ∀ s : State, s.halted = false → s.error = false → s.pending = true → s.flags.i = true → roomToPush s 3 →
    ∃ d : State, entersHandler { s with waiting := false, pending := false } d s.pvec ∧ readyToFetch d ∧ step s = step d

/-- 60_exceptions.md R350, 40_step_fetch_dispatch.md R129: a step that raises an engine error leaves `error`, `halted` and the message,
adds nothing to the counters and returns 0, and every later step is a no-op. -/
def Obligations.EngineErrorStopsEngine : Prop :=
  ∀ (s : State) (f : Fault), step s = .fault f →
    f.after.error = true ∧ f.after.halted = true ∧ f.after.errmsg = some f.kind ∧
    f.after.cycles = s.cycles ∧ f.after.instructions = s.instructions ∧ stepReturn s = 0 ∧
    step f.after = .next f.after

/-- 30_encoding.md R104, 45_string_repeat.md R314, 60_exceptions.md R351: an unassigned opcode byte at CS:pc ends the step with
UnknownOpcode of that byte, and so does `exec` of a repeat byte followed by a byte outside 0x70 to 0x77. -/
def Obligations.UnknownOpcodeFaults : Prop :=
  (∀ (s : State) (b : Byte), readyToFetch s → phys (s.getSeg .cs) s.pc < Config.memSize →
    s.byteAt (phys (s.getSeg .cs) s.pc) = b → unassigned b →
    ∃ t, step s = .fault (.unknownOpcode b t) ∧ t.error = true ∧ t.halted = true) ∧
  (∀ (s : State) (b : Byte), ¬ (0x70 ≤ b.toNat ∧ b.toNat ≤ 0x77) → ∀ i ∈ [Instr.rep b, .repz b, .repnz b],
    ∃ t, exec i s = .fault (.unknownOpcode b t) ∧ t.error = true ∧ t.halted = true)

/-- 20_memory.md R61 to R65, 60_exceptions.md R352, R362: an access at or past MEM_SIZE raises AddressOutOfRange of its address. The
first byte outside memory among those an instruction accesses ends it so, and an instruction other than a repeat none of whose bytes is
outside completes; a byte of the instruction stream that is still needed ends the step so, the opcode byte or an operand byte; and so
does a byte the acceptance of an interrupt accesses. MEM_SIZE and IVT_BASE are at the model's values (log 1, DESIGN CHOICE). -/
def Obligations.OutOfRangeFaults : Prop :=
  (∀ (i : Instr) (s : State) (pa : Nat), firstOutside (dataAccesses i s) = some pa → raisesOutOfRange (exec i s) pa) ∧
  (∀ (i : Instr) (s : State), (∀ b, i ≠ .rep b ∧ i ≠ .repz b ∧ i ≠ .repnz b) → firstOutside (dataAccesses i s) = none →
    ∃ t, exec i s = .next t) ∧
  (∀ (s : State) (bytes : List Byte), readyToFetch s → bytesAtPc s bytes →
    (decode bytes = .error .empty ∨ ∃ op, decode bytes = .error (.truncated op)) →
    Config.memSize ≤ phys (s.getSeg .cs) (s.pc + BitVec.ofNat 16 bytes.length) →
    raisesOutOfRange (step s) (phys (s.getSeg .cs) (s.pc + BitVec.ofNat 16 bytes.length))) ∧
  (∀ (s : State) (pa : Nat), s.halted = false → s.error = false → s.pending = true → s.flags.i = true →
    firstOutside (entryBytes s s.pvec) = some pa → raisesOutOfRange (step s) pa)

/-- The invariant is kept by every step: memory keeps its canonical form, the message is there exactly when an engine error happened
(10_state.md R42), an engine error halts (60_exceptions.md R350). It is kept by a fault's state too. -/
def Obligations.StepKeepsInvariant : Prop :=
  ∀ s : State, Machine.Inv s → (∀ t, step s = .next t → Machine.Inv t) ∧ (∀ f, step s = .fault f → Machine.Inv f.after)

/-- The invariant holds at reset, with no engine error and an empty message (10_state.md R50, R51). That `State.reset` is the state
after `initialize`, with memory in the model's canonical form, is the model's reading (log 5, DEDUCED). -/
def Obligations.ResetMeetsInvariant : Prop :=
  Machine.Inv State.reset ∧ State.reset.error = false ∧ State.reset.errmsg = none ∧ State.reset.halted = false

/-- 10_state.md R50, R51, 70_reset_and_hazards.md R390, R391: what `reset` leaves in every register with memory kept, and that
`initialize` leaves the same with every byte 0x00. The numbers are the spec's decision D8 (log 1). -/
def Obligations.ResetValues : Prop :=
  ∀ s : State,
    (∀ r, s.hostReset.getReg r = if r = .sp then 0xFFFE#16 else 0x0000#16) ∧
    (∀ j, s.hostReset.getSeg j = if j = .ss then 0x1000#16 else 0x0000#16) ∧
    s.hostReset.pc = 0x0100#16 ∧ s.hostReset.flags.pack = 0x0000#16 ∧
    s.hostReset.halted = false ∧ s.hostReset.error = false ∧ s.hostReset.errmsg = none ∧ s.hostReset.waiting = false ∧
    s.hostReset.pending = false ∧ s.hostReset.pvec = 0#8 ∧ s.hostReset.cycles = 0 ∧ s.hostReset.instructions = 0 ∧
    s.hostReset.lastOpcode = 0#8 ∧ s.hostReset.lastAddress = 0#21 ∧ s.hostReset.lastData = 0#16 ∧
    (∀ a, s.hostReset.byteAt a = s.byteAt a) ∧
    s.hostInitialize = { s.hostReset with mem := s.hostInitialize.mem } ∧ (∀ a, s.hostInitialize.byteAt a = 0x00#8)

/-- The host's acts between steps. 20_memory.md R80: the bytes of a load that fits are copied verbatim and nothing else changes; a load
that would run past MEM_SIZE is refused as a whole (D35). 60_exceptions.md R357: a request sets the latch in any state, its vector taken
modulo NVEC = 256 (log 1), and a later request overwrites an earlier one (D20); nothing else changes. -/
def Obligations.LoadProgramCopies : Prop :=
  (∀ (s : State) (v : Nat),
    (s.requestInterrupt v).pending = true ∧ (s.requestInterrupt v).pvec.toNat = v % 256 ∧
    (∀ w, (s.requestInterrupt w).requestInterrupt v = s.requestInterrupt v) ∧
    s.requestInterrupt v = { s with pending := (s.requestInterrupt v).pending, pvec := (s.requestInterrupt v).pvec }) ∧
  ∀ (s : State) (bytes : List Byte) (base : Nat),
    (base + bytes.length ≤ Config.memSize →
      (∀ k b, bytes[k]? = some b → (s.loadProgram bytes base).byteAt (base + k) = b) ∧
      (∀ a, a < base ∨ base + bytes.length ≤ a → (s.loadProgram bytes base).byteAt a = s.byteAt a) ∧
      s.loadProgram bytes base = { s with mem := (s.loadProgram bytes base).mem }) ∧
    (Config.memSize < base + bytes.length → s.loadProgram bytes base = s)

/-! ## Rules over all instructions -/

/-- No instruction is refused: every row of the opcode map has a meaning (00_scope.md R6, 40_step_fetch_dispatch.md R127). -/
def Obligations.ExecNeverRefuses : Prop := ∀ (i : Instr) (s : State) (r : Refusal), exec i s ≠ .refused r

/-- 10_state.md R46: an instruction that is not store-class changes no byte of memory. -/
def Obligations.OnlyStoresChangeMemory : Prop :=
  ∀ (i : Instr) (s t : State), exec i s = .next t → storesMemory i = false → ∀ a, t.byteAt a = s.byteAt a

/-- 10_state.md R32: a segment register is changed only by the instructions listed as its writers. -/
def Obligations.SegmentWriters : Prop :=
  ∀ (i : Instr) (s t : State) (j : SReg), exec i s = .next t → j ∉ segsWritten i → t.getSeg j = s.getSeg j

/-- 10_state.md R35: an instruction leaves every flag its rule does not list unchanged. -/
def Obligations.FlagWriters : Prop :=
  ∀ (i : Instr) (s t : State) (f : Flag), exec i s = .next t → f ∉ flagsWritten i → t.flags.get f = s.flags.get f

/-- 10_state.md R40, R41, R43: no instruction writes the latch, the error state or the counters; only HLT writes `halted` and only WAIT
writes `waiting`. That no instruction writes `last_address` and `last_data` is the model's choice of their one update point, the opcode
fetch (log 4, DESIGN CHOICE; R44 leaves it open); that a repeated string instruction does not write `last_opcode` is log 8 (DEDUCED). -/
def Obligations.RunStateWriters : Prop :=
  ∀ (i : Instr) (s t : State), exec i s = .next t →
    t.pending = s.pending ∧ t.pvec = s.pvec ∧ t.error = s.error ∧ t.errmsg = s.errmsg ∧
    t.cycles = s.cycles ∧ t.instructions = s.instructions ∧
    t.lastOpcode = s.lastOpcode ∧ t.lastAddress = s.lastAddress ∧ t.lastData = s.lastData ∧
    (i ≠ .hlt → t.halted = s.halted) ∧ (i ≠ .wait → t.waiting = s.waiting)

/-- 40_step_fetch_dispatch.md R124, R410: a step that executes an instruction, with or without accepting an interrupt first, counts
one instruction and at least one cycle, and returns the cycles it counted. -/
def Obligations.InstructionCountedOnce : Prop :=
  ∀ s t : State, s.halted = false → s.error = false → (s.waiting = false ∨ (s.pending = true ∧ s.flags.i = true)) →
    step s = .next t →
    t.instructions = s.instructions + 1 ∧ 1 ≤ stepReturn s ∧ t.cycles = s.cycles + stepReturn s

/-! ## Memory and flags -/

/-- 20_memory.md R64 to R66: a word written in range puts its low byte at the lower address and its high byte at the next, changes
nothing else, and reads back. -/
def Obligations.WordAccess : Prop :=
  ∀ (s : State) (pa : Nat) (v : Word), wordInRange pa →
    ∃ t, writeWord s pa v = .ok t ∧ t = { s with mem := t.mem } ∧
      t.byteAt pa = v.setWidth 8 ∧ t.byteAt (pa + 1) = (v >>> 8).setWidth 8 ∧
      (∀ a, ¬ inWord pa a → t.byteAt a = s.byteAt a) ∧ readWord t pa = .ok v

/-- 10_state.md R34: the bit positions of the packed word, the mask 0x0FC5 of a load, and that packing loses nothing. -/
def Obligations.FlagsWord : Prop :=
  ∀ (f : Flags) (w : Word),
    f.pack.getLsbD 0 = f.c ∧ f.pack.getLsbD 2 = f.p ∧ f.pack.getLsbD 6 = f.z ∧ f.pack.getLsbD 7 = f.s ∧
    f.pack.getLsbD 8 = f.t ∧ f.pack.getLsbD 9 = f.i ∧ f.pack.getLsbD 10 = f.d ∧ f.pack.getLsbD 11 = f.o ∧
    Flags.unpack f.pack = f ∧ (Flags.unpack w).pack = w &&& 0x0FC5#16

/-- 41_arithmetic_logic.md R150, R151: the result and the flags of the add derivation. -/
def Obligations.AddDerivation : Prop :=
  ∀ (f : Flags) (a : Word) (bw : Nat), bw ≤ 0x10000 →
    (add16 f a bw).1.toNat = (a.toNat + bw) % 2 ^ 16 ∧
    ((add16 f a bw).2.c = true ↔ 0xFFFF < a.toNat + bw) ∧
    ((add16 f a bw).2.o = true ↔
      (a ^^^ (add16 f a bw).1) &&& (BitVec.ofNat 16 bw ^^^ (add16 f a bw).1) &&& 0x8000#16 ≠ 0#16) ∧
    describesResult (add16 f a bw).2 (add16 f a bw).1 ∧
    (add16 f a bw).2.t = f.t ∧ (add16 f a bw).2.i = f.i ∧ (add16 f a bw).2.d = f.d

/-- 41_arithmetic_logic.md R150, R152: the result and the flags of the subtract derivation. -/
def Obligations.SubDerivation : Prop :=
  ∀ (f : Flags) (a : Word) (bw : Nat), bw ≤ 0x10000 →
    (((sub16 f a bw).1.toNat : Int) = ((a.toNat : Int) - bw) % 2 ^ 16) ∧
    ((sub16 f a bw).2.c = true ↔ a.toNat < bw) ∧
    ((sub16 f a bw).2.o = true ↔
      (a ^^^ BitVec.ofNat 16 bw) &&& (a ^^^ (sub16 f a bw).1) &&& 0x8000#16 ≠ 0#16) ∧
    describesResult (sub16 f a bw).2 (sub16 f a bw).1 ∧
    (sub16 f a bw).2.t = f.t ∧ (sub16 f a bw).2.i = f.i ∧ (sub16 f a bw).2.d = f.d

/-! ## Stack and frame -/

/-- 44_stack_frame.md R280 to R283: PUSH stores the register's value before SP is decremented; POP loads the word on top, and
POP SP leaves SP equal to it. -/
def Obligations.PushPopResults : Prop :=
  ∀ (s : State) (a : Reg),
    (roomToPush s 1 → ∃ t, exec (.push a) s = .next t ∧
      t.getReg .sp = s.getReg .sp - 2#16 ∧ t.wordAt (stackAddress s (s.getReg .sp - 2#16)) = s.getReg a ∧ t.pc = s.pc ∧
      Keeps s t [.sp] [] [] (inWord (stackAddress s (s.getReg .sp - 2#16)))) ∧
    (wordsToPop s 1 → ∃ t, exec (.pop a) s = .next t ∧
      t.getReg a = s.wordAt (stackAddress s (s.getReg .sp)) ∧ (a ≠ .sp → t.getReg .sp = s.getReg .sp + 2#16) ∧ t.pc = s.pc ∧
      Keeps s t [a, .sp] [] [] noBytes)

/-- 44_stack_frame.md R282: PUSH then POP of any register, SP too, restores its value and returns SP to its value before the push. -/
def Obligations.PushPopRoundtrip : Prop :=
  ∀ (s : State) (a : Reg), roomToPush s 1 →
    ∃ t u, exec (.push a) s = .next t ∧ exec (.pop a) t = .next u ∧ ∀ r, u.getReg r = s.getReg r

/-- 44_stack_frame.md R284: PUSHA pushes the eight registers in number order, SP as it was at PUSHA time. -/
def Obligations.PushaResult : Prop :=
  ∀ s : State, roomToPush s 8 → ∃ t, exec .pusha s = .next t ∧
    t.getReg .sp = s.getReg .sp - 16#16 ∧ t.pc = s.pc ∧
    (∀ k r, [Reg.ax, .bx, .cx, .dx, .si, .di, .bp, .sp][k]? = some r →
      t.wordAt (stackAddress s (pushOffset s (k + 1))) = s.getReg r) ∧
    Keeps s t [.sp] [] [] (inPushed s 8)

/-- 44_stack_frame.md R285: POPA loads the eight registers from the frame at the entry SP, SP from its slot. -/
def Obligations.PopaResult : Prop :=
  ∀ s : State, wordsToPop s 8 → ∃ t, exec .popa s = .next t ∧
    (∀ k r, [Reg.sp, .bp, .di, .si, .dx, .cx, .bx, .ax][k]? = some r →
      t.getReg r = s.wordAt (stackAddress s (popOffset s k))) ∧
    t.pc = s.pc ∧ Keeps s t [.ax, .bx, .cx, .dx, .si, .di, .bp, .sp] [] [] noBytes

/-- 44_stack_frame.md R285: PUSHA then POPA restores all eight registers. -/
def Obligations.PushaPopaRoundtrip : Prop :=
  ∀ s : State, roomToPush s 8 →
    ∃ t u, exec .pusha s = .next t ∧ exec .popa t = .next u ∧ ∀ r, u.getReg r = s.getReg r

/-- The outer frame pointers ENTER reads for a level can be read (44_stack_frame.md R286). -/
def chainReadable (s : State) (level : Nat) : Prop :=
  ∀ k, 1 ≤ k → k < level → wordInRange (stackAddress s (s.getReg .bp - BitVec.ofNat 16 (2 * k)))

/-- 44_stack_frame.md R286, R287: ENTER at level `lv` (taken modulo 32) pushes BP, copies of `lv - 1` outer frame pointers and the new
frame pointer, sets BP to it and reserves the locals; a copied word is the one below the old BP where the pushes do not
overwrite it first. LEAVE reloads SP from BP and pops BP. -/
def Obligations.EnterLeaveResults : Prop :=
  ∀ s : State,
    (∀ (size : Word) (level : Byte), roomToPush s (level.toNat % 32 + 1) → chainReadable s (level.toNat % 32) →
      ∃ t, exec (.enter size level) s = .next t ∧
        t.getReg .bp = s.getReg .sp - 2#16 ∧
        t.getReg .sp = s.getReg .sp - BitVec.ofNat 16 (2 + 2 * (level.toNat % 32)) - size ∧ t.pc = s.pc ∧
        t.wordAt (stackAddress s (s.getReg .sp - 2#16)) = s.getReg .bp ∧
        (0 < level.toNat % 32 →
          t.wordAt (stackAddress s (pushOffset s (level.toNat % 32 + 1))) = s.getReg .sp - 2#16) ∧
        (∀ k, 1 ≤ k → k < level.toNat % 32 →
          (∀ a, inWord (stackAddress s (s.getReg .bp - BitVec.ofNat 16 (2 * k))) a → ¬ inPushed s (level.toNat % 32 + 1) a) →
          t.wordAt (stackAddress s (pushOffset s (k + 1))) =
            s.wordAt (stackAddress s (s.getReg .bp - BitVec.ofNat 16 (2 * k)))) ∧
        Keeps s t [.sp, .bp] [] [] (inPushed s (level.toNat % 32 + 1))) ∧
    (wordInRange (stackAddress s (s.getReg .bp)) → ∃ t, exec .leave s = .next t ∧
      t.getReg .bp = s.wordAt (stackAddress s (s.getReg .bp)) ∧ t.getReg .sp = s.getReg .bp + 2#16 ∧ t.pc = s.pc ∧
      Keeps s t [.sp, .bp] [] [] noBytes)

/-- 44_stack_frame.md R287: LEAVE is the exact inverse of ENTER on the registers, at every level and size. -/
def Obligations.EnterLeaveInverse : Prop :=
  ∀ (s : State) (size : Word) (level : Byte), roomToPush s (level.toNat % 32 + 1) → chainReadable s (level.toNat % 32) →
    ∃ t u, exec (.enter size level) s = .next t ∧ exec .leave t = .next u ∧ ∀ r, u.getReg r = s.getReg r

/-! ## Data transfer -/

/-- 42_data_transfer.md R200, R201, R206 to R208: the moves between registers, and LEA, which makes no memory access. -/
def Obligations.MoveResults : Prop :=
  ∀ (s : State) (a b : Reg) (j : SReg) (w : Word),
    (∃ t, exec (.movRR a b) s = .next t ∧ t.getReg a = s.getReg b ∧ t.pc = s.pc ∧ Keeps s t [a] [] [] noBytes) ∧
    (∃ t, exec (.movRI a w) s = .next t ∧ t.getReg a = w ∧ t.pc = s.pc ∧ Keeps s t [a] [] [] noBytes) ∧
    (∃ t, exec (.lea a b w) s = .next t ∧ t.getReg a = s.getReg b + w ∧ t.pc = s.pc ∧ Keeps s t [a] [] [] noBytes) ∧
    (∃ t, exec (.movRS a j) s = .next t ∧ t.getReg a = s.getSeg j ∧ t.pc = s.pc ∧ Keeps s t [a] [] [] noBytes) ∧
    (∃ t, exec (.movSR j a) s = .next t ∧ t.getSeg j = s.getReg a ∧ t.pc = s.pc ∧ Keeps s t [] [j] [] noBytes)

/-- 42_data_transfer.md R202, R204: the word loads, through DS for every base, the offset wrapping in 16 bits. -/
def Obligations.LoadResults : Prop :=
  ∀ (s : State) (a b : Reg) (w : Word),
    (wordInRange (phys (s.getSeg .ds) w) → ∃ t, exec (.movRA a w) s = .next t ∧
      t.getReg a = s.wordAt (phys (s.getSeg .ds) w) ∧ t.pc = s.pc ∧ Keeps s t [a] [] [] noBytes) ∧
    (wordInRange (phys (s.getSeg .ds) (s.getReg b + w)) → ∃ t, exec (.movRX a b w) s = .next t ∧
      t.getReg a = s.wordAt (phys (s.getSeg .ds) (s.getReg b + w)) ∧ t.pc = s.pc ∧ Keeps s t [a] [] [] noBytes)

/-- 42_data_transfer.md R203, R205: the word stores, with every byte outside the stored word as before. -/
def Obligations.StoreResults : Prop :=
  ∀ (s : State) (a b : Reg) (w : Word),
    (wordInRange (phys (s.getSeg .ds) w) → ∃ t, exec (.movAR a w) s = .next t ∧
      t.wordAt (phys (s.getSeg .ds) w) = s.getReg a ∧ t.pc = s.pc ∧
      Keeps s t [] [] [] (inWord (phys (s.getSeg .ds) w))) ∧
    (wordInRange (phys (s.getSeg .ds) (s.getReg b + w)) → ∃ t, exec (.movXR a b w) s = .next t ∧
      t.wordAt (phys (s.getSeg .ds) (s.getReg b + w)) = s.getReg a ∧ t.pc = s.pc ∧
      Keeps s t [] [] [] (inWord (phys (s.getSeg .ds) (s.getReg b + w))))

/-- A far pointer is loaded from DS:`off` into a register and a segment register, both words read through the prior DS. -/
def loadsFarPointer (i : Instr) (s : State) (a : Reg) (j : SReg) (off : Word) : Prop :=
  wordInRange (phys (s.getSeg .ds) off) → wordInRange (phys (s.getSeg .ds) (off + 2#16)) →
    ∃ t, exec i s = .next t ∧ t.getReg a = s.wordAt (phys (s.getSeg .ds) off) ∧
      t.getSeg j = s.wordAt (phys (s.getSeg .ds) (off + 2#16)) ∧ t.pc = s.pc ∧ Keeps s t [a] [j] [] noBytes

/-- 42_data_transfer.md R209 to R212: LDS and LES in both memory forms. -/
def Obligations.FarPointerLoads : Prop :=
  ∀ (s : State) (a b : Reg) (w : Word),
    loadsFarPointer (.ldsA a w) s a .ds w ∧ loadsFarPointer (.ldsX a b w) s a .ds (s.getReg b + w) ∧
    loadsFarPointer (.lesA a w) s a .es w ∧ loadsFarPointer (.lesX a b w) s a .es (s.getReg b + w)

/-! ## Arithmetic and logic -/

/-- The effect of adding `y` to register `a`: the sum, carry out of 16 bits, signed overflow, and the frame. -/
def addsTo (s t : State) (a : Reg) (y : Word) : Prop :=
  t.getReg a = s.getReg a + y ∧ t.pc = s.pc ∧
  (t.flags.c = true ↔ 2 ^ 16 ≤ (s.getReg a).toNat + y.toNat) ∧
  (t.flags.o = true ↔ ¬ fitsSigned ((s.getReg a).toInt + y.toInt)) ∧
  describesResult t.flags (s.getReg a + y) ∧ Keeps s t [a] [] derivedFlags noBytes

/-- 41_arithmetic_logic.md R160, R161: ADD, register and immediate. Carry is the unsigned and overflow the signed overflow of the sum. -/
def Obligations.AddResults : Prop :=
  ∀ (s : State) (a b : Reg) (imm : Word),
    (∃ t, exec (.addRR a b) s = .next t ∧ addsTo s t a (s.getReg b)) ∧
    (∃ t, exec (.addRI a imm) s = .next t ∧ addsTo s t a imm)

/-- The effect of adding `y` and the carry flag to register `a` with the carry folded into the operand: overflow compares bit 15 of
the folded operand, so it is the source's formula and not that of the three-operand sum (41_arithmetic_logic.md R154). -/
def addsWithCarry (s t : State) (a : Reg) (y : Word) : Prop :=
  let bw := y.toNat + s.flags.c.toNat
  (t.getReg a).toNat = ((s.getReg a).toNat + bw) % 2 ^ 16 ∧ t.pc = s.pc ∧
  (t.flags.c = true ↔ 2 ^ 16 ≤ (s.getReg a).toNat + bw) ∧
  (t.flags.o = true ↔ topBit (s.getReg a).toNat = topBit bw ∧ topBit (t.getReg a).toNat ≠ topBit bw) ∧
  describesResult t.flags (t.getReg a) ∧ Keeps s t [a] [] derivedFlags noBytes

/-- 41_arithmetic_logic.md R162, R163, R154: ADC, register and immediate. -/
def Obligations.AdcResults : Prop :=
  ∀ (s : State) (a b : Reg) (imm : Word),
    (∃ t, exec (.adcRR a b) s = .next t ∧ addsWithCarry s t a (s.getReg b)) ∧
    (∃ t, exec (.adcRI a imm) s = .next t ∧ addsWithCarry s t a imm)

/-- The flags of `x - y`: borrow, signed overflow, and the description of the difference. -/
def comparesFlags (f : Flags) (x y : Word) : Prop :=
  (f.c = true ↔ x.toNat < y.toNat) ∧ (f.o = true ↔ ¬ fitsSigned (x.toInt - y.toInt)) ∧ describesResult f (x - y)

/-- 41_arithmetic_logic.md R164, R165, R168, R169: SUB and CMP, register and immediate; CMP writes no register. -/
def Obligations.SubCmpResults : Prop :=
  ∀ (s : State) (a b : Reg) (imm : Word),
    (∃ t, exec (.subRR a b) s = .next t ∧ t.getReg a = s.getReg a - s.getReg b ∧ t.pc = s.pc ∧
      comparesFlags t.flags (s.getReg a) (s.getReg b) ∧ Keeps s t [a] [] derivedFlags noBytes) ∧
    (∃ t, exec (.subRI a imm) s = .next t ∧ t.getReg a = s.getReg a - imm ∧ t.pc = s.pc ∧
      comparesFlags t.flags (s.getReg a) imm ∧ Keeps s t [a] [] derivedFlags noBytes) ∧
    (∃ t, exec (.cmpRR a b) s = .next t ∧ t.pc = s.pc ∧
      comparesFlags t.flags (s.getReg a) (s.getReg b) ∧ Keeps s t [] [] derivedFlags noBytes) ∧
    (∃ t, exec (.cmpRI a imm) s = .next t ∧ t.pc = s.pc ∧
      comparesFlags t.flags (s.getReg a) imm ∧ Keeps s t [] [] derivedFlags noBytes)

/-- The effect of subtracting `y` and the carry flag from register `a` with the borrow folded into the operand
(41_arithmetic_logic.md R154). -/
def subtractsWithBorrow (s t : State) (a : Reg) (y : Word) : Prop :=
  let bw := y.toNat + s.flags.c.toNat
  ((t.getReg a).toNat : Int) = (((s.getReg a).toNat : Int) - bw) % 2 ^ 16 ∧ t.pc = s.pc ∧
  (t.flags.c = true ↔ (s.getReg a).toNat < bw) ∧
  (t.flags.o = true ↔ topBit (s.getReg a).toNat ≠ topBit bw ∧ topBit (s.getReg a).toNat ≠ topBit (t.getReg a).toNat) ∧
  describesResult t.flags (t.getReg a) ∧ Keeps s t [a] [] derivedFlags noBytes

/-- 41_arithmetic_logic.md R166, R167, R154: SBC, register and immediate. -/
def Obligations.SbcResults : Prop :=
  ∀ (s : State) (a b : Reg) (imm : Word),
    (∃ t, exec (.sbcRR a b) s = .next t ∧ subtractsWithBorrow s t a (s.getReg b)) ∧
    (∃ t, exec (.sbcRI a imm) s = .next t ∧ subtractsWithBorrow s t a imm)

/-- 41_arithmetic_logic.md R155, R156, R170 to R172: INC and DEC leave carry alone and overflow only at the signed bounds; NEG sets
carry for every operand but 0 and overflow for 0x8000 only. -/
def Obligations.IncDecNegResults : Prop :=
  ∀ (s : State) (a : Reg),
    (∃ t, exec (.incR a) s = .next t ∧ t.getReg a = s.getReg a + 1#16 ∧ t.pc = s.pc ∧
      (t.flags.o = true ↔ s.getReg a = 0x7FFF#16) ∧ describesResult t.flags (s.getReg a + 1#16) ∧
      Keeps s t [a] [] [.p, .z, .s, .o] noBytes) ∧
    (∃ t, exec (.decR a) s = .next t ∧ t.getReg a = s.getReg a - 1#16 ∧ t.pc = s.pc ∧
      (t.flags.o = true ↔ s.getReg a = 0x8000#16) ∧ describesResult t.flags (s.getReg a - 1#16) ∧
      Keeps s t [a] [] [.p, .z, .s, .o] noBytes) ∧
    (∃ t, exec (.negR a) s = .next t ∧ t.getReg a = - s.getReg a ∧ t.pc = s.pc ∧
      (t.flags.c = true ↔ s.getReg a ≠ 0#16) ∧ (t.flags.o = true ↔ s.getReg a = 0x8000#16) ∧
      describesResult t.flags (- s.getReg a) ∧ Keeps s t [a] [] derivedFlags noBytes)

/-- 41_arithmetic_logic.md R176: DIV with DX below the divisor, which is exactly when the quotient fits, writes the quotient to AX and
the remainder to DX and no flag. -/
def Obligations.DivCompletes : Prop :=
  ∀ (s : State) (a : Reg), (s.getReg .dx).toNat < (s.getReg a).toNat →
    ∃ t, exec (.divR a) s = .next t ∧
      (t.getReg .ax).toNat = ((s.getReg .dx).toNat * 2 ^ 16 + (s.getReg .ax).toNat) / (s.getReg a).toNat ∧
      (t.getReg .dx).toNat = ((s.getReg .dx).toNat * 2 ^ 16 + (s.getReg .ax).toNat) % (s.getReg a).toNat ∧
      t.pc = s.pc ∧ Keeps s t [.ax, .dx] [] [] noBytes

/-- 41_arithmetic_logic.md R176, 60_exceptions.md R355: DIV with DX not below the divisor (zero divisor or overflow) enters the
handler of vector 0, whatever I is, with the offset after DIV saved and no other register changed. Room on the stack is the only premise
on memory because entry 0 lies in memory at the model's IVT_BASE and MEM_SIZE (log 1, DESIGN CHOICE); at others its read can raise
(00_scope.md R7, 60_exceptions.md R362). -/
def Obligations.DivFaultEntersVectorZero : Prop :=
  ∀ (s : State) (a : Reg), (s.getReg a).toNat ≤ (s.getReg .dx).toNat → roomToPush s 3 →
    ∃ t, exec (.divR a) s = .next t ∧ entersHandler s t 0#8

/-- The effect of a logic result `r`: carry and overflow cleared, Z, S, P described, and the register of `rs` (none for TEST) written. -/
def logicEffect (s t : State) (rs : List Reg) (r : Word) : Prop :=
  (∀ a, a ∈ rs → t.getReg a = r) ∧ t.pc = s.pc ∧ t.flags.c = false ∧ t.flags.o = false ∧ describesResult t.flags r ∧
  Keeps s t rs [] derivedFlags noBytes

/-- 41_arithmetic_logic.md R153, R180 to R188: AND, OR, XOR and TEST, register and immediate, and NOT, which touches no flag. That TEST
is the AND that writes no register is the spec's general knowledge (R186, decision D1, log 10). -/
def Obligations.BitwiseResults : Prop :=
  ∀ (s : State) (a b : Reg) (imm : Word),
    (∃ t, exec (.andRR a b) s = .next t ∧ logicEffect s t [a] (s.getReg a &&& s.getReg b)) ∧
    (∃ t, exec (.andRI a imm) s = .next t ∧ logicEffect s t [a] (s.getReg a &&& imm)) ∧
    (∃ t, exec (.orRR a b) s = .next t ∧ logicEffect s t [a] (s.getReg a ||| s.getReg b)) ∧
    (∃ t, exec (.orRI a imm) s = .next t ∧ logicEffect s t [a] (s.getReg a ||| imm)) ∧
    (∃ t, exec (.xorRR a b) s = .next t ∧ logicEffect s t [a] (s.getReg a ^^^ s.getReg b)) ∧
    (∃ t, exec (.xorRI a imm) s = .next t ∧ logicEffect s t [a] (s.getReg a ^^^ imm)) ∧
    (∃ t, exec (.testRR a b) s = .next t ∧ logicEffect s t [] (s.getReg a &&& s.getReg b)) ∧
    (∃ t, exec (.testRI a imm) s = .next t ∧ logicEffect s t [] (s.getReg a &&& imm)) ∧
    (∃ t, exec (.notR a) s = .next t ∧ (t.getReg a).toNat = 0xFFFF - (s.getReg a).toNat ∧ t.pc = s.pc ∧
      Keeps s t [a] [] [] noBytes)

/-! ## Control flow -/

/-- 43_control_flow.md R231 to R234: the jumps, changing nothing but pc; the relative one wraps in the segment. -/
def Obligations.JumpResults : Prop :=
  ∀ (s : State) (a : Reg) (w : Word) (d : Byte),
    (∃ t, exec (.jmpA w) s = .next t ∧ t.pc = w ∧ Keeps s t [] [] [] noBytes) ∧
    (∃ t, exec (.jmpR a) s = .next t ∧ t.pc = s.getReg a ∧ Keeps s t [] [] [] noBytes) ∧
    (∃ t, exec (.jmpS d) s = .next t ∧ movesBy s t d ∧ Keeps s t [] [] [] noBytes)

/-- An instruction completes as a relative jump taken exactly when a condition holds, changing nothing but pc. -/
def jumpsWhen (i : Instr) (d : Byte) (s : State) (c : Prop) : Prop :=
  ∃ t, exec i s = .next t ∧ (c → movesBy s t d) ∧ (¬ c → t.pc = s.pc) ∧ Keeps s t [] [] [] noBytes

/-- 43_control_flow.md R236, R237, R240 to R255: each conditional jump with the condition of its row. -/
def Obligations.ConditionalJumps : Prop :=
  ∀ (s : State) (d : Byte),
    jumpsWhen (.jo d) d s (s.flags.o = true) ∧ jumpsWhen (.jno d) d s (s.flags.o = false) ∧
    jumpsWhen (.jc d) d s (s.flags.c = true) ∧ jumpsWhen (.jnc d) d s (s.flags.c = false) ∧
    jumpsWhen (.jz d) d s (s.flags.z = true) ∧ jumpsWhen (.jnz d) d s (s.flags.z = false) ∧
    jumpsWhen (.jbe d) d s (s.flags.c = true ∨ s.flags.z = true) ∧
    jumpsWhen (.ja d) d s (s.flags.c = false ∧ s.flags.z = false) ∧
    jumpsWhen (.js d) d s (s.flags.s = true) ∧ jumpsWhen (.jns d) d s (s.flags.s = false) ∧
    jumpsWhen (.jp d) d s (s.flags.p = true) ∧ jumpsWhen (.jnp d) d s (s.flags.p = false) ∧
    jumpsWhen (.jl d) d s (s.flags.s ≠ s.flags.o) ∧ jumpsWhen (.jge d) d s (s.flags.s = s.flags.o) ∧
    jumpsWhen (.jle d) d s (s.flags.z = true ∨ s.flags.s ≠ s.flags.o) ∧
    jumpsWhen (.jg d) d s (s.flags.z = false ∧ s.flags.s = s.flags.o)

/-- 43_control_flow.md R236 with 41_arithmetic_logic.md R152: after CMP the unsigned and the signed jumps are taken exactly for the
order of the operands their names say. -/
def Obligations.CompareThenBranch : Prop :=
  ∀ (s : State) (a b : Reg) (d : Byte), ∃ t, exec (.cmpRR a b) s = .next t ∧
    jumpsWhen (.jz d) d t (s.getReg a = s.getReg b) ∧ jumpsWhen (.jnz d) d t (s.getReg a ≠ s.getReg b) ∧
    jumpsWhen (.jc d) d t ((s.getReg a).toNat < (s.getReg b).toNat) ∧
    jumpsWhen (.jnc d) d t ((s.getReg b).toNat ≤ (s.getReg a).toNat) ∧
    jumpsWhen (.jbe d) d t ((s.getReg a).toNat ≤ (s.getReg b).toNat) ∧
    jumpsWhen (.ja d) d t ((s.getReg b).toNat < (s.getReg a).toNat) ∧
    jumpsWhen (.jl d) d t ((s.getReg a).toInt < (s.getReg b).toInt) ∧
    jumpsWhen (.jge d) d t ((s.getReg b).toInt ≤ (s.getReg a).toInt) ∧
    jumpsWhen (.jle d) d t ((s.getReg a).toInt ≤ (s.getReg b).toInt) ∧
    jumpsWhen (.jg d) d t ((s.getReg b).toInt < (s.getReg a).toInt)

/-- A near call to a target: the pc is pushed (44_stack_frame.md R280) and replaced. -/
def callsNear (i : Instr) (s : State) (target : Word) : Prop :=
  roomToPush s 1 → ∃ t, exec i s = .next t ∧ t.pc = target ∧ t.getReg .sp = s.getReg .sp - 2#16 ∧
    t.wordAt (stackAddress s (s.getReg .sp - 2#16)) = s.pc ∧
    Keeps s t [.sp] [] [] (inWord (stackAddress s (s.getReg .sp - 2#16)))

/-- 43_control_flow.md R260 to R262: the calls; the register target is the value before the push, and CALLF pushes CS before pc. -/
def Obligations.CallResults : Prop :=
  ∀ (s : State) (a : Reg) (w sg : Word),
    callsNear (.callA w) s w ∧ callsNear (.callR a) s (s.getReg a) ∧
    (roomToPush s 2 → ∃ t, exec (.callF w sg) s = .next t ∧ t.pc = w ∧ t.getSeg .cs = sg ∧
      t.getReg .sp = s.getReg .sp - 4#16 ∧ t.wordAt (stackAddress s (pushOffset s 1)) = s.getSeg .cs ∧
      t.wordAt (stackAddress s (pushOffset s 2)) = s.pc ∧ Keeps s t [.sp] [.cs] [] (inPushed s 2))

/-- 43_control_flow.md R263 to R265: the returns. -/
def Obligations.ReturnResults : Prop :=
  ∀ (s : State) (n : Word),
    (wordsToPop s 1 → ∃ t, exec .ret s = .next t ∧ t.pc = s.wordAt (stackAddress s (s.getReg .sp)) ∧
      t.getReg .sp = s.getReg .sp + 2#16 ∧ Keeps s t [.sp] [] [] noBytes) ∧
    (wordsToPop s 1 → ∃ t, exec (.retI n) s = .next t ∧ t.pc = s.wordAt (stackAddress s (s.getReg .sp)) ∧
      t.getReg .sp = s.getReg .sp + 2#16 + n ∧ Keeps s t [.sp] [] [] noBytes) ∧
    (wordsToPop s 2 → ∃ t, exec .retF s = .next t ∧ t.pc = s.wordAt (stackAddress s (popOffset s 0)) ∧
      t.getSeg .cs = s.wordAt (stackAddress s (popOffset s 1)) ∧ t.getReg .sp = s.getReg .sp + 4#16 ∧
      Keeps s t [.sp] [.cs] [] noBytes)

/-- 43_control_flow.md R260, R262, R263, R265: a return right after a call goes back to the instruction after the call, with SP and CS
as they were. -/
def Obligations.CallReturnRoundtrip : Prop :=
  ∀ (s : State) (w sg : Word),
    (roomToPush s 1 → ∃ t u, exec (.callA w) s = .next t ∧ exec .ret t = .next u ∧ u.pc = s.pc ∧ ∀ r, u.getReg r = s.getReg r) ∧
    (roomToPush s 2 → ∃ t u, exec (.callF w sg) s = .next t ∧ exec .retF t = .next u ∧ u.pc = s.pc ∧
      (∀ r, u.getReg r = s.getReg r) ∧ ∀ j, u.getSeg j = s.getSeg j)

/-- A loop instruction: CX is decremented, and the jump is taken exactly when it is not zero then and a condition holds. -/
def loopsWhen (i : Instr) (d : Byte) (s : State) (c : Prop) : Prop :=
  ∃ t, exec i s = .next t ∧ t.getReg .cx = s.getReg .cx - 1#16 ∧
    (s.getReg .cx ≠ 1#16 ∧ c → movesBy s t d) ∧ (¬ (s.getReg .cx ≠ 1#16 ∧ c) → t.pc = s.pc) ∧ Keeps s t [.cx] [] [] noBytes

/-- 43_control_flow.md R270 to R272: the loops; a counter that reaches zero ends the loop whatever the zero flag is. -/
def Obligations.LoopResults : Prop :=
  ∀ (s : State) (d : Byte),
    loopsWhen (.loop d) d s True ∧ loopsWhen (.loopz d) d s (s.flags.z = true) ∧ loopsWhen (.loopnz d) d s (s.flags.z = false)

/-! ## Strings -/

/-- The physical address of DS:SI. -/
def stringSource (s : State) : Nat := phys (s.getSeg .ds) (s.getReg .si)

/-- The physical address of ES:DI. -/
def stringDest (s : State) : Nat := phys (s.getSeg .es) (s.getReg .di)

/-- 45_string_repeat.md R298, R300 to R303: MOVS and STOS in both sizes; the used pointers advance in the direction of D. -/
def Obligations.MovsStosResults : Prop :=
  ∀ s : State,
    (stringSource s < Config.memSize → stringDest s < Config.memSize → ∃ t, exec .movsb s = .next t ∧
      t.byteAt (stringDest s) = s.byteAt (stringSource s) ∧
      t.getReg .si = stringOffset s (s.getReg .si) 1#16 1 ∧ t.getReg .di = stringOffset s (s.getReg .di) 1#16 1 ∧ t.pc = s.pc ∧
      Keeps s t [.si, .di] [] [] (· = stringDest s)) ∧
    (wordInRange (stringSource s) → wordInRange (stringDest s) → ∃ t, exec .movsw s = .next t ∧
      t.wordAt (stringDest s) = s.wordAt (stringSource s) ∧
      t.getReg .si = stringOffset s (s.getReg .si) 2#16 1 ∧ t.getReg .di = stringOffset s (s.getReg .di) 2#16 1 ∧ t.pc = s.pc ∧
      Keeps s t [.si, .di] [] [] (inWord (stringDest s))) ∧
    (stringDest s < Config.memSize → ∃ t, exec .stosb s = .next t ∧
      t.byteAt (stringDest s) = (s.getReg .ax).setWidth 8 ∧ t.getReg .di = stringOffset s (s.getReg .di) 1#16 1 ∧ t.pc = s.pc ∧
      Keeps s t [.di] [] [] (· = stringDest s)) ∧
    (wordInRange (stringDest s) → ∃ t, exec .stosw s = .next t ∧
      t.wordAt (stringDest s) = s.getReg .ax ∧ t.getReg .di = stringOffset s (s.getReg .di) 2#16 1 ∧ t.pc = s.pc ∧
      Keeps s t [.di] [] [] (inWord (stringDest s)))

/-- 45_string_repeat.md R304 to R307: LODS, whose byte form keeps the high byte of AX, and CMPS, source minus destination; the byte
compare of zero-extended operands has S equal to C and O clear. -/
def Obligations.LodsCmpsResults : Prop :=
  ∀ s : State,
    (stringSource s < Config.memSize → ∃ t, exec .lodsb s = .next t ∧
      (t.getReg .ax).toNat = (s.getReg .ax).toNat / 256 * 256 + (s.byteAt (stringSource s)).toNat ∧
      t.getReg .si = stringOffset s (s.getReg .si) 1#16 1 ∧ t.pc = s.pc ∧ Keeps s t [.ax, .si] [] [] noBytes) ∧
    (wordInRange (stringSource s) → ∃ t, exec .lodsw s = .next t ∧
      t.getReg .ax = s.wordAt (stringSource s) ∧ t.getReg .si = stringOffset s (s.getReg .si) 2#16 1 ∧ t.pc = s.pc ∧
      Keeps s t [.ax, .si] [] [] noBytes) ∧
    (stringSource s < Config.memSize → stringDest s < Config.memSize → ∃ t, exec .cmpsb s = .next t ∧
      (t.flags.z = true ↔ s.byteAt (stringSource s) = s.byteAt (stringDest s)) ∧
      (t.flags.c = true ↔ (s.byteAt (stringSource s)).toNat < (s.byteAt (stringDest s)).toNat) ∧
      (t.flags.p = true ↔ evenOnes (s.byteAt (stringSource s) - s.byteAt (stringDest s))) ∧
      t.flags.s = t.flags.c ∧ t.flags.o = false ∧
      t.getReg .si = stringOffset s (s.getReg .si) 1#16 1 ∧ t.getReg .di = stringOffset s (s.getReg .di) 1#16 1 ∧ t.pc = s.pc ∧
      Keeps s t [.si, .di] [] derivedFlags noBytes) ∧
    (wordInRange (stringSource s) → wordInRange (stringDest s) → ∃ t, exec .cmpsw s = .next t ∧
      comparesFlags t.flags (s.wordAt (stringSource s)) (s.wordAt (stringDest s)) ∧
      t.getReg .si = stringOffset s (s.getReg .si) 2#16 1 ∧ t.getReg .di = stringOffset s (s.getReg .di) 2#16 1 ∧ t.pc = s.pc ∧
      Keeps s t [.si, .di] [] derivedFlags noBytes)

/-- The string opcode bytes with the instructions they stand for (30_encoding.md R101). -/
def stringOpcodes : List (Byte × Instr) :=
  [(0x70#8, .movsb), (0x71#8, .movsw), (0x72#8, .stosb), (0x73#8, .stosw),
   (0x74#8, .lodsb), (0x75#8, .lodsw), (0x76#8, .cmpsb), (0x77#8, .cmpsw)]

/-- The flag stops the repeat `i` of the opcode byte `b` after a turn: Z clear for REPZ of a compare, Z set for REPNZ of one
(45_string_repeat.md R310). -/
def stopsRepeat (i : Instr) (b : Byte) (t : State) : Prop :=
  0x76 ≤ b.toNat ∧ (i = .repz b ∧ t.flags.z = false ∨ i = .repnz b ∧ t.flags.z = true)

/-- The repeat ends after `n` turns: CX is zero, or the flag of the last turn stops it (45_string_repeat.md R310). -/
def repeatEnds (i : Instr) (b : Byte) (n : Nat) (t : State) : Prop := t.getReg .cx = 0#16 ∨ 0 < n ∧ stopsRepeat i b t

/-- `n` turns of the repeat `i` of the opcode byte `b` lead from a state to another: before a turn the repeat has not ended, and a turn
is the `single` instruction, then CX decremented (45_string_repeat.md R310). -/
def repeatTurns (i : Instr) (b : Byte) (single : Instr) : Nat → State → State → Prop
  | 0, s, t => t = s
  | n + 1, s, t => ∃ u v, repeatTurns i b single n s u ∧ ¬ repeatEnds i b n u ∧ exec single u = .next v ∧
      t = v.setReg .cx (v.getReg .cx - 1#16)

/-- 45_string_repeat.md R310 to R313: a repeat is its single string instruction run turn by turn. The state after the turns at which it
ends is its next state; a turn that raises an engine error ends it with that error; with both segments in range it completes, and
only AX, CX, SI, DI, the compare's flags and the stored elements change. -/
def Obligations.RepeatCompletes : Prop :=
  ∀ (s : State) (b : Byte) (single : Instr), (b, single) ∈ stringOpcodes → ∀ i ∈ [Instr.rep b, .repz b, .repnz b],
    (∀ n t, repeatTurns i b single n s t → repeatEnds i b n t → exec i s = .next t) ∧
    (∀ n u f, repeatTurns i b single n s u → ¬ repeatEnds i b n u → exec single u = .fault f →
      ∃ g, exec i s = .fault g ∧ g.kind = f.kind) ∧
    (segmentInRange (s.getSeg .ds) → segmentInRange (s.getSeg .es) → ∃ n t, repeatTurns i b single n s t ∧ repeatEnds i b n t ∧
      exec i s = .next t ∧ t.pc = s.pc ∧
      Keeps s t [.ax, .cx, .si, .di] [] (if 0x76 ≤ b.toNat then derivedFlags else []) (repeatStores s b))

/-- The byte `k` elements on from the source pointer. -/
def sourceByte (s : State) (k : Nat) : Byte := s.byteAt (phys (s.getSeg .ds) (stringOffset s (s.getReg .si) 1#16 k))

/-- The byte `k` elements on from the destination pointer. -/
def destByte (s : State) (k : Nat) : Byte := s.byteAt (phys (s.getSeg .es) (stringOffset s (s.getReg .di) 1#16 k))

/-- A repeated CMPSB that goes on while the bytes compare as `eq` says makes `n` iterations, counted in CX and the pointers: all
before the last satisfy it, the last fails it when the count was not used up, and Z tells the last comparison. -/
def comparesUntil (i : Instr) (s : State) (eq : Bool) : Prop :=
  ∃ t n, exec i s = .next t ∧ n ≤ (s.getReg .cx).toNat ∧ (t.getReg .cx).toNat = (s.getReg .cx).toNat - n ∧
    t.getReg .si = stringOffset s (s.getReg .si) 1#16 n ∧ t.getReg .di = stringOffset s (s.getReg .di) 1#16 n ∧
    (∀ k, k + 1 < n → (sourceByte s k == destByte s k) = eq) ∧
    (n < (s.getReg .cx).toNat → 0 < n ∧ (sourceByte s (n - 1) == destByte s (n - 1)) ≠ eq) ∧
    (0 < n → t.flags.z = (sourceByte s (n - 1) == destByte s (n - 1))) ∧ (n = 0 → t.flags = s.flags)

/-- 45_string_repeat.md R310, R312, R313: REPZ CMPSB stops after the first mismatch and REPNZ CMPSB after the first match, the
terminating iteration counted. -/
def Obligations.RepeatedCompareStops : Prop :=
  ∀ s : State, segmentInRange (s.getSeg .ds) → segmentInRange (s.getSeg .es) →
    comparesUntil (.repz 0x76#8) s true ∧ comparesUntil (.repnz 0x76#8) s false

/-- 45_string_repeat.md R311, R300: REP MOVSB with D clear copies CX bytes between ranges that do not wrap or overlap, leaves CX at 0
and both pointers advanced by the count, and changes no other byte. -/
def Obligations.RepMovsbCopies : Prop :=
  ∀ (s : State) (n : Nat), n = (s.getReg .cx).toNat → s.flags.d = false →
    (s.getReg .si).toNat + n ≤ 0x10000 → (s.getReg .di).toNat + n ≤ 0x10000 →
    stringSource s + n ≤ Config.memSize → stringDest s + n ≤ Config.memSize →
    (stringSource s + n ≤ stringDest s ∨ stringDest s + n ≤ stringSource s) →
    ∃ t, exec (.rep 0x70#8) s = .next t ∧
      (∀ k, k < n → t.byteAt (stringDest s + k) = s.byteAt (stringSource s + k)) ∧
      t.getReg .cx = 0#16 ∧ t.getReg .si = s.getReg .si + BitVec.ofNat 16 n ∧ t.getReg .di = s.getReg .di + BitVec.ofNat 16 n ∧
      t.pc = s.pc ∧ Keeps s t [.cx, .si, .di] [] [] (fun a => stringDest s ≤ a ∧ a < stringDest s + n)

/-! ## System -/

/-- 46_system.md R330, R331, R334 to R339: HLT and WAIT set their boolean and the six flag instructions their flag, and nothing else. -/
def Obligations.SystemResults : Prop :=
  ∀ s : State,
    exec .hlt s = .next { s with halted := true } ∧ exec .wait s = .next { s with waiting := true } ∧
    (∃ t, exec .clc s = .next t ∧ t.flags.c = false ∧ t.pc = s.pc ∧ Keeps s t [] [] [.c] noBytes) ∧
    (∃ t, exec .stc s = .next t ∧ t.flags.c = true ∧ t.pc = s.pc ∧ Keeps s t [] [] [.c] noBytes) ∧
    (∃ t, exec .cli s = .next t ∧ t.flags.i = false ∧ t.pc = s.pc ∧ Keeps s t [] [] [.i] noBytes) ∧
    (∃ t, exec .sti s = .next t ∧ t.flags.i = true ∧ t.pc = s.pc ∧ Keeps s t [] [] [.i] noBytes) ∧
    (∃ t, exec .cld s = .next t ∧ t.flags.d = false ∧ t.pc = s.pc ∧ Keeps s t [] [] [.d] noBytes) ∧
    (∃ t, exec .std s = .next t ∧ t.flags.d = true ∧ t.pc = s.pc ∧ Keeps s t [] [] [.d] noBytes)

/-- 46_system.md R332, 60_exceptions.md R360: INT enters the handler of its vector, whatever I is and whatever is latched. Room on the
stack is the only premise on memory because the vector table lies in memory at the model's IVT_BASE and MEM_SIZE (log 1, DESIGN CHOICE);
at others the read of the entry can raise (00_scope.md R7, 60_exceptions.md R362). -/
def Obligations.IntEntersHandler : Prop :=
  ∀ (s : State) (v : Byte), roomToPush s 3 → ∃ t, exec (.int v) s = .next t ∧ entersHandler s t v

/-- 46_system.md R333: IRET pops pc, CS and FLAGS, and the bits of the word that name no flag are dropped. -/
def Obligations.IretRestores : Prop :=
  ∀ s : State, wordsToPop s 3 → ∃ t, exec .iret s = .next t ∧
    t.pc = s.wordAt (stackAddress s (popOffset s 0)) ∧ t.getSeg .cs = s.wordAt (stackAddress s (popOffset s 1)) ∧
    t.flags.pack = s.wordAt (stackAddress s (popOffset s 2)) &&& 0x0FC5#16 ∧ t.getReg .sp = s.getReg .sp + 6#16 ∧
    Keeps s t [.sp] [.cs] allFlags noBytes

/-- 46_system.md R332, R333, 60_exceptions.md R366: IRET right after INT restores pc, CS, SP and all eight flags. That INT completes with
room on the stack alone rests on the vector table in memory at the model's IVT_BASE and MEM_SIZE (log 1, DESIGN CHOICE); at others the
read of the entry can raise (00_scope.md R7, 60_exceptions.md R362). -/
def Obligations.InterruptRoundtrip : Prop :=
  ∀ (s : State) (v : Byte), roomToPush s 3 →
    ∃ t u, exec (.int v) s = .next t ∧ exec .iret t = .next u ∧ u.pc = s.pc ∧ u.flags = s.flags ∧
      (∀ r, u.getReg r = s.getReg r) ∧ ∀ j, u.getSeg j = s.getSeg j
end

