-- ==== Sys2Proof/Laws/Except.lean ====
section
/-! SUPPORT. Computations that may raise an engine error, taken apart and put together. -/

namespace Sys2Proof.Machine

@[simp] theorem bind_ok {α β : Type} (a : α) (f : α → Except Fault β) : ((Except.ok a : Except Fault α) >>= f) = f a := rfl

@[simp] theorem bind_error {α β : Type} (e : Fault) (f : α → Except Fault β) :
    ((Except.error e : Except Fault α) >>= f) = .error e := rfl

/-- A computation in two parts succeeds when both do. -/
theorem bind_eq_ok {α β : Type} {x : Except Fault α} {f : α → Except Fault β} {b : β} :
    (x >>= f) = .ok b ↔ ∃ a, x = .ok a ∧ f a = .ok b := by
  cases x <;> simp

/-- A computation in two parts raises what its first or its second part raises. -/
theorem bind_eq_error {α β : Type} {x : Except Fault α} {f : α → Except Fault β} {e : Fault} :
    (x >>= f) = .error e ↔ x = .error e ∨ ∃ a, x = .ok a ∧ f a = .error e := by
  cases x <;> simp

@[simp] theorem finish_ok (t : State) : finish (.ok t) = .next t := rfl
@[simp] theorem finish_error (f : Fault) : finish (.error f) = .fault f := rfl

@[simp] theorem finish_eq_next {x : Except Fault State} {t : State} : finish x = .next t ↔ x = .ok t := by
  cases x <;> simp [finish]

@[simp] theorem finish_eq_fault {x : Except Fault State} {f : Fault} : finish x = .fault f ↔ x = .error f := by
  cases x <;> simp [finish]

/-- A meaning built from operations is never refused. -/
@[simp] theorem finish_ne_refused (x : Except Fault State) (r : Refusal) : finish x ≠ .refused r := by
  cases x <;> simp [finish]

@[simp] theorem next_inj {s t : State} : (Host.Outcome.next s : Host.Outcome State Fault Refusal) = .next t ↔ s = t := by simp

/-- The state a raised error carries is the one it was raised in, halted and errored (60_exceptions.md R350). -/
@[simp] theorem raiseEngine_after (e : EngineError) (s : State) : (raiseEngine e s).after = s.errored e := by cases e <;> rfl

end Sys2Proof.Machine
end

