-- ==== Sys2Proof/Laws/Memory.lean ====
section
/-! SUPPORT. Memory: reading after a write, and the canonical form kept by every operation. -/

namespace Sys2Proof.Machine

/-! ## Reading after a write -/

@[simp] theorem Memory.read_nil (k : Nat) : Memory.read [] k = Memory.unlisted := rfl

theorem Memory.read_erase_same (m : Memory) (k : Nat) : Memory.read (Memory.erase m k) k = Memory.unlisted := by
  induction m with
  | nil => rfl
  | cons c m ih =>
    by_cases h : c.1 = k
    · simp [Memory.erase, h, ih]
    · simp [Memory.erase, Memory.read, h, ih]

theorem Memory.read_erase_ne (m : Memory) (k j : Nat) (h : j ≠ k) : Memory.read (Memory.erase m k) j = Memory.read m j := by
  induction m with
  | nil => rfl
  | cons c m ih =>
    by_cases hk : c.1 = k
    · have : c.1 ≠ j := by omega
      simp [Memory.erase, Memory.read, hk, ih]; omega
    · simp [Memory.erase, Memory.read, hk, ih]

theorem Memory.read_insert_ne (m : Memory) (k j : Nat) (v : Byte) (h : j ≠ k) :
    Memory.read (Memory.insert m k v) j = Memory.read m j := by
  induction m with
  | nil => simp [Memory.insert, Memory.read, Ne.symm h]
  | cons c m ih =>
    by_cases hk : k < c.1
    · simp [Memory.insert, Memory.read, hk, Ne.symm h]
    · simp [Memory.insert, Memory.read, hk, ih]

theorem Memory.read_insert_same (m : Memory) (k : Nat) (v : Byte) (h : ∀ c ∈ m, c.1 ≠ k) :
    Memory.read (Memory.insert m k v) k = v := by
  induction m with
  | nil => simp [Memory.insert, Memory.read]
  | cons c m ih =>
    by_cases hk : k < c.1
    · simp [Memory.insert, Memory.read, hk]
    · have hc : c.1 ≠ k := h c (by simp)
      simp [Memory.insert, Memory.read, hk, hc, ih (fun d hd => h d (by simp [hd]))]

theorem Memory.mem_erase {m : Memory} {k : Nat} {c : Host.Cell} (h : c ∈ Memory.erase m k) : c ∈ m ∧ c.1 ≠ k := by
  induction m with
  | nil => simp [Memory.erase] at h
  | cons d m ih =>
    by_cases hk : d.1 = k
    · simp only [Memory.erase, hk, if_true] at h
      exact ⟨by simp [(ih h).1], (ih h).2⟩
    · simp only [Memory.erase, hk, if_false, List.mem_cons] at h
      rcases h with rfl | h
      · exact ⟨by simp, hk⟩
      · exact ⟨by simp [(ih h).1], (ih h).2⟩

/-- A byte reads as what was written to it last. -/
@[simp] theorem Memory.read_write_same (m : Memory) (k : Nat) (v : Byte) : Memory.read (Memory.write m k v) k = v := by
  unfold Memory.write
  split
  · rename_i h; rw [Memory.read_erase_same, h]
  · exact Memory.read_insert_same _ _ _ fun c hc => (Memory.mem_erase hc).2

/-- A write leaves every other byte alone. -/
theorem Memory.read_write_ne (m : Memory) (k j : Nat) (v : Byte) (h : j ≠ k) :
    Memory.read (Memory.write m k v) j = Memory.read m j := by
  unfold Memory.write
  split
  · exact Memory.read_erase_ne _ _ _ h
  · rw [Memory.read_insert_ne _ _ _ _ h, Memory.read_erase_ne _ _ _ h]

theorem Memory.read_write (m : Memory) (k j : Nat) (v : Byte) :
    Memory.read (Memory.write m k v) j = if j = k then v else Memory.read m j := by
  by_cases h : j = k
  · subst h; simp
  · simp [h, Memory.read_write_ne]

/-- A copied byte reads as itself and an address outside the copy as before (20_memory.md R80). -/
theorem Memory.read_writeBytes (m : Memory) (k j : Nat) (bs : List Byte) :
    Memory.read (Memory.writeBytes m k bs) j = if k ≤ j then (bs[j - k]?).getD (Memory.read m j) else Memory.read m j := by
  induction bs generalizing m k with
  | nil => simp [Memory.writeBytes]
  | cons b bs ih =>
    rw [Memory.writeBytes, ih, Memory.read_write]
    by_cases h : k = j
    · subst h; simp
    · by_cases h' : k < j
      · have e : j - k = (j - (k + 1)) + 1 := by omega
        have hj : j ≠ k := by omega
        simp [show k + 1 ≤ j by omega, show k ≤ j by omega, e, hj]
      · simp [show ¬ k + 1 ≤ j by omega, show ¬ k ≤ j by omega, show ¬ j = k by omega]

/-! ## The canonical form -/

theorem Memory.wf_nil : Memory.wf [] := by simp [Memory.wf]

theorem Memory.wf_erase {m : Memory} (h : Memory.wf m) (k : Nat) : Memory.wf (Memory.erase m k) := by
  refine ⟨?_, fun c hc => h.2 c (Memory.mem_erase hc).1⟩
  induction m with
  | nil => simp [Memory.erase]
  | cons d m ih =>
    have hm : Memory.wf m := ⟨(List.pairwise_cons.1 h.1).2, fun c hc => h.2 c (by simp [hc])⟩
    by_cases hk : d.1 = k
    · simpa [Memory.erase, hk] using ih hm
    · simp only [Memory.erase, hk, if_false, List.pairwise_cons]
      exact ⟨fun c hc => (List.pairwise_cons.1 h.1).1 c (Memory.mem_erase hc).1, ih hm⟩

theorem Memory.mem_insert {m : Memory} {k : Nat} {v : Byte} {c : Host.Cell} (h : c ∈ Memory.insert m k v) : c = (k, v) ∨ c ∈ m := by
  induction m with
  | nil => simpa [Memory.insert] using h
  | cons d m ih =>
    by_cases hk : k < d.1
    · simpa [Memory.insert, hk] using h
    · simp only [Memory.insert, hk, if_false, List.mem_cons] at h ⊢
      rcases h with h | h
      · exact .inr (.inl h)
      · exact (ih h).imp_right .inr

theorem Memory.wf_insert {m : Memory} (h : Memory.wf m) {k : Nat} {v : Byte} (hv : v ≠ Memory.unlisted) (hk : k < Config.memSize)
    (hn : ∀ c ∈ m, c.1 ≠ k) : Memory.wf (Memory.insert m k v) := by
  refine ⟨?_, fun c hc => ?_⟩
  · induction m with
    | nil => simp [Memory.insert]
    | cons d m ih =>
      have hp := List.pairwise_cons.1 h.1
      have hm : Memory.wf m := ⟨hp.2, fun c hc => h.2 c (by simp [hc])⟩
      by_cases hd : k < d.1
      · simp only [Memory.insert, hd, if_true, List.pairwise_cons, List.mem_cons]
        refine ⟨?_, hp.1, hp.2⟩
        rintro c (rfl | hc)
        · exact hd
        · exact lt_trans hd (hp.1 c hc)
      · have hdk : d.1 ≠ k := hn d (by simp)
        simp only [Memory.insert, hd, if_false, List.pairwise_cons]
        refine ⟨fun c hc => ?_, ih hm (fun c hc => hn c (by simp [hc]))⟩
        rcases Memory.mem_insert hc with rfl | hc
        · show d.1 < k
          omega
        · exact hp.1 c hc
  · rcases Memory.mem_insert hc with rfl | hc
    · exact ⟨hv, hk⟩
    · exact h.2 c hc

/-- A write in range keeps the canonical form. -/
theorem Memory.wf_write {m : Memory} (h : Memory.wf m) {k : Nat} (hk : k < Config.memSize) (v : Byte) : Memory.wf (Memory.write m k v) := by
  unfold Memory.write
  split
  · exact Memory.wf_erase h k
  · rename_i hv
    exact Memory.wf_insert (Memory.wf_erase h k) hv hk fun c hc => (Memory.mem_erase hc).2

/-- A copy in range keeps the canonical form. -/
theorem Memory.wf_writeBytes {m : Memory} (h : Memory.wf m) {k : Nat} {bs : List Byte} (hk : k + bs.length ≤ Config.memSize) :
    Memory.wf (Memory.writeBytes m k bs) := by
  induction bs generalizing m k with
  | nil => exact h
  | cons b bs ih =>
    simp only [List.length_cons] at hk
    exact ih (Memory.wf_write h (by omega) b) (by omega)

end Sys2Proof.Machine
end

