-- ==== Sys2Proof/Laws/State.lean ====
section
/-! SUPPORT. The state under its named updates: one lemma per field per update, each true by unfolding once. -/

namespace Sys2Proof.Machine

/-! ## Registers read after a write -/

@[simp] theorem getReg_setReg_same (s : State) (r : Reg) (v : Word) : (s.setReg r v).getReg r = v := by cases r <;> rfl

theorem getReg_setReg_ne (s : State) (r q : Reg) (v : Word) (h : q ≠ r) : (s.setReg r v).getReg q = s.getReg q := by
  cases r <;> cases q <;> first | rfl | exact absurd rfl h

@[simp] theorem getReg_setReg (s : State) (r q : Reg) (v : Word) : (s.setReg r v).getReg q = if q = r then v else s.getReg q := by
  by_cases h : q = r
  · subst h; simp
  · simp [h, getReg_setReg_ne]

@[simp] theorem getSeg_setSeg_same (s : State) (j : SReg) (v : Word) : (s.setSeg j v).getSeg j = v := by cases j <;> rfl

theorem getSeg_setSeg_ne (s : State) (j k : SReg) (v : Word) (h : k ≠ j) : (s.setSeg j v).getSeg k = s.getSeg k := by
  cases j <;> cases k <;> first | rfl | exact absurd rfl h

@[simp] theorem getSeg_setSeg (s : State) (j k : SReg) (v : Word) : (s.setSeg j v).getSeg k = if k = j then v else s.getSeg k := by
  by_cases h : k = j
  · subst h; simp
  · simp [h, getSeg_setSeg_ne]

/-- Two states with the same registers read alike. -/
theorem getReg_congr {s t : State} (h : t.regs = s.regs) (r : Reg) : t.getReg r = s.getReg r := by cases r <;> simp [State.getReg, h]

/-- Two states with the same segment registers read alike. -/
theorem getSeg_congr {s t : State} (h : t.segs = s.segs) (j : SReg) : t.getSeg j = s.getSeg j := by cases j <;> simp [State.getSeg, h]

@[simp] theorem getReg_withMem (s : State) (m : Memory) (r : Reg) : State.getReg { s with mem := m } r = s.getReg r := by cases r <;> rfl

@[simp] theorem getSeg_withMem (s : State) (m : Memory) (j : SReg) : State.getSeg { s with mem := m } j = s.getSeg j := by cases j <;> rfl

/-! ## setReg: write of a general register -/

@[simp] theorem setReg_segs (s : State) (r : Reg) (v : Word) : (s.setReg r v).segs = s.segs := rfl
@[simp] theorem setReg_pc (s : State) (r : Reg) (v : Word) : (s.setReg r v).pc = s.pc := rfl
@[simp] theorem setReg_flags (s : State) (r : Reg) (v : Word) : (s.setReg r v).flags = s.flags := rfl
@[simp] theorem setReg_mem (s : State) (r : Reg) (v : Word) : (s.setReg r v).mem = s.mem := rfl
@[simp] theorem setReg_pending (s : State) (r : Reg) (v : Word) : (s.setReg r v).pending = s.pending := rfl
@[simp] theorem setReg_pvec (s : State) (r : Reg) (v : Word) : (s.setReg r v).pvec = s.pvec := rfl
@[simp] theorem setReg_halted (s : State) (r : Reg) (v : Word) : (s.setReg r v).halted = s.halted := rfl
@[simp] theorem setReg_waiting (s : State) (r : Reg) (v : Word) : (s.setReg r v).waiting = s.waiting := rfl
@[simp] theorem setReg_error (s : State) (r : Reg) (v : Word) : (s.setReg r v).error = s.error := rfl
@[simp] theorem setReg_errmsg (s : State) (r : Reg) (v : Word) : (s.setReg r v).errmsg = s.errmsg := rfl
@[simp] theorem setReg_cycles (s : State) (r : Reg) (v : Word) : (s.setReg r v).cycles = s.cycles := rfl
@[simp] theorem setReg_instructions (s : State) (r : Reg) (v : Word) : (s.setReg r v).instructions = s.instructions := rfl
@[simp] theorem setReg_lastOpcode (s : State) (r : Reg) (v : Word) : (s.setReg r v).lastOpcode = s.lastOpcode := rfl
@[simp] theorem setReg_lastAddress (s : State) (r : Reg) (v : Word) : (s.setReg r v).lastAddress = s.lastAddress := rfl
@[simp] theorem setReg_lastData (s : State) (r : Reg) (v : Word) : (s.setReg r v).lastData = s.lastData := rfl
@[simp] theorem setReg_getSeg (s : State) (r : Reg) (v : Word) (q : SReg) : (s.setReg r v).getSeg q = s.getSeg q := getSeg_congr rfl q
@[simp] theorem setReg_byteAt (s : State) (r : Reg) (v : Word) (a : Nat) : (s.setReg r v).byteAt a = s.byteAt a := rfl

/-! ## setSeg: write of a segment register -/

@[simp] theorem setSeg_regs (s : State) (j : SReg) (v : Word) : (s.setSeg j v).regs = s.regs := rfl
@[simp] theorem setSeg_pc (s : State) (j : SReg) (v : Word) : (s.setSeg j v).pc = s.pc := rfl
@[simp] theorem setSeg_flags (s : State) (j : SReg) (v : Word) : (s.setSeg j v).flags = s.flags := rfl
@[simp] theorem setSeg_mem (s : State) (j : SReg) (v : Word) : (s.setSeg j v).mem = s.mem := rfl
@[simp] theorem setSeg_pending (s : State) (j : SReg) (v : Word) : (s.setSeg j v).pending = s.pending := rfl
@[simp] theorem setSeg_pvec (s : State) (j : SReg) (v : Word) : (s.setSeg j v).pvec = s.pvec := rfl
@[simp] theorem setSeg_halted (s : State) (j : SReg) (v : Word) : (s.setSeg j v).halted = s.halted := rfl
@[simp] theorem setSeg_waiting (s : State) (j : SReg) (v : Word) : (s.setSeg j v).waiting = s.waiting := rfl
@[simp] theorem setSeg_error (s : State) (j : SReg) (v : Word) : (s.setSeg j v).error = s.error := rfl
@[simp] theorem setSeg_errmsg (s : State) (j : SReg) (v : Word) : (s.setSeg j v).errmsg = s.errmsg := rfl
@[simp] theorem setSeg_cycles (s : State) (j : SReg) (v : Word) : (s.setSeg j v).cycles = s.cycles := rfl
@[simp] theorem setSeg_instructions (s : State) (j : SReg) (v : Word) : (s.setSeg j v).instructions = s.instructions := rfl
@[simp] theorem setSeg_lastOpcode (s : State) (j : SReg) (v : Word) : (s.setSeg j v).lastOpcode = s.lastOpcode := rfl
@[simp] theorem setSeg_lastAddress (s : State) (j : SReg) (v : Word) : (s.setSeg j v).lastAddress = s.lastAddress := rfl
@[simp] theorem setSeg_lastData (s : State) (j : SReg) (v : Word) : (s.setSeg j v).lastData = s.lastData := rfl
@[simp] theorem setSeg_getReg (s : State) (j : SReg) (v : Word) (q : Reg) : (s.setSeg j v).getReg q = s.getReg q := getReg_congr rfl q
@[simp] theorem setSeg_byteAt (s : State) (j : SReg) (v : Word) (a : Nat) : (s.setSeg j v).byteAt a = s.byteAt a := rfl

/-! ## setPc: write of pc -/

@[simp] theorem setPc_regs (s : State) (v : Word) : (s.setPc v).regs = s.regs := rfl
@[simp] theorem setPc_segs (s : State) (v : Word) : (s.setPc v).segs = s.segs := rfl
@[simp] theorem setPc_flags (s : State) (v : Word) : (s.setPc v).flags = s.flags := rfl
@[simp] theorem setPc_mem (s : State) (v : Word) : (s.setPc v).mem = s.mem := rfl
@[simp] theorem setPc_pending (s : State) (v : Word) : (s.setPc v).pending = s.pending := rfl
@[simp] theorem setPc_pvec (s : State) (v : Word) : (s.setPc v).pvec = s.pvec := rfl
@[simp] theorem setPc_halted (s : State) (v : Word) : (s.setPc v).halted = s.halted := rfl
@[simp] theorem setPc_waiting (s : State) (v : Word) : (s.setPc v).waiting = s.waiting := rfl
@[simp] theorem setPc_error (s : State) (v : Word) : (s.setPc v).error = s.error := rfl
@[simp] theorem setPc_errmsg (s : State) (v : Word) : (s.setPc v).errmsg = s.errmsg := rfl
@[simp] theorem setPc_cycles (s : State) (v : Word) : (s.setPc v).cycles = s.cycles := rfl
@[simp] theorem setPc_instructions (s : State) (v : Word) : (s.setPc v).instructions = s.instructions := rfl
@[simp] theorem setPc_lastOpcode (s : State) (v : Word) : (s.setPc v).lastOpcode = s.lastOpcode := rfl
@[simp] theorem setPc_lastAddress (s : State) (v : Word) : (s.setPc v).lastAddress = s.lastAddress := rfl
@[simp] theorem setPc_lastData (s : State) (v : Word) : (s.setPc v).lastData = s.lastData := rfl
@[simp] theorem setPc_pc (s : State) (v : Word) : (s.setPc v).pc = v := rfl
@[simp] theorem setPc_getReg (s : State) (v : Word) (q : Reg) : (s.setPc v).getReg q = s.getReg q := getReg_congr rfl q
@[simp] theorem setPc_getSeg (s : State) (v : Word) (q : SReg) : (s.setPc v).getSeg q = s.getSeg q := getSeg_congr rfl q
@[simp] theorem setPc_byteAt (s : State) (v : Word) (a : Nat) : (s.setPc v).byteAt a = s.byteAt a := rfl

/-! ## setFlags: write of the flags -/

@[simp] theorem setFlags_regs (s : State) (f : Flags) : (s.setFlags f).regs = s.regs := rfl
@[simp] theorem setFlags_segs (s : State) (f : Flags) : (s.setFlags f).segs = s.segs := rfl
@[simp] theorem setFlags_pc (s : State) (f : Flags) : (s.setFlags f).pc = s.pc := rfl
@[simp] theorem setFlags_mem (s : State) (f : Flags) : (s.setFlags f).mem = s.mem := rfl
@[simp] theorem setFlags_pending (s : State) (f : Flags) : (s.setFlags f).pending = s.pending := rfl
@[simp] theorem setFlags_pvec (s : State) (f : Flags) : (s.setFlags f).pvec = s.pvec := rfl
@[simp] theorem setFlags_halted (s : State) (f : Flags) : (s.setFlags f).halted = s.halted := rfl
@[simp] theorem setFlags_waiting (s : State) (f : Flags) : (s.setFlags f).waiting = s.waiting := rfl
@[simp] theorem setFlags_error (s : State) (f : Flags) : (s.setFlags f).error = s.error := rfl
@[simp] theorem setFlags_errmsg (s : State) (f : Flags) : (s.setFlags f).errmsg = s.errmsg := rfl
@[simp] theorem setFlags_cycles (s : State) (f : Flags) : (s.setFlags f).cycles = s.cycles := rfl
@[simp] theorem setFlags_instructions (s : State) (f : Flags) : (s.setFlags f).instructions = s.instructions := rfl
@[simp] theorem setFlags_lastOpcode (s : State) (f : Flags) : (s.setFlags f).lastOpcode = s.lastOpcode := rfl
@[simp] theorem setFlags_lastAddress (s : State) (f : Flags) : (s.setFlags f).lastAddress = s.lastAddress := rfl
@[simp] theorem setFlags_lastData (s : State) (f : Flags) : (s.setFlags f).lastData = s.lastData := rfl
@[simp] theorem setFlags_flags (s : State) (f : Flags) : (s.setFlags f).flags = f := rfl
@[simp] theorem setFlags_getReg (s : State) (f : Flags) (q : Reg) : (s.setFlags f).getReg q = s.getReg q := getReg_congr rfl q
@[simp] theorem setFlags_getSeg (s : State) (f : Flags) (q : SReg) : (s.setFlags f).getSeg q = s.getSeg q := getSeg_congr rfl q
@[simp] theorem setFlags_byteAt (s : State) (f : Flags) (a : Nat) : (s.setFlags f).byteAt a = s.byteAt a := rfl

/-! ## setResult: write of a result with its flags -/

@[simp] theorem setResult_segs (s : State) (r : Reg) (res : Word × Flags) : (s.setResult r res).segs = s.segs := rfl
@[simp] theorem setResult_pc (s : State) (r : Reg) (res : Word × Flags) : (s.setResult r res).pc = s.pc := rfl
@[simp] theorem setResult_mem (s : State) (r : Reg) (res : Word × Flags) : (s.setResult r res).mem = s.mem := rfl
@[simp] theorem setResult_pending (s : State) (r : Reg) (res : Word × Flags) : (s.setResult r res).pending = s.pending := rfl
@[simp] theorem setResult_pvec (s : State) (r : Reg) (res : Word × Flags) : (s.setResult r res).pvec = s.pvec := rfl
@[simp] theorem setResult_halted (s : State) (r : Reg) (res : Word × Flags) : (s.setResult r res).halted = s.halted := rfl
@[simp] theorem setResult_waiting (s : State) (r : Reg) (res : Word × Flags) : (s.setResult r res).waiting = s.waiting := rfl
@[simp] theorem setResult_error (s : State) (r : Reg) (res : Word × Flags) : (s.setResult r res).error = s.error := rfl
@[simp] theorem setResult_errmsg (s : State) (r : Reg) (res : Word × Flags) : (s.setResult r res).errmsg = s.errmsg := rfl
@[simp] theorem setResult_cycles (s : State) (r : Reg) (res : Word × Flags) : (s.setResult r res).cycles = s.cycles := rfl
@[simp] theorem setResult_instructions (s : State) (r : Reg) (res : Word × Flags) : (s.setResult r res).instructions = s.instructions := rfl
@[simp] theorem setResult_lastOpcode (s : State) (r : Reg) (res : Word × Flags) : (s.setResult r res).lastOpcode = s.lastOpcode := rfl
@[simp] theorem setResult_lastAddress (s : State) (r : Reg) (res : Word × Flags) : (s.setResult r res).lastAddress = s.lastAddress := rfl
@[simp] theorem setResult_lastData (s : State) (r : Reg) (res : Word × Flags) : (s.setResult r res).lastData = s.lastData := rfl
@[simp] theorem setResult_flags (s : State) (r : Reg) (res : Word × Flags) : (s.setResult r res).flags = res.2 := rfl
@[simp] theorem setResult_getSeg (s : State) (r : Reg) (res : Word × Flags) (q : SReg) : (s.setResult r res).getSeg q = s.getSeg q := getSeg_congr rfl q
@[simp] theorem setResult_getReg (s : State) (r : Reg) (res : Word × Flags) (q : Reg) : (s.setResult r res).getReg q = if q = r then res.1 else s.getReg q := by simp [State.setResult]
@[simp] theorem setResult_byteAt (s : State) (r : Reg) (res : Word × Flags) (a : Nat) : (s.setResult r res).byteAt a = s.byteAt a := rfl

/-! ## errored: engine error -/

@[simp] theorem errored_regs (s : State) (e : EngineError) : (s.errored e).regs = s.regs := rfl
@[simp] theorem errored_segs (s : State) (e : EngineError) : (s.errored e).segs = s.segs := rfl
@[simp] theorem errored_pc (s : State) (e : EngineError) : (s.errored e).pc = s.pc := rfl
@[simp] theorem errored_flags (s : State) (e : EngineError) : (s.errored e).flags = s.flags := rfl
@[simp] theorem errored_mem (s : State) (e : EngineError) : (s.errored e).mem = s.mem := rfl
@[simp] theorem errored_pending (s : State) (e : EngineError) : (s.errored e).pending = s.pending := rfl
@[simp] theorem errored_pvec (s : State) (e : EngineError) : (s.errored e).pvec = s.pvec := rfl
@[simp] theorem errored_waiting (s : State) (e : EngineError) : (s.errored e).waiting = s.waiting := rfl
@[simp] theorem errored_cycles (s : State) (e : EngineError) : (s.errored e).cycles = s.cycles := rfl
@[simp] theorem errored_instructions (s : State) (e : EngineError) : (s.errored e).instructions = s.instructions := rfl
@[simp] theorem errored_lastOpcode (s : State) (e : EngineError) : (s.errored e).lastOpcode = s.lastOpcode := rfl
@[simp] theorem errored_lastAddress (s : State) (e : EngineError) : (s.errored e).lastAddress = s.lastAddress := rfl
@[simp] theorem errored_lastData (s : State) (e : EngineError) : (s.errored e).lastData = s.lastData := rfl
@[simp] theorem errored_halted (s : State) (e : EngineError) : (s.errored e).halted = true := rfl
@[simp] theorem errored_error (s : State) (e : EngineError) : (s.errored e).error = true := rfl
@[simp] theorem errored_errmsg (s : State) (e : EngineError) : (s.errored e).errmsg = some e := rfl
@[simp] theorem errored_getReg (s : State) (e : EngineError) (q : Reg) : (s.errored e).getReg q = s.getReg q := getReg_congr rfl q
@[simp] theorem errored_getSeg (s : State) (e : EngineError) (q : SReg) : (s.errored e).getSeg q = s.getSeg q := getSeg_congr rfl q
@[simp] theorem errored_byteAt (s : State) (e : EngineError) (a : Nat) : (s.errored e).byteAt a = s.byteAt a := rfl

/-! ## noteFetch: note of an opcode fetch -/

@[simp] theorem noteFetch_regs (s : State) (op : Byte) : (s.noteFetch op).regs = s.regs := rfl
@[simp] theorem noteFetch_segs (s : State) (op : Byte) : (s.noteFetch op).segs = s.segs := rfl
@[simp] theorem noteFetch_pc (s : State) (op : Byte) : (s.noteFetch op).pc = s.pc := rfl
@[simp] theorem noteFetch_flags (s : State) (op : Byte) : (s.noteFetch op).flags = s.flags := rfl
@[simp] theorem noteFetch_mem (s : State) (op : Byte) : (s.noteFetch op).mem = s.mem := rfl
@[simp] theorem noteFetch_pending (s : State) (op : Byte) : (s.noteFetch op).pending = s.pending := rfl
@[simp] theorem noteFetch_pvec (s : State) (op : Byte) : (s.noteFetch op).pvec = s.pvec := rfl
@[simp] theorem noteFetch_halted (s : State) (op : Byte) : (s.noteFetch op).halted = s.halted := rfl
@[simp] theorem noteFetch_waiting (s : State) (op : Byte) : (s.noteFetch op).waiting = s.waiting := rfl
@[simp] theorem noteFetch_error (s : State) (op : Byte) : (s.noteFetch op).error = s.error := rfl
@[simp] theorem noteFetch_errmsg (s : State) (op : Byte) : (s.noteFetch op).errmsg = s.errmsg := rfl
@[simp] theorem noteFetch_cycles (s : State) (op : Byte) : (s.noteFetch op).cycles = s.cycles := rfl
@[simp] theorem noteFetch_instructions (s : State) (op : Byte) : (s.noteFetch op).instructions = s.instructions := rfl
@[simp] theorem noteFetch_lastOpcode (s : State) (op : Byte) : (s.noteFetch op).lastOpcode = op := rfl
@[simp] theorem noteFetch_getReg (s : State) (op : Byte) (q : Reg) : (s.noteFetch op).getReg q = s.getReg q := getReg_congr rfl q
@[simp] theorem noteFetch_getSeg (s : State) (op : Byte) (q : SReg) : (s.noteFetch op).getSeg q = s.getSeg q := getSeg_congr rfl q
@[simp] theorem noteFetch_byteAt (s : State) (op : Byte) (a : Nat) : (s.noteFetch op).byteAt a = s.byteAt a := rfl

/-! ## idle: idle step -/

@[simp] theorem idle_regs (s : State) : (s.idle).regs = s.regs := rfl
@[simp] theorem idle_segs (s : State) : (s.idle).segs = s.segs := rfl
@[simp] theorem idle_pc (s : State) : (s.idle).pc = s.pc := rfl
@[simp] theorem idle_flags (s : State) : (s.idle).flags = s.flags := rfl
@[simp] theorem idle_mem (s : State) : (s.idle).mem = s.mem := rfl
@[simp] theorem idle_pending (s : State) : (s.idle).pending = s.pending := rfl
@[simp] theorem idle_pvec (s : State) : (s.idle).pvec = s.pvec := rfl
@[simp] theorem idle_halted (s : State) : (s.idle).halted = s.halted := rfl
@[simp] theorem idle_waiting (s : State) : (s.idle).waiting = s.waiting := rfl
@[simp] theorem idle_error (s : State) : (s.idle).error = s.error := rfl
@[simp] theorem idle_errmsg (s : State) : (s.idle).errmsg = s.errmsg := rfl
@[simp] theorem idle_instructions (s : State) : (s.idle).instructions = s.instructions := rfl
@[simp] theorem idle_lastOpcode (s : State) : (s.idle).lastOpcode = s.lastOpcode := rfl
@[simp] theorem idle_lastAddress (s : State) : (s.idle).lastAddress = s.lastAddress := rfl
@[simp] theorem idle_lastData (s : State) : (s.idle).lastData = s.lastData := rfl
@[simp] theorem idle_cycles (s : State) : (s.idle).cycles = s.cycles + 1 := rfl
@[simp] theorem idle_getReg (s : State) (q : Reg) : (s.idle).getReg q = s.getReg q := getReg_congr rfl q
@[simp] theorem idle_getSeg (s : State) (q : SReg) : (s.idle).getSeg q = s.getSeg q := getSeg_congr rfl q
@[simp] theorem idle_byteAt (s : State) (a : Nat) : (s.idle).byteAt a = s.byteAt a := rfl

/-! ## counted: accumulation of the counters -/

@[simp] theorem counted_regs (s : State) (n : Nat) : (s.counted n).regs = s.regs := rfl
@[simp] theorem counted_segs (s : State) (n : Nat) : (s.counted n).segs = s.segs := rfl
@[simp] theorem counted_pc (s : State) (n : Nat) : (s.counted n).pc = s.pc := rfl
@[simp] theorem counted_flags (s : State) (n : Nat) : (s.counted n).flags = s.flags := rfl
@[simp] theorem counted_mem (s : State) (n : Nat) : (s.counted n).mem = s.mem := rfl
@[simp] theorem counted_pending (s : State) (n : Nat) : (s.counted n).pending = s.pending := rfl
@[simp] theorem counted_pvec (s : State) (n : Nat) : (s.counted n).pvec = s.pvec := rfl
@[simp] theorem counted_halted (s : State) (n : Nat) : (s.counted n).halted = s.halted := rfl
@[simp] theorem counted_waiting (s : State) (n : Nat) : (s.counted n).waiting = s.waiting := rfl
@[simp] theorem counted_error (s : State) (n : Nat) : (s.counted n).error = s.error := rfl
@[simp] theorem counted_errmsg (s : State) (n : Nat) : (s.counted n).errmsg = s.errmsg := rfl
@[simp] theorem counted_lastOpcode (s : State) (n : Nat) : (s.counted n).lastOpcode = s.lastOpcode := rfl
@[simp] theorem counted_lastAddress (s : State) (n : Nat) : (s.counted n).lastAddress = s.lastAddress := rfl
@[simp] theorem counted_lastData (s : State) (n : Nat) : (s.counted n).lastData = s.lastData := rfl
@[simp] theorem counted_cycles (s : State) (n : Nat) : (s.counted n).cycles = s.cycles + n := rfl
@[simp] theorem counted_instructions (s : State) (n : Nat) : (s.counted n).instructions = s.instructions + 1 := rfl
@[simp] theorem counted_getReg (s : State) (n : Nat) (q : Reg) : (s.counted n).getReg q = s.getReg q := getReg_congr rfl q
@[simp] theorem counted_getSeg (s : State) (n : Nat) (q : SReg) : (s.counted n).getSeg q = s.getSeg q := getSeg_congr rfl q
@[simp] theorem counted_byteAt (s : State) (n : Nat) (a : Nat) : (s.counted n).byteAt a = s.byteAt a := rfl

end Sys2Proof.Machine
end

