-- ==== Sys2Proof/Laws/Ops.lean ====
section
/-! SUPPORT. The shared operations over bytes, words and the stack: for each one lemma that says everything it can do. -/

namespace Sys2Proof.Machine

/-! ## Words and their bytes -/

theorem toNat_lowByte (w : Word) : (lowByte w).toNat = w.toNat % 256 := by simp [lowByte]

theorem toNat_highByte (w : Word) : (highByte w).toNat = w.toNat / 256 := by
  have := w.isLt
  simp [highByte, Nat.shiftRight_eq_div_pow]; omega

theorem toNat_wordOfBytes (lo hi : Byte) : (wordOfBytes lo hi).toNat = hi.toNat * 256 + lo.toNat := by
  show (BitVec.toNat (w := 8 + 8) (hi ++ lo)) = _
  rw [BitVec.toNat_append, Nat.shiftLeft_eq, Nat.mul_comm, ← Nat.two_pow_add_eq_or_of_lt lo.isLt]

@[simp] theorem lowByte_wordOfBytes (lo hi : Byte) : lowByte (wordOfBytes lo hi) = lo := by
  apply BitVec.eq_of_toNat_eq; rw [toNat_lowByte, toNat_wordOfBytes]; omega

@[simp] theorem highByte_wordOfBytes (lo hi : Byte) : highByte (wordOfBytes lo hi) = hi := by
  apply BitVec.eq_of_toNat_eq; rw [toNat_highByte, toNat_wordOfBytes]; omega

@[simp] theorem wordOfBytes_lowByte_highByte (w : Word) : wordOfBytes (lowByte w) (highByte w) = w := by
  apply BitVec.eq_of_toNat_eq; rw [toNat_wordOfBytes, toNat_lowByte, toNat_highByte]; omega

theorem lowByte_eq_setWidth (w : Word) : lowByte w = w.setWidth 8 := by
  apply BitVec.eq_of_toNat_eq; rw [toNat_lowByte]; simp

theorem highByte_eq_setWidth (w : Word) : highByte w = (w >>> 8).setWidth 8 := by
  apply BitVec.eq_of_toNat_eq; rw [toNat_highByte]; simp [Nat.shiftRight_eq_div_pow]; omega

/-! ## Reading and writing memory -/

/-- A word at any offset of a segment below 0xF000 is in memory. -/
theorem phys_inRange {seg : Word} (h : seg.toNat ≤ 0xEFFF) (off : Word) : wordInRange (phys seg off) := by
  have := off.isLt
  simp only [wordInRange, phys, Config.memSize]
  omega

/-- The state after a byte is stored. -/
def State.storeByte (s : State) (pa : Nat) (v : Byte) : State := { s with mem := Memory.write s.mem pa v }

/-- The state after a word is stored, low byte first. -/
def State.storeWord (s : State) (pa : Nat) (v : Word) : State :=
  (s.storeByte pa (lowByte v)).storeByte (pa + 1) (highByte v)

theorem readByte_eq_ok {s : State} {pa : Nat} {v : Byte} :
    readByte s pa = .ok v ↔ pa < Config.memSize ∧ v = s.byteAt pa := by
  unfold readByte; split <;> simp [*, eq_comm]

theorem readByte_eq_error {s : State} {pa : Nat} {f : Fault} :
    readByte s pa = .error f ↔ Config.memSize ≤ pa ∧ f = raiseEngine (.addressOutOfRange pa) s := by
  unfold readByte; split <;> simp [eq_comm] <;> omega

theorem writeByte_eq_ok {s t : State} {pa : Nat} {v : Byte} :
    writeByte s pa v = .ok t ↔ pa < Config.memSize ∧ t = s.storeByte pa v := by
  unfold writeByte State.storeByte; split <;> simp [*, eq_comm]

theorem writeByte_eq_error {s : State} {pa : Nat} {v : Byte} {f : Fault} :
    writeByte s pa v = .error f ↔ Config.memSize ≤ pa ∧ f = raiseEngine (.addressOutOfRange pa) s := by
  unfold writeByte; split <;> simp [eq_comm] <;> omega

/-- A word is read exactly when both its bytes are in memory (20_memory.md R64). -/
theorem readWord_eq_ok {s : State} {pa : Nat} {v : Word} :
    readWord s pa = .ok v ↔ wordInRange pa ∧ v = s.wordAt pa := by
  unfold readWord wordInRange State.wordAt
  simp only [bind_eq_ok, readByte_eq_ok, Except.ok.injEq]
  constructor
  · rintro ⟨_, ⟨_, rfl⟩, _, ⟨_, rfl⟩, rfl⟩
    exact ⟨by omega, rfl⟩
  · rintro ⟨h, rfl⟩
    exact ⟨_, ⟨by omega, rfl⟩, _, ⟨h, rfl⟩, rfl⟩

/-- A word read out of range raises at its first byte outside memory (20_memory.md R61, R64). -/
theorem readWord_eq_error {s : State} {pa : Nat} {f : Fault} :
    readWord s pa = .error f ↔ ¬ wordInRange pa ∧ f = raiseEngine (.addressOutOfRange (max pa Config.memSize)) s := by
  unfold readWord wordInRange
  simp only [bind_eq_error, readByte_eq_error, readByte_eq_ok, reduceCtorEq, and_false, exists_false, or_false]
  constructor
  · rintro (⟨h, rfl⟩ | ⟨_, ⟨h, rfl⟩, h', rfl⟩)
    · exact ⟨by omega, by rw [max_eq_left h]⟩
    · exact ⟨by omega, by rw [max_eq_right (by omega)]; congr; omega⟩
  · rintro ⟨h, rfl⟩
    by_cases h' : Config.memSize ≤ pa
    · exact .inl ⟨h', by rw [max_eq_left h']⟩
    · exact .inr ⟨_, ⟨by omega, rfl⟩, by omega, by rw [max_eq_right (by omega)]; congr; omega⟩

/-- A word is written exactly when both its bytes are in memory (20_memory.md R65). -/
theorem writeWord_eq_ok {s t : State} {pa : Nat} {v : Word} :
    writeWord s pa v = .ok t ↔ wordInRange pa ∧ t = s.storeWord pa v := by
  unfold writeWord wordInRange State.storeWord
  simp only [bind_eq_ok, writeByte_eq_ok]
  constructor
  · rintro ⟨_, ⟨_, rfl⟩, h, rfl⟩
    exact ⟨h, rfl⟩
  · rintro ⟨h, rfl⟩
    exact ⟨_, ⟨by omega, rfl⟩, h, rfl⟩

/-- A word written out of range raises at its first byte outside memory, the low byte stored when it is inside (20_memory.md R65). -/
theorem writeWord_eq_error {s : State} {pa : Nat} {v : Word} {f : Fault} :
    writeWord s pa v = .error f ↔ ¬ wordInRange pa ∧
      f = raiseEngine (.addressOutOfRange (max pa Config.memSize))
        (if pa < Config.memSize then s.storeByte pa (lowByte v) else s) := by
  unfold writeWord wordInRange
  simp only [bind_eq_error, writeByte_eq_error, writeByte_eq_ok]
  constructor
  · rintro (⟨h, rfl⟩ | ⟨_, ⟨h, rfl⟩, h', rfl⟩)
    · exact ⟨by omega, by rw [max_eq_left h, if_neg (by omega)]⟩
    · exact ⟨by omega, by rw [max_eq_right (by omega), if_pos h]; congr; omega⟩
  · rintro ⟨h, rfl⟩
    by_cases h' : Config.memSize ≤ pa
    · exact .inl ⟨h', by rw [max_eq_left h', if_neg (by omega)]⟩
    · exact .inr ⟨_, ⟨by omega, rfl⟩, by omega, by rw [max_eq_right (by omega), if_pos (by omega)]; congr; omega⟩

@[simp] theorem storeByte_byteAt (s : State) (pa a : Nat) (v : Byte) :
    (s.storeByte pa v).byteAt a = if a = pa then v else s.byteAt a := Memory.read_write ..

@[simp] theorem storeByte_getReg (s : State) (pa : Nat) (v : Byte) (r : Reg) : (s.storeByte pa v).getReg r = s.getReg r :=
  getReg_congr rfl r

@[simp] theorem storeByte_getSeg (s : State) (pa : Nat) (v : Byte) (j : SReg) : (s.storeByte pa v).getSeg j = s.getSeg j :=
  getSeg_congr rfl j

/-- A store changes memory alone. -/
theorem storeByte_eq (s : State) (pa : Nat) (v : Byte) : s.storeByte pa v = { s with mem := (s.storeByte pa v).mem } := rfl

theorem storeWord_byteAt (s : State) (pa a : Nat) (v : Word) :
    (s.storeWord pa v).byteAt a = if a = pa then lowByte v else if a = pa + 1 then highByte v else s.byteAt a := by
  unfold State.storeWord
  simp only [storeByte_byteAt]
  split <;> split <;> first | rfl | omega

theorem storeWord_byteAt_outside {s : State} {pa a : Nat} (v : Word) (h : ¬ inWord pa a) :
    (s.storeWord pa v).byteAt a = s.byteAt a := by
  unfold inWord at h
  rw [storeWord_byteAt, if_neg (by omega), if_neg (by omega)]

@[simp] theorem storeWord_wordAt (s : State) (pa : Nat) (v : Word) : (s.storeWord pa v).wordAt pa = v := by
  simp [State.wordAt, storeWord_byteAt]

/-- A word apart from the stored one reads as before. -/
theorem storeWord_wordAt_apart {s : State} {pa q : Nat} (v : Word) (h : pa + 2 ≤ q ∨ q + 2 ≤ pa) :
    (s.storeWord pa v).wordAt q = s.wordAt q := by
  unfold State.wordAt
  rw [storeWord_byteAt_outside _ (by unfold inWord; omega), storeWord_byteAt_outside _ (by unfold inWord; omega)]

@[simp] theorem storeWord_getReg (s : State) (pa : Nat) (v : Word) (r : Reg) : (s.storeWord pa v).getReg r = s.getReg r :=
  getReg_congr rfl r

@[simp] theorem storeWord_getSeg (s : State) (pa : Nat) (v : Word) (j : SReg) : (s.storeWord pa v).getSeg j = s.getSeg j :=
  getSeg_congr rfl j

/-- A store changes memory alone. -/
theorem storeWord_eq (s : State) (pa : Nat) (v : Word) : s.storeWord pa v = { s with mem := (s.storeWord pa v).mem } := rfl

theorem wordAt_congr {s t : State} {pa : Nat} (h : ∀ a, inWord pa a → t.byteAt a = s.byteAt a) : t.wordAt pa = s.wordAt pa := by
  unfold State.wordAt
  rw [h pa (.inl rfl), h (pa + 1) (.inr rfl)]

/-! ## The stack -/

theorem pushOffset_zero (s : State) : pushOffset s 0 = s.getReg .sp := by simp [pushOffset]
theorem pushOffset_one (s : State) : pushOffset s 1 = s.getReg .sp - 2#16 := rfl
theorem popOffset_zero (s : State) : popOffset s 0 = s.getReg .sp := by simp [popOffset]

/-- Offsets of two different stack words are at least two apart. -/
theorem pushOffset_apart (s : State) {i j : Nat} (h : i ≠ j) (hi : i ≤ 0x7FFF) (hj : j ≤ 0x7FFF) :
    (pushOffset s i).toNat + 2 ≤ (pushOffset s j).toNat ∨ (pushOffset s j).toNat + 2 ≤ (pushOffset s i).toNat := by
  unfold pushOffset
  rw [BitVec.toNat_sub, BitVec.toNat_sub, BitVec.toNat_ofNat, BitVec.toNat_ofNat]
  have := (s.getReg .sp).isLt
  omega

/-- Two different stack words share no byte. -/
theorem stackAddress_apart (s : State) {i j : Nat} (h : i ≠ j) (hi : i ≤ 0x7FFF) (hj : j ≤ 0x7FFF) :
    stackAddress s (pushOffset s i) + 2 ≤ stackAddress s (pushOffset s j) ∨
      stackAddress s (pushOffset s j) + 2 ≤ stackAddress s (pushOffset s i) := by
  have := pushOffset_apart s h hi hj
  unfold stackAddress phys
  omega

/-- The state after a push. -/
def State.pushed (s : State) (v : Word) : State :=
  (s.setReg .sp (s.getReg .sp - 2#16)).storeWord (stackAddress s (s.getReg .sp - 2#16)) v

/-- A push succeeds exactly when the word below SP is in memory (44_stack_frame.md R280). -/
theorem push_eq_ok {s t : State} {v : Word} :
    push s v = .ok t ↔ wordInRange (stackAddress s (s.getReg .sp - 2#16)) ∧ t = s.pushed v := by
  simp [push, writeWord_eq_ok, State.pushed, stackAddress]

/-- A push out of range raises with SP already decremented (44_stack_frame.md R280). -/
theorem push_eq_error {s : State} {v : Word} {f : Fault} :
    push s v = .error f ↔ writeWord (s.setReg .sp (s.getReg .sp - 2#16)) (stackAddress s (s.getReg .sp - 2#16)) v = .error f := by
  simp [push, stackAddress]

/-- The state after a pop. -/
def State.popped (s : State) : State := s.setReg .sp (s.getReg .sp + 2#16)

/-- A pop succeeds exactly when the word at SP is in memory (44_stack_frame.md R281). -/
theorem pop_eq_ok {s : State} {r : Word × State} :
    pop s = .ok r ↔ wordInRange (stackAddress s (s.getReg .sp)) ∧ r = (s.wordAt (stackAddress s (s.getReg .sp)), s.popped) := by
  simp only [pop, bind_eq_ok, readWord_eq_ok, Except.ok.injEq, stackAddress, State.popped]
  constructor
  · rintro ⟨_, ⟨h, rfl⟩, rfl⟩
    exact ⟨h, rfl⟩
  · rintro ⟨h, rfl⟩
    exact ⟨_, ⟨h, rfl⟩, rfl⟩

/-- The first of several words is popped. -/
theorem pop_first {s : State} {n : Nat} (h : wordsToPop s (n + 1)) :
    pop s = .ok (s.wordAt (stackAddress s (popOffset s 0)), s.popped) := by
  have h0 := h 0 (by omega)
  rw [popOffset_zero] at h0 ⊢
  exact pop_eq_ok.2 ⟨h0, rfl⟩

@[simp] theorem popped_getReg (s : State) (r : Reg) :
    s.popped.getReg r = if r = .sp then s.getReg .sp + 2#16 else s.getReg r := by simp [State.popped]

@[simp] theorem popped_getSeg (s : State) (j : SReg) : s.popped.getSeg j = s.getSeg j := by simp [State.popped]
@[simp] theorem popped_pc (s : State) : s.popped.pc = s.pc := rfl
@[simp] theorem popped_flags (s : State) : s.popped.flags = s.flags := rfl
@[simp] theorem popped_byteAt (s : State) (a : Nat) : s.popped.byteAt a = s.byteAt a := rfl
@[simp] theorem popped_wordAt (s : State) (a : Nat) : s.popped.wordAt a = s.wordAt a := rfl

@[simp] theorem popped_stackAddress (s : State) (off : Word) : stackAddress s.popped off = stackAddress s off := by
  simp [stackAddress]

/-- The offset one pop further up, counted from before or after the first. -/
@[simp] theorem popped_popOffset (s : State) (k : Nat) : popOffset s.popped k = popOffset s (k + 1) := by
  unfold popOffset
  rw [popped_getReg, if_pos rfl]
  apply BitVec.eq_of_toNat_eq
  simp only [BitVec.toNat_add, BitVec.toNat_ofNat]
  omega

theorem popped_words {s : State} {n : Nat} (h : wordsToPop s (n + 1)) : wordsToPop s.popped n := by
  intro k hk
  rw [popped_stackAddress, popped_popOffset]
  exact h (k + 1) (by omega)

@[simp] theorem pushed_getReg (s : State) (v : Word) (r : Reg) :
    (s.pushed v).getReg r = if r = .sp then s.getReg .sp - 2#16 else s.getReg r := by simp [State.pushed]

@[simp] theorem pushed_getSeg (s : State) (v : Word) (j : SReg) : (s.pushed v).getSeg j = s.getSeg j := by simp [State.pushed]

/-- A push changes SP and memory alone. -/
theorem pushed_eq (s : State) (v : Word) :
    s.pushed v = { s with regs := { s.regs with sp := s.getReg .sp - 2#16 }, mem := (s.pushed v).mem } := rfl

/-- The offset one push further down, counted from before or after the first. -/
theorem pushed_pushOffset (s : State) (v : Word) (k : Nat) : pushOffset (s.pushed v) k = pushOffset s (k + 1) := by
  unfold pushOffset
  rw [pushed_getReg, if_pos rfl]
  apply BitVec.eq_of_toNat_eq
  simp only [BitVec.toNat_sub, BitVec.toNat_ofNat]
  omega

theorem pushed_stackAddress (s : State) (v off : Word) : stackAddress (s.pushed v) off = stackAddress s off := by
  simp [stackAddress]

theorem pushed_room {s : State} {n : Nat} (h : roomToPush s (n + 1)) (v : Word) : roomToPush (s.pushed v) n := by
  intro k hk
  rw [pushed_stackAddress, pushed_pushOffset]
  exact h (k + 1) (by omega)

theorem pushed_inPushed {s : State} {n a : Nat} (v : Word) (h : inPushed (s.pushed v) n a) : inPushed s (n + 1) a := by
  obtain ⟨k, hk, ha⟩ := h
  rw [pushed_stackAddress, pushed_pushOffset] at ha
  exact ⟨k + 1, by omega, ha⟩

/-- Words pushed in a row: SP drops by two a word, each word is in its slot, and nothing else changes (44_stack_frame.md R280). -/
theorem pushAll_ok {s : State} {vs : List Word} (h : roomToPush s vs.length) (hlen : vs.length ≤ 0x7FFF) :
    ∃ t, pushAll s vs = .ok t ∧ t = { s with regs := { s.regs with sp := pushOffset s vs.length }, mem := t.mem } ∧
      (∀ k v, vs[k]? = some v → t.wordAt (stackAddress s (pushOffset s (k + 1))) = v) ∧
      ∀ a, ¬ inPushed s vs.length a → t.byteAt a = s.byteAt a := by
  induction vs generalizing s with
  | nil =>
    refine ⟨s, rfl, ?_, by simp, fun a _ => rfl⟩
    simp only [List.length_nil, pushOffset_zero]; rfl
  | cons w vs ih =>
    simp only [List.length_cons] at h hlen
    have h0 : push s w = .ok (s.pushed w) := push_eq_ok.2 ⟨h 0 (by omega), rfl⟩
    obtain ⟨t, ht, hs, hw, hb⟩ := ih (pushed_room h w) (by omega)
    simp only [pushed_stackAddress, pushed_pushOffset] at hw hs
    refine ⟨t, by simp [pushAll, h0, ht], ?_, ?_, ?_⟩
    · rw [hs]; rfl
    · rintro (_ | k) v hv
      · simp only [List.getElem?_cons_zero, Option.some.injEq] at hv
        subst hv
        rw [wordAt_congr (s := s.pushed w) (fun a ha => hb a ?_)]
        · simp [State.pushed, pushOffset_one]
        · rintro ⟨k, hk, hk'⟩
          rw [pushed_stackAddress, pushed_pushOffset] at hk'
          have := stackAddress_apart s (i := 0 + 1) (j := k + 1 + 1) (by omega) (by omega) (by omega)
          unfold inWord at ha hk'
          omega
      · exact hw k v (by simpa using hv)
    · intro a ha
      rw [hb a (fun h' => ha (pushed_inPushed w h'))]
      exact storeWord_byteAt_outside _ fun h' => ha ⟨0, by simp, h'⟩

end Sys2Proof.Machine
end

