-- ==== Sys2Proof/Laws/Evolves.lean ====
section
/-! SUPPORT. What no operation of an instruction does: it leaves the latch, the run state, the counters and the introspection
registers alone, keeps memory in its canonical form, and raises an engine error only in a state it reached that way. -/

namespace Sys2Proof.Machine

/-- A state is another with at most registers, segment registers, pc, flags and memory changed. -/
structure Evolves (s t : State) : Prop where
  latch : t.pending = s.pending ∧ t.pvec = s.pvec
  runState : t.halted = s.halted ∧ t.waiting = s.waiting ∧ t.error = s.error ∧ t.errmsg = s.errmsg
  counters : t.cycles = s.cycles ∧ t.instructions = s.instructions
  introspection : t.lastOpcode = s.lastOpcode ∧ t.lastAddress = s.lastAddress ∧ t.lastData = s.lastData
  wf : Memory.wf s.mem → Memory.wf t.mem

theorem Evolves.refl (s : State) : Evolves s s := ⟨⟨rfl, rfl⟩, ⟨rfl, rfl, rfl, rfl⟩, ⟨rfl, rfl⟩, ⟨rfl, rfl, rfl⟩, id⟩

theorem Evolves.trans {s t u : State} (h : Evolves s t) (k : Evolves t u) : Evolves s u where
  latch := ⟨k.latch.1.trans h.latch.1, k.latch.2.trans h.latch.2⟩
  runState := ⟨k.runState.1.trans h.runState.1, k.runState.2.1.trans h.runState.2.1,
    k.runState.2.2.1.trans h.runState.2.2.1, k.runState.2.2.2.trans h.runState.2.2.2⟩
  counters := ⟨k.counters.1.trans h.counters.1, k.counters.2.trans h.counters.2⟩
  introspection := ⟨k.introspection.1.trans h.introspection.1, k.introspection.2.1.trans h.introspection.2.1,
    k.introspection.2.2.trans h.introspection.2.2⟩
  wf := k.wf ∘ h.wf

theorem Evolves.setReg (s : State) (r : Reg) (v : Word) : Evolves s (s.setReg r v) :=
  ⟨⟨rfl, rfl⟩, ⟨rfl, rfl, rfl, rfl⟩, ⟨rfl, rfl⟩, ⟨rfl, rfl, rfl⟩, id⟩

theorem Evolves.setSeg (s : State) (j : SReg) (v : Word) : Evolves s (s.setSeg j v) :=
  ⟨⟨rfl, rfl⟩, ⟨rfl, rfl, rfl, rfl⟩, ⟨rfl, rfl⟩, ⟨rfl, rfl, rfl⟩, id⟩

theorem Evolves.setPc (s : State) (v : Word) : Evolves s (s.setPc v) :=
  ⟨⟨rfl, rfl⟩, ⟨rfl, rfl, rfl, rfl⟩, ⟨rfl, rfl⟩, ⟨rfl, rfl, rfl⟩, id⟩

theorem Evolves.setFlags (s : State) (f : Flags) : Evolves s (s.setFlags f) :=
  ⟨⟨rfl, rfl⟩, ⟨rfl, rfl, rfl, rfl⟩, ⟨rfl, rfl⟩, ⟨rfl, rfl, rfl⟩, id⟩

theorem Evolves.storeByte {s : State} {pa : Nat} (h : pa < Config.memSize) (v : Byte) : Evolves s (s.storeByte pa v) :=
  ⟨⟨rfl, rfl⟩, ⟨rfl, rfl, rfl, rfl⟩, ⟨rfl, rfl⟩, ⟨rfl, rfl, rfl⟩, fun hw => Memory.wf_write hw h v⟩

/-- A computation started in a state only evolves it: so does its answer's state, and an error it raises is raised in such a state. -/
def OnlyEvolves {α : Type} (s : State) (x : Except Fault α) (state : α → State) : Prop :=
  (∀ a, x = .ok a → Evolves s (state a)) ∧ ∀ f, x = .error f → ∃ e u, f = raiseEngine e u ∧ Evolves s u

theorem OnlyEvolves.ok {α : Type} {s : State} {a : α} {state : α → State} (h : Evolves s (state a)) :
    OnlyEvolves s (.ok a) state := ⟨(fun b hb => by cases hb; exact h), fun f hf => nomatch hf⟩

theorem OnlyEvolves.raise {α : Type} {s u : State} (e : EngineError) {state : α → State} (h : Evolves s u) :
    OnlyEvolves s (.error (raiseEngine e u)) state := ⟨(fun b hb => nomatch hb), fun f hf => by cases hf; exact ⟨e, u, rfl, h⟩⟩

/-- Two computations in a row only evolve the state when each does. -/
theorem OnlyEvolves.bind {α β : Type} {s : State} {x : Except Fault α} {g : α → State} {f : α → Except Fault β} {k : β → State}
    (hx : OnlyEvolves s x g) (hf : ∀ a, x = .ok a → OnlyEvolves (g a) (f a) k) : OnlyEvolves s (x >>= f) k := by
  cases x with
  | error e => exact ⟨(fun b hb => nomatch hb), fun f' hf' => by cases hf'; exact hx.2 e rfl⟩
  | ok a =>
    have h := hx.1 a rfl
    have h' := hf a rfl
    exact ⟨fun b hb => h.trans (h'.1 b hb), fun f' hf' => by
      obtain ⟨e, u, he, hu⟩ := h'.2 f' hf'
      exact ⟨e, u, he, h.trans hu⟩⟩

/-- A computation that only evolves a state does so from any state that evolves to it. -/
theorem OnlyEvolves.after {α : Type} {s t : State} {x : Except Fault α} {g : α → State} (h : Evolves s t) (hx : OnlyEvolves t x g) :
    OnlyEvolves s x g :=
  ⟨fun a ha => h.trans (hx.1 a ha), fun f hf => by obtain ⟨e, u, he, hu⟩ := hx.2 f hf; exact ⟨e, u, he, h.trans hu⟩⟩

/-! ## Memory and stack -/

theorem readByte_evolves (s : State) (pa : Nat) : OnlyEvolves s (readByte s pa) fun _ => s := by
  unfold readByte
  split
  · exact .ok (.refl s)
  · exact .raise _ (.refl s)

theorem writeByte_evolves (s : State) (pa : Nat) (v : Byte) : OnlyEvolves s (writeByte s pa v) id := by
  unfold writeByte
  split
  · exact .ok (Evolves.storeByte ‹_› v)
  · exact .raise _ (.refl s)

theorem readWord_evolves (s : State) (pa : Nat) : OnlyEvolves s (readWord s pa) fun _ => s :=
  (readByte_evolves s pa).bind fun _ _ => (readByte_evolves s (pa + 1)).bind fun _ _ => .ok (.refl s)

theorem writeWord_evolves (s : State) (pa : Nat) (v : Word) : OnlyEvolves s (writeWord s pa v) id :=
  (writeByte_evolves s pa _).bind fun t _ => writeByte_evolves t (pa + 1) _

theorem push_evolves (s : State) (v : Word) : OnlyEvolves s (push s v) id :=
  .after (.setReg ..) (writeWord_evolves ..)

theorem pop_evolves (s : State) : OnlyEvolves s (pop s) fun r => r.2 :=
  (readWord_evolves ..).bind fun _ _ => .ok (Evolves.setReg s .sp _)

theorem pushAll_evolves (s : State) (vs : List Word) : OnlyEvolves s (pushAll s vs) id := by
  induction vs generalizing s with
  | nil => exact .ok (.refl s)
  | cons v vs ih => exact (push_evolves s v).bind fun t _ => ih t

theorem frameWord_evolves (s : State) (k : Nat) : OnlyEvolves s (frameWord s k) fun _ => s := readWord_evolves ..

theorem copyFrames_evolves (s : State) (n : Nat) : OnlyEvolves s (copyFrames s n) id := by
  induction n generalizing s with
  | zero => exact .ok (.refl s)
  | succ n ih =>
    exact .after (.setReg ..) ((readWord_evolves ..).bind fun _ _ => (push_evolves ..).bind fun u _ => ih u)

theorem nestFrames_evolves (s : State) (level : Nat) (frame : Word) : OnlyEvolves s (nestFrames s level frame) id := by
  unfold nestFrames
  split
  · exact .ok (.refl s)
  · exact (copyFrames_evolves s _).bind fun t _ => push_evolves t frame

/-! ## Operands -/

theorem loadOperand_evolves (s : State) (m : Word × Word) : OnlyEvolves s (loadOperand s m) fun _ => s := readWord_evolves ..

theorem storeOperand_evolves (s : State) (m : Word × Word) (v : Word) : OnlyEvolves s (storeOperand s m v) id := writeWord_evolves ..

theorem loadFarPointer_evolves (s : State) (m : Word × Word) : OnlyEvolves s (loadFarPointer s m) fun _ => s :=
  (loadOperand_evolves s m).bind fun _ _ => (loadOperand_evolves s _).bind fun _ _ => .ok (.refl s)

/-! ## Exceptions -/

theorem dispatch_evolves (s : State) (v : Byte) : OnlyEvolves s (dispatch s v) id :=
  (push_evolves s _).bind fun a _ => (push_evolves a _).bind fun b _ => (push_evolves b _).bind fun c _ =>
    .after (.setFlags c _) ((readWord_evolves ..).bind fun _ _ => (readWord_evolves ..).bind fun _ _ =>
      .ok ((Evolves.setPc ..).trans (.setSeg ..)))

theorem returnFromInterrupt_evolves (s : State) : OnlyEvolves s (returnFromInterrupt s) id :=
  (pop_evolves s).bind fun a _ => (pop_evolves a.2).bind fun b _ => (pop_evolves b.2).bind fun c _ =>
    .ok ((Evolves.setPc c.2 a.1).trans ((Evolves.setSeg ..).trans (.setFlags ..)))

/-! ## Strings -/

theorem advanceSource_evolves (s : State) (n : Word) : Evolves s (advanceSource s n) := .setReg ..

theorem advanceDest_evolves (s : State) (n : Word) : Evolves s (advanceDest s n) := .setReg ..

theorem once_evolves (op : StringOp) (s : State) : OnlyEvolves s (op.once s) id := by
  cases op
  · exact (readByte_evolves s _).bind fun _ _ => (writeByte_evolves s _ _).bind fun t _ =>
      .ok ((advanceSource_evolves t _).trans (advanceDest_evolves ..))
  · exact (readWord_evolves s _).bind fun _ _ => (writeWord_evolves s _ _).bind fun t _ =>
      .ok ((advanceSource_evolves t _).trans (advanceDest_evolves ..))
  · exact (writeByte_evolves s _ _).bind fun t _ => .ok (advanceDest_evolves t _)
  · exact (writeWord_evolves s _ _).bind fun t _ => .ok (advanceDest_evolves t _)
  · exact (readByte_evolves s _).bind fun _ _ => .ok ((Evolves.setReg ..).trans (advanceSource_evolves ..))
  · exact (readWord_evolves s _).bind fun _ _ => .ok ((Evolves.setReg ..).trans (advanceSource_evolves ..))
  · exact (readByte_evolves s _).bind fun _ _ => (readByte_evolves s _).bind fun _ _ =>
      .ok ((Evolves.setFlags ..).trans ((advanceSource_evolves ..).trans (advanceDest_evolves ..)))
  · exact (readWord_evolves s _).bind fun _ _ => (readWord_evolves s _).bind fun _ _ =>
      .ok ((Evolves.setFlags ..).trans ((advanceSource_evolves ..).trans (advanceDest_evolves ..)))

theorem repeatLoop_evolves (kind : RepeatKind) (op : StringOp) (n : Nat) (s : State) : OnlyEvolves s (repeatLoop kind op n s) id := by
  induction n generalizing s with
  | zero => exact .ok (.refl s)
  | succ n ih =>
    unfold repeatLoop
    split
    · exact .ok (.refl s)
    · refine (once_evolves op s).bind fun t _ => ?_
      simp only [id]
      refine .after (Evolves.setReg t .cx (t.getReg .cx - 1#16)) ?_
      split
      · exact .ok (.refl _)
      · exact ih _

theorem repeatDriver_evolves (kind : RepeatKind) (next : Byte) (s : State) : OnlyEvolves s (repeatDriver kind next s) id := by
  unfold repeatDriver
  split
  · exact .raise _ (.refl s)
  · exact repeatLoop_evolves ..

/-! ## Fetch -/

theorem fetch8_evolves (s : State) : OnlyEvolves s (fetch8 s) fun r => r.2 :=
  (readByte_evolves ..).bind fun _ _ => .ok (Evolves.setPc s _)

theorem fetchBytes_evolves (n : Nat) (s : State) : OnlyEvolves s (fetchBytes n s) fun r => r.2 := by
  induction n generalizing s with
  | zero => exact .ok (.refl s)
  | succ n ih => exact (fetch8_evolves s).bind fun r _ => (ih r.2).bind fun q _ => .ok (.refl q.2)

end Sys2Proof.Machine
end

