-- ==== Sys2Proof/Laws/Flags.lean ====
section
/-! SUPPORT. The flag derivation in arithmetic terms. -/

namespace Sys2Proof.Machine

/-- The parity formula counts one bits (41_arithmetic_logic.md R150). -/
theorem evenParity_iff (b : Byte) : evenParity b = true ↔ evenOnes b := by
  unfold evenParity evenOnes
  rw [show List.range 8 = [0, 1, 2, 3, 4, 5, 6, 7] from rfl]
  simp only [List.countP_cons, List.countP_nil]
  cases b.getLsbD 0 <;> cases b.getLsbD 1 <;> cases b.getLsbD 2 <;> cases b.getLsbD 3 <;> cases b.getLsbD 4 <;>
    cases b.getLsbD 5 <;> cases b.getLsbD 6 <;> cases b.getLsbD 7 <;> decide

/-- A flag's bit in a word is at its own place alone (10_state.md R34). -/
theorem getLsbD_flagBit (b : Bool) (k i : Nat) : (flagBit b k).getLsbD i = (b && decide (i = k) && decide (i < 16)) := by
  unfold flagBit
  cases b
  · simp
  · simp only [if_true, BitVec.getLsbD_twoPow]
    by_cases h : i = k
    · subst h; simp [Bool.and_comm]
    · simp [h, Ne.symm h]

/-- Bit 15 of a word is set from 0x8000 on. -/
theorem bit15_iff (w : Word) : w.getLsbD 15 = true ↔ 0x8000 ≤ w.toNat := by
  have := w.isLt
  rw [← BitVec.testBit_toNat, Nat.testBit_eq_decide_div_mod_eq]
  simp only [decide_eq_true_eq]
  omega

/-- Bit 15 of a number, as `topBit` reads it. -/
theorem topBit_eq_getLsbD (n : Nat) : topBit n = (BitVec.ofNat 16 n).getLsbD 15 := by
  rw [BitVec.getLsbD_ofNat]; simp [topBit]

theorem describesResult_szp (f : Flags) (r : Word) : describesResult (f.szp r) r :=
  ⟨by simp [Flags.szp], bit15_iff r, by
    show evenParity (lowByte r) = true ↔ _
    rw [evenParity_iff, lowByte_eq_setWidth]⟩

/-- Carry and overflow take no part in the description of a result. -/
theorem describesResult_congr {f g : Flags} {r : Word} (hz : g.z = f.z) (hs : g.s = f.s) (hp : g.p = f.p) (h : describesResult f r) :
    describesResult g r := by unfold describesResult; rw [hz, hs, hp]; exact h

theorem describesResult_add16 (f : Flags) (a : Word) (bw : Nat) : describesResult (add16 f a bw).2 (add16 f a bw).1 :=
  describesResult_congr (f := f.szp (add16 f a bw).1) rfl rfl rfl (describesResult_szp f _)

theorem describesResult_sub16 (f : Flags) (a : Word) (bw : Nat) : describesResult (sub16 f a bw).2 (sub16 f a bw).1 :=
  describesResult_congr (f := f.szp (sub16 f a bw).1) rfl rfl rfl (describesResult_szp f _)

theorem describesResult_logic16 (f : Flags) (r : Word) : describesResult (logic16 f r) r :=
  describesResult_congr (f := f.szp r) rfl rfl rfl (describesResult_szp f _)

/-- A word masked to bit 15 is not zero when bit 15 is set. -/
theorem and_bit15 (w : Word) : (w &&& 0x8000#16 != 0#16) = w.getLsbD 15 := by
  have e : w &&& 0x8000#16 = w &&& BitVec.twoPow 16 15 := rfl
  rw [e, BitVec.and_twoPow]
  split <;> simp_all

/-- Overflow of an addition: bit 15 of the operands agrees and that of the result does not (41_arithmetic_logic.md R151). -/
theorem add16_overflow (f : Flags) (a : Word) (bw : Nat) :
    (add16 f a bw).2.o = ((a.getLsbD 15 ^^ (add16 f a bw).1.getLsbD 15) && (topBit bw ^^ (add16 f a bw).1.getLsbD 15)) := by
  show ((_ &&& 0x8000#16) != 0#16) = _
  rw [and_bit15, topBit_eq_getLsbD]
  simp only [BitVec.getLsbD_and, BitVec.getLsbD_xor]
  rfl

/-- Overflow of a subtraction: bit 15 of the operands differs and that of the result is not the first's (41_arithmetic_logic.md R152). -/
theorem sub16_overflow (f : Flags) (a : Word) (bw : Nat) :
    (sub16 f a bw).2.o = ((a.getLsbD 15 ^^ topBit bw) && (a.getLsbD 15 ^^ (sub16 f a bw).1.getLsbD 15)) := by
  show ((_ &&& 0x8000#16) != 0#16) = _
  rw [and_bit15, topBit_eq_getLsbD]
  simp only [BitVec.getLsbD_and, BitVec.getLsbD_xor]
  rfl

theorem add16_toNat (f : Flags) (a : Word) (bw : Nat) : (add16 f a bw).1.toNat = (a.toNat + bw) % 2 ^ 16 := by
  simp [add16]

theorem sub16_toNat (f : Flags) (a : Word) (bw : Nat) : (sub16 f a bw).1.toNat = (a.toNat + 2 ^ 17 - bw) % 2 ^ 16 := by
  simp [sub16]

/-! ## The flags a derivation leaves alone -/

@[simp] theorem add16_t (f : Flags) (a : Word) (bw : Nat) : (add16 f a bw).2.t = f.t := by cases f; rfl
@[simp] theorem add16_i (f : Flags) (a : Word) (bw : Nat) : (add16 f a bw).2.i = f.i := by cases f; rfl
@[simp] theorem add16_d (f : Flags) (a : Word) (bw : Nat) : (add16 f a bw).2.d = f.d := by cases f; rfl
@[simp] theorem sub16_t (f : Flags) (a : Word) (bw : Nat) : (sub16 f a bw).2.t = f.t := by cases f; rfl
@[simp] theorem sub16_i (f : Flags) (a : Word) (bw : Nat) : (sub16 f a bw).2.i = f.i := by cases f; rfl
@[simp] theorem sub16_d (f : Flags) (a : Word) (bw : Nat) : (sub16 f a bw).2.d = f.d := by cases f; rfl
@[simp] theorem logic16_t (f : Flags) (r : Word) : (logic16 f r).t = f.t := by cases f; rfl
@[simp] theorem logic16_i (f : Flags) (r : Word) : (logic16 f r).i = f.i := by cases f; rfl
@[simp] theorem logic16_d (f : Flags) (r : Word) : (logic16 f r).d = f.d := by cases f; rfl
@[simp] theorem inc16_c (f : Flags) (a : Word) : (inc16 f a).2.c = f.c := by cases f; rfl
@[simp] theorem inc16_t (f : Flags) (a : Word) : (inc16 f a).2.t = f.t := by cases f; rfl
@[simp] theorem inc16_i (f : Flags) (a : Word) : (inc16 f a).2.i = f.i := by cases f; rfl
@[simp] theorem inc16_d (f : Flags) (a : Word) : (inc16 f a).2.d = f.d := by cases f; rfl
@[simp] theorem dec16_c (f : Flags) (a : Word) : (dec16 f a).2.c = f.c := by cases f; rfl
@[simp] theorem dec16_t (f : Flags) (a : Word) : (dec16 f a).2.t = f.t := by cases f; rfl
@[simp] theorem dec16_i (f : Flags) (a : Word) : (dec16 f a).2.i = f.i := by cases f; rfl
@[simp] theorem dec16_d (f : Flags) (a : Word) : (dec16 f a).2.d = f.d := by cases f; rfl

end Sys2Proof.Machine
end

