-- ==== Sys2Proof/Laws/Keeps.lean ====
section
/-! SUPPORT. Frames composed: the frame of each named update, of updates in a row, and of a wider set. -/

namespace Sys2Proof.Machine

variable {s t u : State} {rs rs' : List Reg} {js js' : List SReg} {fs fs' : List Flag} {bs bs' : Nat → Prop}

theorem Keeps.refl : Keeps s s rs js fs bs :=
  ⟨fun _ _ => rfl, fun _ _ => rfl, fun _ _ => rfl, fun _ _ => rfl, ⟨rfl, rfl⟩, ⟨rfl, rfl, rfl, rfl⟩, ⟨rfl, rfl⟩, ⟨rfl, rfl, rfl⟩⟩

/-- What two updates in a row both keep is kept. -/
theorem Keeps.trans (h : Keeps s t rs js fs bs) (k : Keeps t u rs js fs bs) : Keeps s u rs js fs bs where
  regs r hr := (k.regs r hr).trans (h.regs r hr)
  segs j hj := (k.segs j hj).trans (h.segs j hj)
  flags f hf := (k.flags f hf).trans (h.flags f hf)
  bytes a ha := (k.bytes a ha).trans (h.bytes a ha)
  latch := ⟨k.latch.1.trans h.latch.1, k.latch.2.trans h.latch.2⟩
  runState := ⟨k.runState.1.trans h.runState.1, k.runState.2.1.trans h.runState.2.1,
    k.runState.2.2.1.trans h.runState.2.2.1, k.runState.2.2.2.trans h.runState.2.2.2⟩
  counters := ⟨k.counters.1.trans h.counters.1, k.counters.2.trans h.counters.2⟩
  introspection := ⟨k.introspection.1.trans h.introspection.1, k.introspection.2.1.trans h.introspection.2.1,
    k.introspection.2.2.trans h.introspection.2.2⟩

/-- A frame holds for any larger set of exceptions. -/
theorem Keeps.mono (h : Keeps s t rs js fs bs) (hr : ∀ r ∈ rs, r ∈ rs') (hj : ∀ j ∈ js, j ∈ js') (hf : ∀ f ∈ fs, f ∈ fs')
    (hb : ∀ a, bs a → bs' a) : Keeps s t rs' js' fs' bs' where
  regs r h' := h.regs r fun hn => h' (hr r hn)
  segs j h' := h.segs j fun hn => h' (hj j hn)
  flags f h' := h.flags f fun hn => h' (hf f hn)
  bytes a h' := h.bytes a fun hn => h' (hb a hn)
  latch := h.latch
  runState := h.runState
  counters := h.counters
  introspection := h.introspection

theorem Keeps.setReg {r : Reg} (h : r ∈ rs) (v : Word) : Keeps s (s.setReg r v) rs js fs bs :=
  { (Keeps.refl : Keeps s s rs js fs bs) with
    regs := fun q hq => getReg_setReg_ne s r q v fun e => hq (e ▸ h)
    segs := fun j _ => getSeg_congr rfl j }

theorem Keeps.setSeg {j : SReg} (h : j ∈ js) (v : Word) : Keeps s (s.setSeg j v) rs js fs bs :=
  { (Keeps.refl : Keeps s s rs js fs bs) with
    regs := fun q _ => getReg_congr rfl q
    segs := fun q hq => getSeg_setSeg_ne s j q v fun e => hq (e ▸ h) }

theorem Keeps.setPc (v : Word) : Keeps s (s.setPc v) rs js fs bs :=
  { (Keeps.refl : Keeps s s rs js fs bs) with
    regs := fun q _ => getReg_congr rfl q
    segs := fun j _ => getSeg_congr rfl j }

theorem Keeps.setFlags {f : Flags} (h : ∀ x, x ∉ fs → f.get x = s.flags.get x) : Keeps s (s.setFlags f) rs js fs bs :=
  { (Keeps.refl : Keeps s s rs js fs bs) with
    regs := fun q _ => getReg_congr rfl q
    segs := fun j _ => getSeg_congr rfl j
    flags := h }

theorem Keeps.storeByte {pa : Nat} (h : bs pa) (v : Byte) : Keeps s (s.storeByte pa v) rs js fs bs :=
  { (Keeps.refl : Keeps s s rs js fs bs) with
    regs := fun q _ => getReg_congr rfl q
    segs := fun j _ => getSeg_congr rfl j
    bytes := fun a ha => by rw [storeByte_byteAt, if_neg]; exact fun e => ha (e ▸ h) }

theorem Keeps.storeWord {pa : Nat} (h : ∀ a, inWord pa a → bs a) (v : Word) : Keeps s (s.storeWord pa v) rs js fs bs :=
  (Keeps.storeByte (h pa (.inl rfl)) _).trans (Keeps.storeByte (h (pa + 1) (.inr rfl)) _)

/-- The frame of a push. -/
theorem Keeps.pushed (hr : Reg.sp ∈ rs) (h : ∀ a, inWord (stackAddress s (s.getReg .sp - 2#16)) a → bs a) (v : Word) :
    Keeps s (s.pushed v) rs js fs bs := (Keeps.setReg hr _).trans (Keeps.storeWord h v)

/-- The frame of a pop. -/
theorem Keeps.popped (hr : Reg.sp ∈ rs) : Keeps s s.popped rs js fs bs := Keeps.setReg hr _

/-- Words pushed in a row: SP drops by two a word, each word is in its slot, and nothing else changes (44_stack_frame.md R280). -/
theorem pushAll_keeps {vs : List Word} (h : roomToPush s vs.length) (hlen : vs.length ≤ 0x7FFF) :
    ∃ t, pushAll s vs = .ok t ∧ t.getReg .sp = pushOffset s vs.length ∧ t.pc = s.pc ∧
      (∀ k v, vs[k]? = some v → t.wordAt (stackAddress s (pushOffset s (k + 1))) = v) ∧
      Keeps s t [.sp] [] [] (inPushed s vs.length) := by
  obtain ⟨t, ht, he, hw, hb⟩ := pushAll_ok h hlen
  refine ⟨t, ht, by rw [he]; rfl, by rw [he], hw, ?_⟩
  exact
    { regs := fun r hr => by rw [he]; cases r <;> first | rfl | simp at hr
      segs := fun j _ => by rw [he]; cases j <;> rfl
      flags := fun f _ => by rw [he]
      bytes := hb
      latch := by rw [he]; exact ⟨rfl, rfl⟩
      runState := by rw [he]; exact ⟨rfl, rfl, rfl, rfl⟩
      counters := by rw [he]; exact ⟨rfl, rfl⟩
      introspection := by rw [he]; exact ⟨rfl, rfl, rfl⟩ }

/-- The flags of a derivation: only C, P, Z, S and O are written (10_state.md R36). -/
theorem add16_keeps (f : Flags) (a : Word) (bw : Nat) (x : Flag) (h : x ∉ derivedFlags) : (add16 f a bw).2.get x = f.get x := by
  cases x <;> simp_all [derivedFlags, Flags.get]

theorem sub16_keeps (f : Flags) (a : Word) (bw : Nat) (x : Flag) (h : x ∉ derivedFlags) : (sub16 f a bw).2.get x = f.get x := by
  cases x <;> simp_all [derivedFlags, Flags.get]

theorem logic16_keeps (f : Flags) (r : Word) (x : Flag) (h : x ∉ derivedFlags) : (logic16 f r).get x = f.get x := by
  cases x <;> simp_all [derivedFlags, Flags.get]

theorem inc16_keeps (f : Flags) (a : Word) (x : Flag) (h : x ∉ [Flag.p, .z, .s, .o]) : (inc16 f a).2.get x = f.get x := by
  cases x <;> simp_all [Flags.get]

theorem dec16_keeps (f : Flags) (a : Word) (x : Flag) (h : x ∉ [Flag.p, .z, .s, .o]) : (dec16 f a).2.get x = f.get x := by
  cases x <;> simp_all [Flags.get]

/-- The frame of a result written with its flags. -/
theorem Keeps.setResult {r : Reg} (h : r ∈ rs) {res : Word × Flags} (hf : ∀ x, x ∉ fs → res.2.get x = s.flags.get x) :
    Keeps s (s.setResult r res) rs js fs bs := (Keeps.setReg h _).trans (Keeps.setFlags (by simpa using hf))

end Sys2Proof.Machine
end

