-- ==== Sys2Proof/Laws/Exceptions.lean ====
section
/-! SUPPORT. Taking an exception and returning from one: what the two shared operations do. -/

namespace Sys2Proof.Machine

/-- The vector table is inside memory. -/
theorem vectorEntry_inRange (v : Byte) : wordInRange (vectorEntry v) ∧ wordInRange (vectorEntry v + 2) := by
  have := v.isLt
  simp only [vectorEntry, wordInRange, Config.ivtBase, Config.memSize]
  omega

/-- The state after the part of the entry sequence that follows the pushes: I and T clear, pc and CS from the vector's entry. -/
def State.entered (u : State) (v : Byte) : State :=
  ((u.setFlags { u.flags with i := false, t := false }).setPc (u.wordAt (vectorEntry v))).setSeg .cs (u.wordAt (vectorEntry v + 2))

/-- The entry sequence is the three pushes, then the rest, which cannot raise. -/
theorem dispatch_eq (s : State) (v : Byte) :
    dispatch s v = pushAll s [s.flags.pack, s.getSeg .cs, s.pc] >>= fun u => .ok (u.entered v) := by
  have hv := vectorEntry_inRange v
  have tail (u : State) : (do
      let off ← readWord (u.setFlags { u.flags with i := false, t := false }) (vectorEntry v)
      let sg ← readWord (u.setFlags { u.flags with i := false, t := false }) (vectorEntry v + 2)
      .ok (((u.setFlags { u.flags with i := false, t := false }).setPc off).setSeg .cs sg) : Except Fault State) = .ok (u.entered v) := by
    rw [readWord_eq_ok.2 ⟨hv.1, rfl⟩, readWord_eq_ok.2 ⟨hv.2, rfl⟩]; rfl
  unfold dispatch
  simp only [tail, pushAll]
  cases h1 : push s s.flags.pack with
  | error f => rfl
  | ok a =>
    obtain rfl := (push_eq_ok.1 h1).2
    simp only [bind_ok, pushed_getSeg]
    cases h2 : push (s.pushed s.flags.pack) (s.getSeg .cs) with
    | error f => rfl
    | ok b =>
      obtain rfl := (push_eq_ok.1 h2).2
      simp only [bind_ok]
      show (push _ s.pc >>= _) = (push _ s.pc >>= _) >>= _
      cases push ((s.pushed s.flags.pack).pushed (s.getSeg .cs)) s.pc <;> rfl

/-- With room for three words the entry sequence succeeds and does what 60_exceptions.md R360 says. -/
theorem dispatch_ok {s : State} (h : roomToPush s 3) (v : Byte) : ∃ t, dispatch s v = .ok t ∧ entersHandler s t v := by
  obtain ⟨u, hu, hsp, hpc, hw, hk⟩ := pushAll_keeps (s := s) (vs := [s.flags.pack, s.getSeg .cs, s.pc]) h (by simp)
  refine ⟨u.entered v, by rw [dispatch_eq, hu]; rfl, ?_⟩
  refine ⟨hw 0 _ rfl, hw 1 _ rfl, hw 2 _ rfl, by simpa [State.entered] using hsp, rfl, rfl, rfl, by simp [State.entered]; rfl, ?_⟩
  refine (hk.mono (by simp) (by simp) (by simp) (fun _ h => h)).trans ?_
  exact (Keeps.setFlags fun x hx => by cases x <;> first | simp at hx; done | rfl).trans
    ((Keeps.setPc _).trans (Keeps.setSeg (by simp) _))

/-- With three words to pop the return succeeds and restores pc, CS and FLAGS (46_system.md R333). -/
theorem returnFromInterrupt_ok {s : State} (h : wordsToPop s 3) :
    ∃ t, returnFromInterrupt s = .ok t ∧ t.pc = s.wordAt (stackAddress s (popOffset s 0)) ∧
      t.getSeg .cs = s.wordAt (stackAddress s (popOffset s 1)) ∧
      t.flags = Flags.unpack (s.wordAt (stackAddress s (popOffset s 2))) ∧ t.getReg .sp = s.getReg .sp + 6#16 ∧
      Keeps s t [.sp] [.cs] allFlags noBytes := by
  refine ⟨(((s.popped.popped.popped.setPc (s.wordAt (stackAddress s (popOffset s 0)))).setSeg .cs
    (s.wordAt (stackAddress s (popOffset s 1)))).setFlags (Flags.unpack (s.wordAt (stackAddress s (popOffset s 2))))),
    by simp [returnFromInterrupt, pop_first h, pop_first (popped_words h), pop_first (popped_words (popped_words h))],
    ?_, ?_, ?_, ?_, ?_⟩
  · simp
  · simp
  · simp
  · simp [BitVec.add_assoc]
  · exact (Keeps.popped (by simp)).trans ((Keeps.popped (by simp)).trans ((Keeps.popped (by simp)).trans
      ((Keeps.setPc _).trans ((Keeps.setSeg (j := .cs) (by simp) _).trans (Keeps.setFlags fun x hx => by cases x <;> simp [allFlags] at hx)))))

end Sys2Proof.Machine
end

