-- ==== Sys2Proof/Laws/Frames.lean ====
section
/-! SUPPORT. The frame of each shared operation whenever it succeeds, whatever the state. -/

namespace Sys2Proof.Machine

/-- Any address: what an operation that may store anywhere stores to. -/
def anyByte (_ : Nat) : Prop := True

theorem pushAll_frame {s t : State} {vs : List Word} (h : pushAll s vs = .ok t) :
    t.pc = s.pc ∧ Keeps s t [.sp] [] [] anyByte := by
  induction vs generalizing s with
  | nil => cases h; exact ⟨rfl, .refl⟩
  | cons v vs ih =>
    obtain ⟨u, hu, ht⟩ := bind_eq_ok.1 h
    obtain ⟨-, rfl⟩ := push_eq_ok.1 hu
    obtain ⟨h1, h2⟩ := ih ht
    exact ⟨h1, (Keeps.pushed (by simp) (fun _ _ => trivial) v).trans h2⟩

theorem dispatch_frame {s t : State} {v : Byte} (h : dispatch s v = .ok t) :
    t.flags.i = false ∧ t.flags.t = false ∧ Keeps s t [.sp] [.cs] [.i, .t] anyByte := by
  rw [dispatch_eq] at h
  obtain ⟨u, hu, ht⟩ := bind_eq_ok.1 h
  cases ht
  refine ⟨rfl, rfl, ((pushAll_frame hu).2.mono (by simp) (by simp) (by simp) fun _ h => h).trans ?_⟩
  exact (Keeps.setFlags fun x hx => by cases x <;> first | simp at hx; done | rfl).trans
    ((Keeps.setPc _).trans (Keeps.setSeg (by simp) _))

theorem returnFromInterrupt_frame {s t : State} (h : returnFromInterrupt s = .ok t) : Keeps s t [.sp] [.cs] allFlags noBytes := by
  obtain ⟨⟨_, _⟩, h1, h⟩ := bind_eq_ok.1 h
  obtain ⟨⟨_, _⟩, h2, h⟩ := bind_eq_ok.1 h
  obtain ⟨⟨_, _⟩, h3, h⟩ := bind_eq_ok.1 h
  cases (pop_eq_ok.1 h1).2
  cases (pop_eq_ok.1 h2).2
  cases (pop_eq_ok.1 h3).2
  cases h
  exact (Keeps.popped (by simp)).trans ((Keeps.popped (by simp)).trans ((Keeps.popped (by simp)).trans
    ((Keeps.setPc _).trans ((Keeps.setSeg (j := .cs) (by simp) _).trans (Keeps.setFlags fun x hx => by cases x <;> simp [allFlags] at hx)))))

theorem copyFrames_frame {n : Nat} {s t : State} (h : copyFrames s n = .ok t) : t.pc = s.pc ∧ Keeps s t [.sp, .bp] [] [] anyByte := by
  induction n generalizing s with
  | zero => cases h; exact ⟨rfl, .refl⟩
  | succ n ih =>
    simp only [copyFrames, bind_eq_ok, push_eq_ok] at h
    obtain ⟨w, -, u, ⟨-, rfl⟩, h⟩ := h
    obtain ⟨h1, h2⟩ := ih h
    exact ⟨h1, (Keeps.setReg (by simp) _).trans ((Keeps.pushed (by simp) (fun _ _ => trivial) w).trans h2)⟩

/-- The chain copy of ENTER: `n` words are pushed, BP steps down by two a word, and a word that the pushes do not overwrite before
it is read is the one below the old BP (44_stack_frame.md R286). -/
theorem copyFrames_ok {n : Nat} {s : State} (hr : roomToPush s n) (hn : n ≤ 0x7FFF)
    (hc : ∀ k, 1 ≤ k → k ≤ n → wordInRange (stackAddress s (s.getReg .bp - BitVec.ofNat 16 (2 * k)))) :
    ∃ t, copyFrames s n = .ok t ∧ t.getReg .sp = pushOffset s n ∧ t.getReg .bp = s.getReg .bp - BitVec.ofNat 16 (2 * n) ∧ t.pc = s.pc ∧
      Keeps s t [.sp, .bp] [] [] (inPushed s n) ∧
      ∀ k, 1 ≤ k → k ≤ n → (∀ a, inWord (stackAddress s (s.getReg .bp - BitVec.ofNat 16 (2 * k))) a → ¬ inPushed s n a) →
        t.wordAt (stackAddress s (pushOffset s k)) = s.wordAt (stackAddress s (s.getReg .bp - BitVec.ofNat 16 (2 * k))) := by
  induction n generalizing s with
  | zero => exact ⟨s, rfl, (pushOffset_zero s).symm, by simp, rfl, .refl, fun k _ _ => by omega⟩
  | succ n ih =>
    let w := s.wordAt (stackAddress s (s.getReg .bp - 2#16))
    let a := s.setReg .bp (s.getReg .bp - 2#16)
    let u := a.pushed w
    have h1 : readWord a (phys (a.getSeg .ss) (a.getReg .bp)) = .ok w := by
      refine readWord_eq_ok.2 ⟨?_, ?_⟩
      · simpa [a, stackAddress] using hc 1 (by omega) (by omega)
      · simp [a, w, stackAddress]; rfl
    have h2 : push a w = .ok u := push_eq_ok.2 ⟨by simpa [a, stackAddress, pushOffset] using hr 0 (by omega), rfl⟩
    have po : ∀ k, pushOffset u k = pushOffset s (k + 1) := by
      intro k; rw [pushed_pushOffset]; simp [pushOffset, a]
    have sa : ∀ o, stackAddress u o = stackAddress s o := by intro o; simp [stackAddress, u, a]
    have bpu : u.getReg .bp = s.getReg .bp - 2#16 := by simp [u, a]
    have bpk : ∀ k, u.getReg .bp - BitVec.ofNat 16 (2 * k) = s.getReg .bp - BitVec.ofNat 16 (2 * (k+1)) := by
      intro k; rw [bpu]; apply BitVec.eq_of_toNat_eq; simp only [BitVec.toNat_sub, BitVec.toNat_ofNat]; omega
    have ip : ∀ x, inPushed u n x → inPushed s (n+1) x := by
      rintro x ⟨k, hk, hx⟩; rw [sa, po] at hx; exact ⟨k+1, by omega, hx⟩
    obtain ⟨t, ht, e1, e2, e3, ek, ew⟩ := ih (s := u) (fun k hk => by rw [sa, po]; exact hr (k+1) (by omega)) (by omega)
      (fun k hk hk' => by rw [sa, bpk]; exact hc (k+1) (by omega) (by omega))
    have um : ∀ x, u.byteAt x = (s.storeWord (stackAddress s (pushOffset s 1)) w).byteAt x := by
      intro x
      show (a.pushed w).byteAt x = _
      unfold State.pushed
      rw [storeWord_byteAt, storeWord_byteAt]
      simp [a, stackAddress, pushOffset, State.byteAt]
    have hk0 : Keeps s u [.sp, .bp] [] [] (inPushed s (n+1)) := by
      refine (Keeps.setReg (by simp) _).trans (Keeps.pushed (by simp) (fun x hx => ?_) _)
      refine ⟨0, by omega, ?_⟩
      simpa [a, stackAddress, pushOffset] using hx
    refine ⟨t, ?_, ?_, ?_, e3, hk0.trans (ek.mono (by simp) (by simp) (by simp) ip), ?_⟩
    · show (readWord a _ >>= fun w => push a w >>= fun u => copyFrames u n) = _
      rw [h1, bind_ok, h2, bind_ok, ht]
    · rw [e1, po]
    · rw [e2, bpk]
    · intro k hk hk' hx
      by_cases h : k = 1
      · subst h
        have : t.wordAt (stackAddress s (pushOffset s 1)) = u.wordAt (stackAddress s (pushOffset s 1)) := by
          apply wordAt_congr
          intro x hxx
          apply ek.bytes
          rintro ⟨k, hk, hkk⟩
          rw [sa, po] at hkk
          have := stackAddress_apart s (i := 1) (j := k + 1 + 1) (by omega) (by omega) (by omega)
          unfold inWord at *; omega
        rw [this]
        have : u.wordAt (stackAddress s (pushOffset s 1)) = (s.storeWord (stackAddress s (pushOffset s 1)) w).wordAt (stackAddress s (pushOffset s 1)) := wordAt_congr fun x _ => um x
        rw [this, storeWord_wordAt]
      · obtain ⟨j, rfl⟩ : ∃ j, k = j + 1 := ⟨k - 1, by omega⟩
        have := ew j (by omega) (by omega) (by
          intro x hxx hp
          rw [sa, bpk] at hxx
          exact hx x hxx (ip x hp))
        rw [sa, sa, po, bpk] at this
        rw [this]
        apply wordAt_congr
        intro x hxx
        exact hk0.bytes x (hx x hxx)

theorem nestFrames_frame {s t : State} {level : Nat} {frame : Word} (h : nestFrames s level frame = .ok t) :
    t.pc = s.pc ∧ Keeps s t [.sp, .bp] [] [] anyByte := by
  unfold nestFrames at h
  split at h
  · cases h; exact ⟨rfl, .refl⟩
  · obtain ⟨u, hu, h⟩ := bind_eq_ok.1 h
    obtain ⟨-, rfl⟩ := push_eq_ok.1 h
    obtain ⟨h1, h2⟩ := copyFrames_frame hu
    exact ⟨h1, h2.trans (Keeps.pushed (by simp) (fun _ _ => trivial) frame)⟩

end Sys2Proof.Machine
end

