-- ==== Sys2Proof/Laws/Fetch.lean ====
section
/-! SUPPORT. The fetch unit and the acceptance of an interrupt: what each does, and what of the control state each keeps. -/

namespace Sys2Proof.Machine

theorem fetch8_eq_ok {s : State} {r : Byte × State} :
    fetch8 s = .ok r ↔ phys (s.getSeg .cs) s.pc < Config.memSize ∧
      r = (s.byteAt (phys (s.getSeg .cs) s.pc), s.setPc (s.pc + 1#16)) := by
  simp only [fetch8, bind_eq_ok, readByte_eq_ok, Except.ok.injEq]
  constructor
  · rintro ⟨_, ⟨h, rfl⟩, rfl⟩
    exact ⟨h, rfl⟩
  · rintro ⟨h, rfl⟩
    exact ⟨_, ⟨h, rfl⟩, rfl⟩

theorem bytesAtPc_cons {s : State} {b : Byte} {bs : List Byte} (h : bytesAtPc s (b :: bs)) :
    fetch8 s = .ok (b, s.setPc (s.pc + 1#16)) ∧ bytesAtPc (s.setPc (s.pc + 1#16)) bs := by
  constructor
  · have h0 := h 0 b rfl
    rw [BitVec.add_zero] at h0
    exact fetch8_eq_ok.2 ⟨h0.1, by rw [h0.2]⟩
  · intro k c hk
    have hk' := h (k + 1) c (by simpa using hk)
    have e : s.pc + 1#16 + BitVec.ofNat 16 k = s.pc + BitVec.ofNat 16 (k + 1) := by
      apply BitVec.eq_of_toNat_eq
      simp only [BitVec.toNat_add, BitVec.toNat_ofNat]
      omega
    simpa only [setPc_getSeg, setPc_pc, setPc_byteAt, e] using hk'

/-- Bytes that are all in memory are fetched in order, and pc ends past them (40_step_fetch_dispatch.md R125 to R127). -/
theorem fetchBytes_ok {s : State} {bytes : List Byte} (h : bytesAtPc s bytes) :
    fetchBytes bytes.length s = .ok (bytes, s.setPc (s.pc + BitVec.ofNat 16 bytes.length)) := by
  induction bytes generalizing s with
  | nil =>
    have e : s.setPc (s.pc + BitVec.ofNat 16 0) = s := by
      rw [BitVec.add_zero]; rfl
    simp only [List.length_nil, fetchBytes, e]
  | cons b bs ih =>
    obtain ⟨h1, h2⟩ := bytesAtPc_cons h
    have e : s.pc + 1#16 + BitVec.ofNat 16 bs.length = s.pc + BitVec.ofNat 16 (bs.length + 1) := by
      apply BitVec.eq_of_toNat_eq
      simp only [BitVec.toNat_add, BitVec.toNat_ofNat]
      omega
    simp only [List.length_cons, fetchBytes, h1, bind_ok, ih h2, setPc_pc, e]
    rfl

/-- What is kept up to the instruction of a step: the error state and the counters; memory stays in canonical form. -/
structure Progresses (s t : State) : Prop where
  errorState : t.halted = s.halted ∧ t.error = s.error ∧ t.errmsg = s.errmsg
  counters : t.cycles = s.cycles ∧ t.instructions = s.instructions
  wf : Memory.wf s.mem → Memory.wf t.mem

theorem Evolves.progresses {s t : State} (h : Evolves s t) : Progresses s t :=
  ⟨⟨h.runState.1, h.runState.2.2.1, h.runState.2.2.2⟩, h.counters, h.wf⟩

theorem Progresses.trans {s t u : State} (h : Progresses s t) (k : Progresses t u) : Progresses s u where
  errorState := ⟨k.errorState.1.trans h.errorState.1, k.errorState.2.1.trans h.errorState.2.1, k.errorState.2.2.trans h.errorState.2.2⟩
  counters := ⟨k.counters.1.trans h.counters.1, k.counters.2.trans h.counters.2⟩
  wf := k.wf ∘ h.wf

/-- `OnlyEvolves` for the weaker relation. -/
def OnlyProgresses {α : Type} (s : State) (x : Except Fault α) (state : α → State) : Prop :=
  (∀ a, x = .ok a → Progresses s (state a)) ∧ ∀ f, x = .error f → ∃ e u, f = raiseEngine e u ∧ Progresses s u

theorem OnlyEvolves.progresses {α : Type} {s : State} {x : Except Fault α} {g : α → State} (h : OnlyEvolves s x g) : OnlyProgresses s x g :=
  ⟨fun a ha => (h.1 a ha).progresses, fun f hf => by obtain ⟨e, u, he, hu⟩ := h.2 f hf; exact ⟨e, u, he, hu.progresses⟩⟩

theorem OnlyProgresses.bind {α β : Type} {s : State} {x : Except Fault α} {g : α → State} {f : α → Except Fault β} {k : β → State}
    (hx : OnlyProgresses s x g) (hf : ∀ a, x = .ok a → OnlyProgresses (g a) (f a) k) : OnlyProgresses s (x >>= f) k := by
  constructor
  · intro b hb
    obtain ⟨a, ha, hb⟩ := bind_eq_ok.1 hb
    exact (hx.1 a ha).trans ((hf a ha).1 b hb)
  · intro e he
    rcases bind_eq_error.1 he with h | ⟨a, ha, h⟩
    · exact hx.2 e h
    · obtain ⟨e', u, h1, h2⟩ := (hf a ha).2 e h
      exact ⟨e', u, h1, (hx.1 a ha).trans h2⟩

theorem OnlyProgresses.after {α : Type} {s t : State} {x : Except Fault α} {g : α → State} (h : Progresses s t)
    (hx : OnlyProgresses t x g) : OnlyProgresses s x g :=
  ⟨fun a ha => h.trans (hx.1 a ha), fun f hf => by obtain ⟨e, u, he, hu⟩ := hx.2 f hf; exact ⟨e, u, he, h.trans hu⟩⟩

theorem fetchInstr_progresses (s : State) : OnlyProgresses s (fetchInstr s) fun r => r.2 := by
  refine (fetch8_evolves s).progresses.bind fun r _ => ?_
  have hn : Progresses r.2 (r.2.noteFetch r.1) := ⟨⟨rfl, rfl, rfl⟩, ⟨rfl, rfl⟩, id⟩
  refine .after hn ?_
  simp only
  split
  · exact (OnlyEvolves.raise _ (.refl _)).progresses
  · refine (fetchBytes_evolves _ _).progresses.bind fun q _ => OnlyEvolves.progresses ?_
    exact OnlyEvolves.ok (Evolves.refl q.2)

theorem acceptInterrupt_progresses (s : State) : OnlyProgresses s (acceptInterrupt s) id := by
  unfold acceptInterrupt
  split
  · exact .after (t := { s with waiting := false, pending := false }) ⟨⟨rfl, rfl, rfl⟩, ⟨rfl, rfl⟩, id⟩
      (dispatch_evolves _ _).progresses
  · exact (OnlyEvolves.ok (Evolves.refl s)).progresses

/-- Without an enabled request acceptance does nothing. -/
theorem acceptInterrupt_none {s : State} (h : ¬ (s.pending = true ∧ s.flags.i = true)) : acceptInterrupt s = .ok s := by
  rw [acceptInterrupt, if_neg]
  simpa [State.interruptReady] using h

/-- A core that is ready to fetch does so (40_step_fetch_dispatch.md R120). -/
theorem step_ready {s : State} (h : readyToFetch s) :
    step s = match fetchInstr s with
      | .error f => .fault f
      | .ok (i, t) => account (instructionCost i t) (exec i t) := by
  obtain ⟨h1, h2, h3, h4⟩ := h
  simp only [step, h1, h2, h3, acceptInterrupt_none h4]
  rfl

end Sys2Proof.Machine
end

