-- ==== Sys2Proof/Laws/Operands.lean ====
section
/-! SUPPORT. The operand forms: memory operands, far pointers and relative targets. -/

namespace Sys2Proof.Machine

theorem loadOperand_eq_ok {s : State} {m : Word × Word} {v : Word} :
    loadOperand s m = .ok v ↔ wordInRange (operandAddress m) ∧ v = s.wordAt (operandAddress m) := readWord_eq_ok

theorem storeOperand_eq_ok {s t : State} {m : Word × Word} {v : Word} :
    storeOperand s m v = .ok t ↔ wordInRange (operandAddress m) ∧ t = s.storeWord (operandAddress m) v := writeWord_eq_ok

/-- A far pointer is read exactly when both its words are in memory; the second word's offset wraps (42_data_transfer.md R209). -/
theorem loadFarPointer_eq_ok {s : State} {m : Word × Word} {r : Word × Word} :
    loadFarPointer s m = .ok r ↔ wordInRange (operandAddress m) ∧ wordInRange (operandAddress (m.1, m.2 + 2#16)) ∧
      r = (s.wordAt (operandAddress m), s.wordAt (operandAddress (m.1, m.2 + 2#16))) := by
  simp only [loadFarPointer, bind_eq_ok, loadOperand_eq_ok, Except.ok.injEq]
  constructor
  · rintro ⟨_, ⟨h1, rfl⟩, _, ⟨h2, rfl⟩, rfl⟩
    exact ⟨h1, h2, rfl⟩
  · rintro ⟨h1, h2, rfl⟩
    exact ⟨_, ⟨h1, rfl⟩, _, ⟨h2, rfl⟩, rfl⟩

/-- The relative target is the signed displacement past pc, modulo 2^16 (43_control_flow.md R231). -/
theorem relativeTarget_movesBy (s : State) (d : Byte) : movesBy s (s.setPc (relativeTarget s d)) d := by
  unfold movesBy relativeTarget signExtendByte
  show ((s.pc + d.signExtend 16).toNat : Int) = _
  rw [BitVec.toNat_add]
  have e : (d.signExtend 16).toInt = d.toInt := BitVec.toInt_signExtend_of_le (by omega)
  rw [BitVec.toInt_eq_toNat_cond] at e
  have := (d.signExtend 16).isLt
  split_ifs at e
  · rw [← e]
    simp
  · rw [← e]
    simp
    omega

/-- A transfer that may be taken changes pc alone, to its target exactly when it is taken (43_control_flow.md R237). -/
theorem jumpIf_spec (taken : Bool) (d : Byte) (s : State) :
    (taken = true → movesBy s (jumpIf taken d s) d) ∧ (taken = false → (jumpIf taken d s).pc = s.pc) ∧
      Keeps s (jumpIf taken d s) [] [] [] noBytes := by
  cases taken
  · exact ⟨by simp, fun _ => rfl, .refl⟩
  · exact ⟨fun _ => relativeTarget_movesBy s d, by simp, .setPc _⟩

end Sys2Proof.Machine
end

