-- ==== Sys2Proof/Laws/Strings.lean ====
section
/-! SUPPORT. The string operations and the repeat driver: what one iteration and one turn of the loop do. -/

namespace Sys2Proof.Machine

/-! ## The operations -/

/-- The opcode byte of a string operation (30_encoding.md R101). -/
def StringOp.opcode : StringOp → Byte
  | .movsb => 0x70#8
  | .movsw => 0x71#8
  | .stosb => 0x72#8
  | .stosw => 0x73#8
  | .lodsb => 0x74#8
  | .lodsw => 0x75#8
  | .cmpsb => 0x76#8
  | .cmpsw => 0x77#8

/-- The string operation of a byte is the one with that opcode. -/
theorem ofByte_eq_some {b : Byte} {op : StringOp} : StringOp.ofByte b = some op ↔ b = op.opcode := by
  constructor
  · intro h
    unfold StringOp.ofByte at h
    apply BitVec.eq_of_toNat_eq
    split at h <;> cases h <;> assumption
  · rintro rfl
    cases op <;> rfl

/-- Whether a string operation stores to memory. -/
def StringOp.stores : StringOp → Bool
  | .movsb | .movsw | .stosb | .stosw => true
  | .lodsb | .lodsw | .cmpsb | .cmpsw => false

/-- The bytes one iteration stores to. -/
def StringOp.storedAt (op : StringOp) (s : State) (a : Nat) : Prop :=
  match op with
  | .movsb | .stosb => a = destAddress s
  | .movsw | .stosw => inWord (destAddress s) a
  | .lodsb | .lodsw | .cmpsb | .cmpsw => False

/-- The flags one iteration writes. -/
def StringOp.flagsWritten (op : StringOp) : List Flag := if op.compares then derivedFlags else []

/-! ## One iteration -/

/-- The operands of one iteration are in memory. -/
def StringOp.ready (op : StringOp) (s : State) : Prop :=
  match op with
  | .movsb | .cmpsb => sourceAddress s < Config.memSize ∧ destAddress s < Config.memSize
  | .movsw | .cmpsw => wordInRange (sourceAddress s) ∧ wordInRange (destAddress s)
  | .stosb => destAddress s < Config.memSize
  | .stosw => wordInRange (destAddress s)
  | .lodsb => sourceAddress s < Config.memSize
  | .lodsw => wordInRange (sourceAddress s)

/-- The state after one iteration. -/
def StringOp.result (op : StringOp) (s : State) : State :=
  match op with
  | .movsb => advanceDest (advanceSource (s.storeByte (destAddress s) (s.byteAt (sourceAddress s))) 1#16) 1#16
  | .movsw => advanceDest (advanceSource (s.storeWord (destAddress s) (s.wordAt (sourceAddress s))) 2#16) 2#16
  | .stosb => advanceDest (s.storeByte (destAddress s) (lowByte (s.getReg .ax))) 1#16
  | .stosw => advanceDest (s.storeWord (destAddress s) (s.getReg .ax)) 2#16
  | .lodsb => advanceSource (s.setReg .ax (wordOfBytes (s.byteAt (sourceAddress s)) (highByte (s.getReg .ax)))) 1#16
  | .lodsw => advanceSource (s.setReg .ax (s.wordAt (sourceAddress s))) 2#16
  | .cmpsb => advanceDest (advanceSource (s.setFlags
      (sub16 s.flags ((s.byteAt (sourceAddress s)).setWidth 16) (s.byteAt (destAddress s)).toNat).2) 1#16) 1#16
  | .cmpsw => advanceDest (advanceSource (s.setFlags
      (sub16 s.flags (s.wordAt (sourceAddress s)) (s.wordAt (destAddress s)).toNat).2) 2#16) 2#16

/-- One iteration succeeds exactly when its operands are in memory (45_string_repeat.md R300 to R307). -/
theorem once_eq_ok {op : StringOp} {s t : State} : op.once s = .ok t ↔ op.ready s ∧ t = op.result s := by
  cases op <;>
    simp only [StringOp.once, StringOp.ready, StringOp.result, movsbOnce, movswOnce, stosbOnce, stoswOnce, lodsbOnce, lodswOnce,
      cmpsbOnce, cmpswOnce, bind_eq_ok, readByte_eq_ok, readWord_eq_ok, writeByte_eq_ok, writeWord_eq_ok, Except.ok.injEq]
  all_goals
    constructor
  iterate 2
    · rintro ⟨_, ⟨h1, rfl⟩, _, ⟨h2, rfl⟩, rfl⟩; exact ⟨⟨h1, h2⟩, rfl⟩
    · rintro ⟨⟨h1, h2⟩, rfl⟩; exact ⟨_, ⟨h1, rfl⟩, _, ⟨h2, rfl⟩, rfl⟩
  iterate 4
    · rintro ⟨_, ⟨h1, rfl⟩, rfl⟩; exact ⟨h1, rfl⟩
    · rintro ⟨h1, rfl⟩; exact ⟨_, ⟨h1, rfl⟩, rfl⟩
  iterate 2
    · rintro ⟨_, ⟨h1, rfl⟩, _, ⟨h2, rfl⟩, rfl⟩; exact ⟨⟨h1, h2⟩, rfl⟩
    · rintro ⟨⟨h1, h2⟩, rfl⟩; exact ⟨_, ⟨h1, rfl⟩, _, ⟨h2, rfl⟩, rfl⟩

/-- The size of an operand. -/
def StringOp.size (op : StringOp) : Word := if op.opcode.getLsbD 0 then 2#16 else 1#16

/-- Whether a string operation uses the source pointer. -/
def StringOp.usesSource : StringOp → Bool
  | .movsb | .movsw | .lodsb | .lodsw | .cmpsb | .cmpsw => true
  | .stosb | .stosw => false

/-- Whether a string operation uses the destination pointer. -/
def StringOp.usesDest : StringOp → Bool
  | .movsb | .movsw | .stosb | .stosw | .cmpsb | .cmpsw => true
  | .lodsb | .lodsw => false

/-- The source pointer after an iteration (45_string_repeat.md R298). -/
theorem result_si (op : StringOp) (s : State) :
    (op.result s).getReg .si = if op.usesSource then s.getReg .si + stringDelta s op.size else s.getReg .si := by
  cases op <;> simp [StringOp.result, StringOp.usesSource, StringOp.size, StringOp.opcode, advanceSource, advanceDest, stringDelta,
    State.storeByte, State.storeWord] <;> rfl

/-- The destination pointer after an iteration (45_string_repeat.md R298). -/
theorem result_di (op : StringOp) (s : State) :
    (op.result s).getReg .di = if op.usesDest then s.getReg .di + stringDelta s op.size else s.getReg .di := by
  cases op <;> simp [StringOp.result, StringOp.usesDest, StringOp.size, StringOp.opcode, advanceSource, advanceDest, stringDelta,
    State.storeByte, State.storeWord] <;> rfl

theorem advance_frame (s : State) (n m : Word) (fs : List Flag) (bs : Nat → Prop) :
    Keeps s (advanceDest (advanceSource s n) m) [.ax, .si, .di] [] fs bs :=
  (Keeps.setReg (by simp) _).trans (Keeps.setReg (by simp) _)

/-- One iteration changes AX and the pointers, the flags of a compare and the bytes of its destination at most. -/
theorem result_frame (op : StringOp) (s : State) :
    (op.result s).pc = s.pc ∧ Keeps s (op.result s) [.ax, .si, .di] [] op.flagsWritten (op.storedAt s) := by
  cases op
  · exact ⟨rfl, (Keeps.storeByte (bs := StringOp.movsb.storedAt s) rfl _).trans (advance_frame ..)⟩
  · exact ⟨rfl, (Keeps.storeWord (bs := StringOp.movsw.storedAt s) (fun _ h => h) _).trans (advance_frame ..)⟩
  · exact ⟨rfl, (Keeps.storeByte (bs := StringOp.stosb.storedAt s) rfl _).trans (Keeps.setReg (r := .di) (by simp) _)⟩
  · exact ⟨rfl, (Keeps.storeWord (bs := StringOp.stosw.storedAt s) (fun _ h => h) _).trans (Keeps.setReg (r := .di) (by simp) _)⟩
  · exact ⟨rfl, (Keeps.setReg (r := .ax) (by simp) _).trans (Keeps.setReg (r := .si) (by simp) _)⟩
  · exact ⟨rfl, (Keeps.setReg (r := .ax) (by simp) _).trans (Keeps.setReg (r := .si) (by simp) _)⟩
  · exact ⟨rfl, (Keeps.setFlags (sub16_keeps _ _ _)).trans (advance_frame ..)⟩
  · exact ⟨rfl, (Keeps.setFlags (sub16_keeps _ _ _)).trans (advance_frame ..)⟩

theorem once_frame {op : StringOp} {s t : State} (h : op.once s = .ok t) :
    t.pc = s.pc ∧ Keeps s t [.ax, .si, .di] [] op.flagsWritten (op.storedAt s) := by
  obtain ⟨-, rfl⟩ := once_eq_ok.1 h
  exact result_frame op s

/-! ## The repeat driver -/

/-- With CX = 0 the loop makes no iteration (45_string_repeat.md R310). -/
theorem repeatLoop_done {kind : RepeatKind} {op : StringOp} {n : Nat} {s : State} (h : s.getReg .cx = 0#16) :
    repeatLoop kind op n s = .ok s := by
  cases n <;> simp [repeatLoop, h]

/-- One turn of the loop: an iteration, CX decremented, then the stop test (45_string_repeat.md R310). -/
theorem repeatLoop_turn {kind : RepeatKind} {op : StringOp} {n : Nat} {s : State} (h : s.getReg .cx ≠ 0#16) (hr : op.ready s) :
    repeatLoop kind op (n + 1) s =
      if kind.stops op ((op.result s).setReg .cx (s.getReg .cx - 1#16)) then .ok ((op.result s).setReg .cx (s.getReg .cx - 1#16))
      else repeatLoop kind op n ((op.result s).setReg .cx (s.getReg .cx - 1#16)) := by
  have hc : (op.result s).getReg .cx = s.getReg .cx := (result_frame op s).2.regs .cx (by simp)
  simp only [repeatLoop, if_neg h, once_eq_ok.2 ⟨hr, rfl⟩, bind_ok, hc]

/-- A loop changes AX, CX and the pointers, the flags of a compare and, for a storing operation, memory at most. -/
theorem repeatLoop_frame {kind : RepeatKind} {op : StringOp} {n : Nat} {s t : State} (h : repeatLoop kind op n s = .ok t) :
    t.pc = s.pc ∧ Keeps s t [.ax, .cx, .si, .di] [] op.flagsWritten (fun _ => op.stores = true) := by
  induction n generalizing s with
  | zero => cases h; exact ⟨rfl, .refl⟩
  | succ n ih =>
    unfold repeatLoop at h
    split at h
    · cases h; exact ⟨rfl, .refl⟩
    · obtain ⟨u, hu, h⟩ := bind_eq_ok.1 h
      obtain ⟨h1, h2⟩ := once_frame hu
      have k : Keeps s (u.setReg .cx (u.getReg .cx - 1#16)) [.ax, .cx, .si, .di] [] op.flagsWritten (fun _ => op.stores = true) :=
        (h2.mono (by simp) (by simp) (fun _ h => h) (by intro a ha; cases op <;> first | rfl | exact ha.elim)).trans
          (Keeps.setReg (by simp) _)
      simp only at h
      split at h
      · cases h; exact ⟨h1, k⟩
      · obtain ⟨h3, h4⟩ := ih h
        exact ⟨h3.trans h1, k.trans h4⟩

end Sys2Proof.Machine
end

