-- ==== Sys2Proof/Laws/Accesses.lean ====
section
/-! SUPPORT. Which bytes a computation accesses, in order: it succeeds exactly when all of them are in memory and raises at the first
that is not. One lemma per shared operation. -/

namespace Sys2Proof.Machine

@[simp] theorem firstOutside_nil : firstOutside [] = none := rfl

@[simp] theorem firstOutside_append (l k : List Nat) : firstOutside (l ++ k) = (firstOutside l).or (firstOutside k) := by
  simp [firstOutside]

theorem firstOutside_byte (pa : Nat) : firstOutside [pa] = if pa < Config.memSize then none else some pa := by
  unfold firstOutside
  split <;> simp <;> omega

/-- A word's first byte outside memory is its low byte or the first address past memory. -/
theorem firstOutside_word (pa : Nat) :
    firstOutside (wordBytes pa) = if pa + 1 < Config.memSize then none else some (max pa Config.memSize) := by
  unfold firstOutside wordBytes
  by_cases h : Config.memSize ≤ pa
  · rw [List.find?_cons_of_pos (by simpa using h), if_neg (by omega), max_eq_left h]
  · rw [List.find?_cons_of_neg (by simpa using h)]
    split
    · simp; omega
    · rw [List.find?_cons_of_pos (by simp; omega), max_eq_right (by omega)]
      congr 1; omega

/-- A computation accesses these bytes in this order. -/
structure Touches {α : Type} (x : Except Fault α) (accesses : List Nat) : Prop where
  completes : firstOutside accesses = none → ∃ a, x = .ok a
  raises : ∀ pa, firstOutside accesses = some pa → ∃ u, x = .error (raiseEngine (.addressOutOfRange pa) u)

theorem Touches.ok {α : Type} (a : α) : Touches (.ok a) [] := ⟨fun _ => ⟨a, rfl⟩, fun _ h => by simp at h⟩

/-- What a computation in two parts accesses. -/
theorem Touches.bind {α β : Type} {x : Except Fault α} {f : α → Except Fault β} {l k : List Nat} (hx : Touches x l)
    (hf : ∀ a, x = .ok a → Touches (f a) k) : Touches (x >>= f) (l ++ k) := by
  cases hl : firstOutside l with
  | none =>
    obtain ⟨a, rfl⟩ := hx.completes hl
    have h : firstOutside (l ++ k) = firstOutside k := by simp [hl]
    exact ⟨fun hn => (hf a rfl).completes (h ▸ hn), fun pa hp => (hf a rfl).raises pa (h ▸ hp)⟩
  | some q =>
    obtain ⟨u, rfl⟩ := hx.raises q hl
    refine ⟨fun hn => by simp [hl] at hn, fun pa hp => ⟨u, ?_⟩⟩
    obtain rfl : q = pa := by simpa [hl] using hp
    rfl

/-- A last part that accesses nothing. -/
theorem Touches.andThen {α β : Type} {x : Except Fault α} {l : List Nat} (hx : Touches x l) (f : α → β) :
    Touches (x >>= fun a => .ok (f a)) l := by
  simpa using hx.bind fun a _ => Touches.ok (f a)

/-- The outcome of a computation that accesses these bytes. -/
theorem Touches.finish {x : Except Fault State} {l : List Nat} (hx : Touches x l) :
    (∀ pa, firstOutside l = some pa → raisesOutOfRange (finish x) pa) ∧ (firstOutside l = none → ∃ t, finish x = .next t) := by
  constructor
  · intro pa h
    obtain ⟨u, rfl⟩ := hx.raises pa h
    exact ⟨_, rfl, rfl, rfl⟩
  · intro h
    obtain ⟨t, rfl⟩ := hx.completes h
    exact ⟨t, rfl⟩

/-! ## Bytes and words -/

theorem readByte_touches (s : State) (pa : Nat) : Touches (readByte s pa) [pa] := by
  refine ⟨fun h => ⟨_, readByte_eq_ok.2 ⟨?_, rfl⟩⟩, fun q h => ?_⟩ <;> rw [firstOutside_byte] at h <;> split at h <;> simp at h
  · assumption
  · subst h
    exact ⟨s, readByte_eq_error.2 ⟨by omega, rfl⟩⟩

theorem writeByte_touches (s : State) (pa : Nat) (v : Byte) : Touches (writeByte s pa v) [pa] := by
  refine ⟨fun h => ⟨_, writeByte_eq_ok.2 ⟨?_, rfl⟩⟩, fun q h => ?_⟩ <;> rw [firstOutside_byte] at h <;> split at h <;> simp at h
  · assumption
  · subst h
    exact ⟨s, writeByte_eq_error.2 ⟨by omega, rfl⟩⟩

theorem readWord_touches (s : State) (pa : Nat) : Touches (readWord s pa) (wordBytes pa) := by
  refine ⟨fun h => ⟨_, readWord_eq_ok.2 ⟨?_, rfl⟩⟩, fun q h => ?_⟩ <;> rw [firstOutside_word] at h <;> split at h <;> simp at h
  · assumption
  · subst h
    exact ⟨s, readWord_eq_error.2 ⟨by assumption, rfl⟩⟩

theorem writeWord_touches (s : State) (pa : Nat) (v : Word) : Touches (writeWord s pa v) (wordBytes pa) := by
  refine ⟨fun h => ⟨_, writeWord_eq_ok.2 ⟨?_, rfl⟩⟩, fun q h => ?_⟩ <;> rw [firstOutside_word] at h <;> split at h <;> simp at h
  · assumption
  · subst h
    exact ⟨_, writeWord_eq_error.2 ⟨by assumption, rfl⟩⟩

theorem loadFarPointer_touches (s : State) (seg off : Word) :
    Touches (loadFarPointer s (seg, off)) (wordBytes (phys seg off) ++ wordBytes (phys seg (off + 2#16))) :=
  (readWord_touches s _).bind fun _ _ => (readWord_touches s _).andThen _

/-! ## The stack -/

theorem push_touches (s : State) (v : Word) : Touches (push s v) (wordBytes (stackAddress s (s.getReg .sp - 2#16))) := by
  simpa [push, stackAddress] using writeWord_touches (s.setReg .sp (s.getReg .sp - 2#16)) (stackAddress s (s.getReg .sp - 2#16)) v

theorem pushBytes_one (s : State) : pushBytes s 1 = wordBytes (stackAddress s (s.getReg .sp - 2#16)) := by
  simp [pushBytes, pushOffset]

/-- The first of several words is pushed, then the others from there. -/
theorem pushBytes_succ (s : State) (v : Word) (n : Nat) :
    pushBytes s (n + 1) = wordBytes (stackAddress s (s.getReg .sp - 2#16)) ++ pushBytes (s.pushed v) n := by
  simp [pushBytes, List.range_succ_eq_map, List.flatMap_map, pushed_stackAddress, pushed_pushOffset, pushOffset_one]

theorem pushAll_touches (s : State) (vs : List Word) : Touches (pushAll s vs) (pushBytes s vs.length) := by
  induction vs generalizing s with
  | nil => exact .ok s
  | cons v vs ih =>
    rw [List.length_cons, pushBytes_succ s v]
    refine (push_touches s v).bind fun t ht => ?_
    obtain ⟨-, rfl⟩ := push_eq_ok.1 ht
    exact ih _

theorem pop_touches (s : State) : Touches (pop s) (wordBytes (stackAddress s (s.getReg .sp))) :=
  (readWord_touches s _).andThen _

theorem popBytes_one (s : State) : popBytes s 1 = wordBytes (stackAddress s (s.getReg .sp)) := by
  simp [popBytes, popOffset]

/-- The first of several words is popped, then the others from there. -/
theorem popBytes_succ (s : State) (n : Nat) :
    popBytes s (n + 1) = wordBytes (stackAddress s (s.getReg .sp)) ++ popBytes s.popped n := by
  simp [popBytes, List.range_succ_eq_map, List.flatMap_map, popOffset_zero]

/-- A pop, then what follows it in the state it leaves. -/
theorem pop_then_touches {β : Type} {s : State} {f : Word × State → Except Fault β} {k : List Nat}
    (hf : ∀ v, Touches (f (v, s.popped)) k) : Touches (pop s >>= f) (wordBytes (stackAddress s (s.getReg .sp)) ++ k) :=
  (pop_touches s).bind fun r hr => by
    obtain ⟨-, rfl⟩ := pop_eq_ok.1 hr
    exact hf _

/-- The bytes the chain copy of ENTER accesses: each outer frame pointer is read, then pushed (44_stack_frame.md R286). -/
def copyBytes (s : State) (n : Nat) : List Nat :=
  (List.range n).flatMap fun k =>
    wordBytes (stackAddress s (s.getReg .bp - BitVec.ofNat 16 (2 * (k + 1)))) ++ wordBytes (stackAddress s (pushOffset s (k + 1)))

/-- The state after one turn of the chain copy that read a word. -/
def State.copied (s : State) (w : Word) : State := (s.setReg .bp (s.getReg .bp - 2#16)).pushed w

theorem copyBytes_succ (s : State) (w : Word) (n : Nat) :
    copyBytes s (n + 1) = wordBytes (stackAddress s (s.getReg .bp - 2#16)) ++ wordBytes (stackAddress s (s.getReg .sp - 2#16)) ++
      copyBytes (s.copied w) n := by
  have hs (off : Word) : stackAddress (s.copied w) off = stackAddress s off := by simp [State.copied, stackAddress]
  have hb (k : Nat) : (s.copied w).getReg .bp - BitVec.ofNat 16 (2 * (k + 1)) = s.getReg .bp - BitVec.ofNat 16 (2 * (k + 1 + 1)) := by
    apply BitVec.eq_of_toNat_eq
    simp only [State.copied, pushed_getReg, getReg_setReg, reduceCtorEq, if_true, if_false, BitVec.toNat_sub, BitVec.toNat_ofNat]
    omega
  have hp (k : Nat) : pushOffset (s.copied w) k = pushOffset s (k + 1) := by
    rw [State.copied, pushed_pushOffset]; simp [pushOffset]
  simp [copyBytes, List.range_succ_eq_map, List.flatMap_map, hs, hb, hp, pushOffset_one]

/-- Each turn of a chain copy pushes one word. -/
theorem copyFrames_sp {n : Nat} {s t : State} (h : copyFrames s n = .ok t) : t.getReg .sp = pushOffset s n := by
  induction n generalizing s with
  | zero => cases h; exact (pushOffset_zero _).symm
  | succ n ih =>
    simp only [copyFrames, bind_eq_ok, push_eq_ok] at h
    obtain ⟨w, -, u, ⟨-, rfl⟩, h⟩ := h
    rw [ih h, pushed_pushOffset]
    simp [pushOffset]

theorem copyFrames_touches (s : State) (n : Nat) : Touches (copyFrames s n) (copyBytes s n) := by
  induction n generalizing s with
  | zero => exact .ok s
  | succ n ih =>
    rw [copyBytes_succ s (s.wordAt (stackAddress s (s.getReg .bp - 2#16))), List.append_assoc]
    have hr := readWord_touches (s.setReg .bp (s.getReg .bp - 2#16)) (stackAddress s (s.getReg .bp - 2#16))
    have e : phys ((s.setReg .bp (s.getReg .bp - 2#16)).getSeg .ss) ((s.setReg .bp (s.getReg .bp - 2#16)).getReg .bp) =
        stackAddress s (s.getReg .bp - 2#16) := by simp [stackAddress]
    simp only [copyFrames, e]
    refine hr.bind fun w hw => ?_
    obtain ⟨-, rfl⟩ := readWord_eq_ok.1 hw
    have hq := push_touches (s.setReg .bp (s.getReg .bp - 2#16)) (s.wordAt (stackAddress s (s.getReg .bp - 2#16)))
    simp only [stackAddress, setReg_getSeg, getReg_setReg, reduceCtorEq, if_false] at hq
    refine hq.bind fun u hu => ?_
    obtain ⟨-, rfl⟩ := push_eq_ok.1 hu
    exact ih _

/-! ## Taking an exception, returning from one, fetching -/

theorem dispatch_touches (s : State) (v : Byte) : Touches (dispatch s v) (entryBytes s v) := by
  have hv := vectorEntry_inRange v
  have e : firstOutside (entryBytes s v) = firstOutside (pushBytes s 3) := by
    have h1 : firstOutside (wordBytes (Config.ivtBase + 4 * v.toNat)) = none := by rw [firstOutside_word]; exact if_pos hv.1
    have h2 : firstOutside (wordBytes (Config.ivtBase + 4 * v.toNat + 2)) = none := by rw [firstOutside_word]; exact if_pos hv.2
    simp [entryBytes, h1, h2]
  have h := (pushAll_touches s [s.flags.pack, s.getSeg .cs, s.pc]).andThen fun u => u.entered v
  rw [← dispatch_eq] at h
  exact ⟨fun hn => h.completes (by rw [← hn, e]; rfl), fun pa hp => h.raises pa (by rw [← hp, e]; rfl)⟩

theorem returnFromInterrupt_touches (s : State) : Touches (returnFromInterrupt s) (popBytes s 3) := by
  rw [popBytes_succ, popBytes_succ, popBytes_one]
  exact pop_then_touches fun _ => pop_then_touches fun _ => (pop_touches _).andThen _

/-- One iteration of a string operation accesses its operands, the source first. -/
def StringOp.accesses (op : StringOp) (s : State) : List Nat :=
  match op with
  | .movsb | .cmpsb => [sourceAddress s, destAddress s]
  | .movsw | .cmpsw => wordBytes (sourceAddress s) ++ wordBytes (destAddress s)
  | .stosb => [destAddress s]
  | .stosw => wordBytes (destAddress s)
  | .lodsb => [sourceAddress s]
  | .lodsw => wordBytes (sourceAddress s)

theorem once_touches (op : StringOp) (s : State) : Touches (op.once s) (op.accesses s) := by
  cases op
  · exact (readByte_touches s _).bind fun _ _ => (writeByte_touches s _ _).andThen _
  · exact (readWord_touches s _).bind fun _ _ => (writeWord_touches s _ _).andThen _
  · exact (writeByte_touches s _ _).andThen _
  · exact (writeWord_touches s _ _).andThen _
  · exact (readByte_touches s _).andThen _
  · exact (readWord_touches s _).andThen _
  · exact (readByte_touches s _).bind fun _ _ => (readByte_touches s _).andThen _
  · exact (readWord_touches s _).bind fun _ _ => (readWord_touches s _).andThen _

/-- The byte after those at CS:pc is fetched: it raises when that byte is outside memory (40_step_fetch_dispatch.md R125). -/
theorem fetchBytes_raises {s : State} {bytes : List Byte} {n : Nat} (h : bytesAtPc s bytes) (hn : bytes.length < n)
    (hout : Config.memSize ≤ phys (s.getSeg .cs) (s.pc + BitVec.ofNat 16 bytes.length)) :
    ∃ u, fetchBytes n s = .error (raiseEngine (.addressOutOfRange (phys (s.getSeg .cs) (s.pc + BitVec.ofNat 16 bytes.length))) u) := by
  induction bytes generalizing s n with
  | nil =>
    obtain ⟨m, rfl⟩ : ∃ m, n = m + 1 := ⟨n - 1, by simp at hn; omega⟩
    rw [List.length_nil, BitVec.add_zero] at hout ⊢
    exact ⟨s, by simp [fetchBytes, fetch8, readByte_eq_error.2 ⟨hout, rfl⟩]⟩
  | cons b bs ih =>
    obtain ⟨m, rfl⟩ : ∃ m, n = m + 1 := ⟨n - 1, by simp at hn; omega⟩
    obtain ⟨h1, h2⟩ := bytesAtPc_cons h
    have e : s.pc + 1#16 + BitVec.ofNat 16 bs.length = s.pc + BitVec.ofNat 16 (bs.length + 1) := by
      apply BitVec.eq_of_toNat_eq
      simp only [BitVec.toNat_add, BitVec.toNat_ofNat]
      omega
    obtain ⟨u, hu⟩ := ih (n := m) h2 (by simpa using hn) (by rw [setPc_getSeg, setPc_pc, e]; exact hout)
    rw [setPc_getSeg, setPc_pc, e] at hu
    exact ⟨u, by simp only [fetchBytes, h1, bind_ok, hu, bind_error]; rfl⟩

end Sys2Proof.Machine
end

