-- ==== Sys2Proof/Laws/PerInstr.lean ====
section
/-! SUPPORT. What holds of every instruction as syntax, one lemma per constructor: the opcode byte alone fixes how many bytes the
instruction takes (30_encoding.md R90). -/

namespace Sys2Proof.Laws

/-- The first byte of the encoding is an opcode byte whose row asks for exactly the bytes that follow. -/
def OpcodeFixesLength.Statement (i : Instr) : Prop :=
  ∃ op rest row, encode i = op :: rest ∧ opmap op = some row ∧ row.operandBytes = rest.length

theorem OpcodeFixesLength.hlt : OpcodeFixesLength.Statement (.hlt) := ⟨_, _, _, rfl, rfl, rfl⟩
theorem OpcodeFixesLength.wait : OpcodeFixesLength.Statement (.wait) := ⟨_, _, _, rfl, rfl, rfl⟩
theorem OpcodeFixesLength.int (v : Byte) : OpcodeFixesLength.Statement (.int v) := ⟨_, _, _, rfl, rfl, rfl⟩
theorem OpcodeFixesLength.iret : OpcodeFixesLength.Statement (.iret) := ⟨_, _, _, rfl, rfl, rfl⟩
theorem OpcodeFixesLength.clc : OpcodeFixesLength.Statement (.clc) := ⟨_, _, _, rfl, rfl, rfl⟩
theorem OpcodeFixesLength.stc : OpcodeFixesLength.Statement (.stc) := ⟨_, _, _, rfl, rfl, rfl⟩
theorem OpcodeFixesLength.cli : OpcodeFixesLength.Statement (.cli) := ⟨_, _, _, rfl, rfl, rfl⟩
theorem OpcodeFixesLength.sti : OpcodeFixesLength.Statement (.sti) := ⟨_, _, _, rfl, rfl, rfl⟩
theorem OpcodeFixesLength.cld : OpcodeFixesLength.Statement (.cld) := ⟨_, _, _, rfl, rfl, rfl⟩
theorem OpcodeFixesLength.std : OpcodeFixesLength.Statement (.std) := ⟨_, _, _, rfl, rfl, rfl⟩
theorem OpcodeFixesLength.movRR (a : Reg) (b : Reg) : OpcodeFixesLength.Statement (.movRR a b) := ⟨_, _, _, rfl, rfl, rfl⟩
theorem OpcodeFixesLength.movRI (a : Reg) (imm : Word) : OpcodeFixesLength.Statement (.movRI a imm) := ⟨_, _, _, rfl, rfl, rfl⟩
theorem OpcodeFixesLength.movRA (a : Reg) (addr : Word) : OpcodeFixesLength.Statement (.movRA a addr) := ⟨_, _, _, rfl, rfl, rfl⟩
theorem OpcodeFixesLength.movAR (a : Reg) (addr : Word) : OpcodeFixesLength.Statement (.movAR a addr) := ⟨_, _, _, rfl, rfl, rfl⟩
theorem OpcodeFixesLength.movRX (a : Reg) (b : Reg) (disp : Word) : OpcodeFixesLength.Statement (.movRX a b disp) := ⟨_, _, _, rfl, rfl, rfl⟩
theorem OpcodeFixesLength.movXR (a : Reg) (b : Reg) (disp : Word) : OpcodeFixesLength.Statement (.movXR a b disp) := ⟨_, _, _, rfl, rfl, rfl⟩
theorem OpcodeFixesLength.movSR (a : SReg) (b : Reg) : OpcodeFixesLength.Statement (.movSR a b) := ⟨_, _, _, rfl, rfl, rfl⟩
theorem OpcodeFixesLength.movRS (a : Reg) (b : SReg) : OpcodeFixesLength.Statement (.movRS a b) := ⟨_, _, _, rfl, rfl, rfl⟩
theorem OpcodeFixesLength.lea (a : Reg) (b : Reg) (disp : Word) : OpcodeFixesLength.Statement (.lea a b disp) := ⟨_, _, _, rfl, rfl, rfl⟩
theorem OpcodeFixesLength.ldsA (a : Reg) (addr : Word) : OpcodeFixesLength.Statement (.ldsA a addr) := ⟨_, _, _, rfl, rfl, rfl⟩
theorem OpcodeFixesLength.ldsX (a : Reg) (b : Reg) (disp : Word) : OpcodeFixesLength.Statement (.ldsX a b disp) := ⟨_, _, _, rfl, rfl, rfl⟩
theorem OpcodeFixesLength.lesA (a : Reg) (addr : Word) : OpcodeFixesLength.Statement (.lesA a addr) := ⟨_, _, _, rfl, rfl, rfl⟩
theorem OpcodeFixesLength.lesX (a : Reg) (b : Reg) (disp : Word) : OpcodeFixesLength.Statement (.lesX a b disp) := ⟨_, _, _, rfl, rfl, rfl⟩
theorem OpcodeFixesLength.addRR (a : Reg) (b : Reg) : OpcodeFixesLength.Statement (.addRR a b) := ⟨_, _, _, rfl, rfl, rfl⟩
theorem OpcodeFixesLength.addRI (a : Reg) (imm : Word) : OpcodeFixesLength.Statement (.addRI a imm) := ⟨_, _, _, rfl, rfl, rfl⟩
theorem OpcodeFixesLength.adcRR (a : Reg) (b : Reg) : OpcodeFixesLength.Statement (.adcRR a b) := ⟨_, _, _, rfl, rfl, rfl⟩
theorem OpcodeFixesLength.adcRI (a : Reg) (imm : Word) : OpcodeFixesLength.Statement (.adcRI a imm) := ⟨_, _, _, rfl, rfl, rfl⟩
theorem OpcodeFixesLength.subRR (a : Reg) (b : Reg) : OpcodeFixesLength.Statement (.subRR a b) := ⟨_, _, _, rfl, rfl, rfl⟩
theorem OpcodeFixesLength.subRI (a : Reg) (imm : Word) : OpcodeFixesLength.Statement (.subRI a imm) := ⟨_, _, _, rfl, rfl, rfl⟩
theorem OpcodeFixesLength.sbcRR (a : Reg) (b : Reg) : OpcodeFixesLength.Statement (.sbcRR a b) := ⟨_, _, _, rfl, rfl, rfl⟩
theorem OpcodeFixesLength.sbcRI (a : Reg) (imm : Word) : OpcodeFixesLength.Statement (.sbcRI a imm) := ⟨_, _, _, rfl, rfl, rfl⟩
theorem OpcodeFixesLength.cmpRR (a : Reg) (b : Reg) : OpcodeFixesLength.Statement (.cmpRR a b) := ⟨_, _, _, rfl, rfl, rfl⟩
theorem OpcodeFixesLength.cmpRI (a : Reg) (imm : Word) : OpcodeFixesLength.Statement (.cmpRI a imm) := ⟨_, _, _, rfl, rfl, rfl⟩
theorem OpcodeFixesLength.incR (a : Reg) : OpcodeFixesLength.Statement (.incR a) := ⟨_, _, _, rfl, rfl, rfl⟩
theorem OpcodeFixesLength.decR (a : Reg) : OpcodeFixesLength.Statement (.decR a) := ⟨_, _, _, rfl, rfl, rfl⟩
theorem OpcodeFixesLength.negR (a : Reg) : OpcodeFixesLength.Statement (.negR a) := ⟨_, _, _, rfl, rfl, rfl⟩
theorem OpcodeFixesLength.divR (a : Reg) : OpcodeFixesLength.Statement (.divR a) := ⟨_, _, _, rfl, rfl, rfl⟩
theorem OpcodeFixesLength.andRR (a : Reg) (b : Reg) : OpcodeFixesLength.Statement (.andRR a b) := ⟨_, _, _, rfl, rfl, rfl⟩
theorem OpcodeFixesLength.andRI (a : Reg) (imm : Word) : OpcodeFixesLength.Statement (.andRI a imm) := ⟨_, _, _, rfl, rfl, rfl⟩
theorem OpcodeFixesLength.orRR (a : Reg) (b : Reg) : OpcodeFixesLength.Statement (.orRR a b) := ⟨_, _, _, rfl, rfl, rfl⟩
theorem OpcodeFixesLength.orRI (a : Reg) (imm : Word) : OpcodeFixesLength.Statement (.orRI a imm) := ⟨_, _, _, rfl, rfl, rfl⟩
theorem OpcodeFixesLength.xorRR (a : Reg) (b : Reg) : OpcodeFixesLength.Statement (.xorRR a b) := ⟨_, _, _, rfl, rfl, rfl⟩
theorem OpcodeFixesLength.xorRI (a : Reg) (imm : Word) : OpcodeFixesLength.Statement (.xorRI a imm) := ⟨_, _, _, rfl, rfl, rfl⟩
theorem OpcodeFixesLength.testRR (a : Reg) (b : Reg) : OpcodeFixesLength.Statement (.testRR a b) := ⟨_, _, _, rfl, rfl, rfl⟩
theorem OpcodeFixesLength.testRI (a : Reg) (imm : Word) : OpcodeFixesLength.Statement (.testRI a imm) := ⟨_, _, _, rfl, rfl, rfl⟩
theorem OpcodeFixesLength.notR (a : Reg) : OpcodeFixesLength.Statement (.notR a) := ⟨_, _, _, rfl, rfl, rfl⟩
theorem OpcodeFixesLength.jmpA (addr : Word) : OpcodeFixesLength.Statement (.jmpA addr) := ⟨_, _, _, rfl, rfl, rfl⟩
theorem OpcodeFixesLength.jmpR (a : Reg) : OpcodeFixesLength.Statement (.jmpR a) := ⟨_, _, _, rfl, rfl, rfl⟩
theorem OpcodeFixesLength.jmpS (rel : Byte) : OpcodeFixesLength.Statement (.jmpS rel) := ⟨_, _, _, rfl, rfl, rfl⟩
theorem OpcodeFixesLength.callA (addr : Word) : OpcodeFixesLength.Statement (.callA addr) := ⟨_, _, _, rfl, rfl, rfl⟩
theorem OpcodeFixesLength.callR (a : Reg) : OpcodeFixesLength.Statement (.callR a) := ⟨_, _, _, rfl, rfl, rfl⟩
theorem OpcodeFixesLength.callF (off : Word) (sg : Word) : OpcodeFixesLength.Statement (.callF off sg) := ⟨_, _, _, rfl, rfl, rfl⟩
theorem OpcodeFixesLength.ret : OpcodeFixesLength.Statement (.ret) := ⟨_, _, _, rfl, rfl, rfl⟩
theorem OpcodeFixesLength.retI (n : Word) : OpcodeFixesLength.Statement (.retI n) := ⟨_, _, _, rfl, rfl, rfl⟩
theorem OpcodeFixesLength.retF : OpcodeFixesLength.Statement (.retF) := ⟨_, _, _, rfl, rfl, rfl⟩
theorem OpcodeFixesLength.loop (rel : Byte) : OpcodeFixesLength.Statement (.loop rel) := ⟨_, _, _, rfl, rfl, rfl⟩
theorem OpcodeFixesLength.loopz (rel : Byte) : OpcodeFixesLength.Statement (.loopz rel) := ⟨_, _, _, rfl, rfl, rfl⟩
theorem OpcodeFixesLength.loopnz (rel : Byte) : OpcodeFixesLength.Statement (.loopnz rel) := ⟨_, _, _, rfl, rfl, rfl⟩
theorem OpcodeFixesLength.jo (rel : Byte) : OpcodeFixesLength.Statement (.jo rel) := ⟨_, _, _, rfl, rfl, rfl⟩
theorem OpcodeFixesLength.jno (rel : Byte) : OpcodeFixesLength.Statement (.jno rel) := ⟨_, _, _, rfl, rfl, rfl⟩
theorem OpcodeFixesLength.jc (rel : Byte) : OpcodeFixesLength.Statement (.jc rel) := ⟨_, _, _, rfl, rfl, rfl⟩
theorem OpcodeFixesLength.jnc (rel : Byte) : OpcodeFixesLength.Statement (.jnc rel) := ⟨_, _, _, rfl, rfl, rfl⟩
theorem OpcodeFixesLength.jz (rel : Byte) : OpcodeFixesLength.Statement (.jz rel) := ⟨_, _, _, rfl, rfl, rfl⟩
theorem OpcodeFixesLength.jnz (rel : Byte) : OpcodeFixesLength.Statement (.jnz rel) := ⟨_, _, _, rfl, rfl, rfl⟩
theorem OpcodeFixesLength.jbe (rel : Byte) : OpcodeFixesLength.Statement (.jbe rel) := ⟨_, _, _, rfl, rfl, rfl⟩
theorem OpcodeFixesLength.ja (rel : Byte) : OpcodeFixesLength.Statement (.ja rel) := ⟨_, _, _, rfl, rfl, rfl⟩
theorem OpcodeFixesLength.js (rel : Byte) : OpcodeFixesLength.Statement (.js rel) := ⟨_, _, _, rfl, rfl, rfl⟩
theorem OpcodeFixesLength.jns (rel : Byte) : OpcodeFixesLength.Statement (.jns rel) := ⟨_, _, _, rfl, rfl, rfl⟩
theorem OpcodeFixesLength.jp (rel : Byte) : OpcodeFixesLength.Statement (.jp rel) := ⟨_, _, _, rfl, rfl, rfl⟩
theorem OpcodeFixesLength.jnp (rel : Byte) : OpcodeFixesLength.Statement (.jnp rel) := ⟨_, _, _, rfl, rfl, rfl⟩
theorem OpcodeFixesLength.jl (rel : Byte) : OpcodeFixesLength.Statement (.jl rel) := ⟨_, _, _, rfl, rfl, rfl⟩
theorem OpcodeFixesLength.jge (rel : Byte) : OpcodeFixesLength.Statement (.jge rel) := ⟨_, _, _, rfl, rfl, rfl⟩
theorem OpcodeFixesLength.jle (rel : Byte) : OpcodeFixesLength.Statement (.jle rel) := ⟨_, _, _, rfl, rfl, rfl⟩
theorem OpcodeFixesLength.jg (rel : Byte) : OpcodeFixesLength.Statement (.jg rel) := ⟨_, _, _, rfl, rfl, rfl⟩
theorem OpcodeFixesLength.push (a : Reg) : OpcodeFixesLength.Statement (.push a) := ⟨_, _, _, rfl, rfl, rfl⟩
theorem OpcodeFixesLength.pop (a : Reg) : OpcodeFixesLength.Statement (.pop a) := ⟨_, _, _, rfl, rfl, rfl⟩
theorem OpcodeFixesLength.pusha : OpcodeFixesLength.Statement (.pusha) := ⟨_, _, _, rfl, rfl, rfl⟩
theorem OpcodeFixesLength.popa : OpcodeFixesLength.Statement (.popa) := ⟨_, _, _, rfl, rfl, rfl⟩
theorem OpcodeFixesLength.enter (size : Word) (level : Byte) : OpcodeFixesLength.Statement (.enter size level) := ⟨_, _, _, rfl, rfl, rfl⟩
theorem OpcodeFixesLength.leave : OpcodeFixesLength.Statement (.leave) := ⟨_, _, _, rfl, rfl, rfl⟩
theorem OpcodeFixesLength.movsb : OpcodeFixesLength.Statement (.movsb) := ⟨_, _, _, rfl, rfl, rfl⟩
theorem OpcodeFixesLength.movsw : OpcodeFixesLength.Statement (.movsw) := ⟨_, _, _, rfl, rfl, rfl⟩
theorem OpcodeFixesLength.stosb : OpcodeFixesLength.Statement (.stosb) := ⟨_, _, _, rfl, rfl, rfl⟩
theorem OpcodeFixesLength.stosw : OpcodeFixesLength.Statement (.stosw) := ⟨_, _, _, rfl, rfl, rfl⟩
theorem OpcodeFixesLength.lodsb : OpcodeFixesLength.Statement (.lodsb) := ⟨_, _, _, rfl, rfl, rfl⟩
theorem OpcodeFixesLength.lodsw : OpcodeFixesLength.Statement (.lodsw) := ⟨_, _, _, rfl, rfl, rfl⟩
theorem OpcodeFixesLength.cmpsb : OpcodeFixesLength.Statement (.cmpsb) := ⟨_, _, _, rfl, rfl, rfl⟩
theorem OpcodeFixesLength.cmpsw : OpcodeFixesLength.Statement (.cmpsw) := ⟨_, _, _, rfl, rfl, rfl⟩
theorem OpcodeFixesLength.rep (next : Byte) : OpcodeFixesLength.Statement (.rep next) := ⟨_, _, _, rfl, rfl, rfl⟩
theorem OpcodeFixesLength.repz (next : Byte) : OpcodeFixesLength.Statement (.repz next) := ⟨_, _, _, rfl, rfl, rfl⟩
theorem OpcodeFixesLength.repnz (next : Byte) : OpcodeFixesLength.Statement (.repnz next) := ⟨_, _, _, rfl, rfl, rfl⟩

end Sys2Proof.Laws
end

