-- ==== Sys2Proof/Tests/Slice0.lean ====
section
/-! SUPPORT. Tests of the model on words and states written out from the spec: the well-formedness check, the decoding of every
instruction, one or two steps per instruction from 95_test_vectors.md, and a witness for every statement that has hypotheses. -/

open Sys2Proof Sys2Proof.Machine

namespace Sys2Proof.Tests

/-! ## Well-formedness: each check refuses an ill-formed term -/

theorem test_wellFormed_rep : Instr.wellFormed (.rep 0x2A#8) = false ∧ Instr.wellFormed (.rep 0x70#8) = true := by decide
theorem test_wellFormed_repz : Instr.wellFormed (.repz 0x78#8) = false ∧ Instr.wellFormed (.repz 0x77#8) = true := by decide
theorem test_wellFormed_repnz : Instr.wellFormed (.repnz 0x6F#8) = false ∧ Instr.wellFormed (.repnz 0x76#8) = true := by decide

/-! ## Decoding: one word per instruction, its opcode byte from opcode_table.json, its operands from 30_encoding.md R91 to R97 -/

theorem test_decode_hlt : decode [0x01#8] = .ok (.hlt, []) := by decide
theorem test_decode_wait : decode [0x02#8] = .ok (.wait, []) := by decide
theorem test_decode_int : decode [0x03#8, 0x21#8] = .ok (.int 0x21#8, []) := by decide
theorem test_decode_iret : decode [0x04#8] = .ok (.iret, []) := by decide
theorem test_decode_clc : decode [0x05#8] = .ok (.clc, []) := by decide
theorem test_decode_stc : decode [0x06#8] = .ok (.stc, []) := by decide
theorem test_decode_cli : decode [0x07#8] = .ok (.cli, []) := by decide
theorem test_decode_sti : decode [0x08#8] = .ok (.sti, []) := by decide
theorem test_decode_cld : decode [0x09#8] = .ok (.cld, []) := by decide
theorem test_decode_std : decode [0x0A#8] = .ok (.std, []) := by decide
theorem test_decode_movRR : decode [0x10#8, 0x35#8] = .ok (.movRR .dx .di, []) := by decide
theorem test_decode_movRI : decode [0x11#8, 0x60#8, 0x34#8, 0x12#8] = .ok (.movRI .bp 0x1234#16, []) := by decide
theorem test_decode_movRA : decode [0x12#8, 0x10#8, 0xCD#8, 0xAB#8] = .ok (.movRA .bx 0xABCD#16, []) := by decide
theorem test_decode_movAR : decode [0x13#8, 0x10#8, 0xCD#8, 0xAB#8] = .ok (.movAR .bx 0xABCD#16, []) := by decide
theorem test_decode_movRX : decode [0x14#8, 0x57#8, 0xFE#8, 0xFF#8] = .ok (.movRX .di .sp 0xFFFE#16, []) := by decide
theorem test_decode_movXR : decode [0x15#8, 0x57#8, 0xFE#8, 0xFF#8] = .ok (.movXR .di .sp 0xFFFE#16, []) := by decide
theorem test_decode_movSR : decode [0x16#8, 0x26#8] = .ok (.movSR .ss .bp, []) := by decide
theorem test_decode_movRS : decode [0x17#8, 0x51#8] = .ok (.movRS .di .ds, []) := by decide
theorem test_decode_lea : decode [0x18#8, 0x57#8, 0xFE#8, 0xFF#8] = .ok (.lea .di .sp 0xFFFE#16, []) := by decide
theorem test_decode_ldsA : decode [0x19#8, 0x10#8, 0xCD#8, 0xAB#8] = .ok (.ldsA .bx 0xABCD#16, []) := by decide
theorem test_decode_ldsX : decode [0x1A#8, 0x57#8, 0xFE#8, 0xFF#8] = .ok (.ldsX .di .sp 0xFFFE#16, []) := by decide
theorem test_decode_lesA : decode [0x1B#8, 0x10#8, 0xCD#8, 0xAB#8] = .ok (.lesA .bx 0xABCD#16, []) := by decide
theorem test_decode_lesX : decode [0x1C#8, 0x57#8, 0xFE#8, 0xFF#8] = .ok (.lesX .di .sp 0xFFFE#16, []) := by decide
theorem test_decode_addRR : decode [0x20#8, 0x35#8] = .ok (.addRR .dx .di, []) := by decide
theorem test_decode_addRI : decode [0x21#8, 0x60#8, 0x34#8, 0x12#8] = .ok (.addRI .bp 0x1234#16, []) := by decide
theorem test_decode_adcRR : decode [0x22#8, 0x35#8] = .ok (.adcRR .dx .di, []) := by decide
theorem test_decode_adcRI : decode [0x23#8, 0x60#8, 0x34#8, 0x12#8] = .ok (.adcRI .bp 0x1234#16, []) := by decide
theorem test_decode_subRR : decode [0x24#8, 0x35#8] = .ok (.subRR .dx .di, []) := by decide
theorem test_decode_subRI : decode [0x25#8, 0x60#8, 0x34#8, 0x12#8] = .ok (.subRI .bp 0x1234#16, []) := by decide
theorem test_decode_sbcRR : decode [0x26#8, 0x35#8] = .ok (.sbcRR .dx .di, []) := by decide
theorem test_decode_sbcRI : decode [0x27#8, 0x60#8, 0x34#8, 0x12#8] = .ok (.sbcRI .bp 0x1234#16, []) := by decide
theorem test_decode_cmpRR : decode [0x28#8, 0x35#8] = .ok (.cmpRR .dx .di, []) := by decide
theorem test_decode_cmpRI : decode [0x29#8, 0x60#8, 0x34#8, 0x12#8] = .ok (.cmpRI .bp 0x1234#16, []) := by decide
theorem test_decode_incR : decode [0x2A#8, 0x40#8] = .ok (.incR .si, []) := by decide
theorem test_decode_decR : decode [0x2B#8, 0x40#8] = .ok (.decR .si, []) := by decide
theorem test_decode_negR : decode [0x2C#8, 0x40#8] = .ok (.negR .si, []) := by decide
theorem test_decode_divR : decode [0x2D#8, 0x40#8] = .ok (.divR .si, []) := by decide
theorem test_decode_andRR : decode [0x30#8, 0x35#8] = .ok (.andRR .dx .di, []) := by decide
theorem test_decode_andRI : decode [0x31#8, 0x60#8, 0x34#8, 0x12#8] = .ok (.andRI .bp 0x1234#16, []) := by decide
theorem test_decode_orRR : decode [0x32#8, 0x35#8] = .ok (.orRR .dx .di, []) := by decide
theorem test_decode_orRI : decode [0x33#8, 0x60#8, 0x34#8, 0x12#8] = .ok (.orRI .bp 0x1234#16, []) := by decide
theorem test_decode_xorRR : decode [0x34#8, 0x35#8] = .ok (.xorRR .dx .di, []) := by decide
theorem test_decode_xorRI : decode [0x35#8, 0x60#8, 0x34#8, 0x12#8] = .ok (.xorRI .bp 0x1234#16, []) := by decide
theorem test_decode_testRR : decode [0x36#8, 0x35#8] = .ok (.testRR .dx .di, []) := by decide
theorem test_decode_testRI : decode [0x37#8, 0x60#8, 0x34#8, 0x12#8] = .ok (.testRI .bp 0x1234#16, []) := by decide
theorem test_decode_notR : decode [0x38#8, 0x40#8] = .ok (.notR .si, []) := by decide
theorem test_decode_jmpA : decode [0x40#8, 0x20#8, 0x03#8] = .ok (.jmpA 0x0320#16, []) := by decide
theorem test_decode_jmpR : decode [0x41#8, 0x40#8] = .ok (.jmpR .si, []) := by decide
theorem test_decode_jmpS : decode [0x42#8, 0xF0#8] = .ok (.jmpS 0xF0#8, []) := by decide
theorem test_decode_callA : decode [0x43#8, 0x20#8, 0x03#8] = .ok (.callA 0x0320#16, []) := by decide
theorem test_decode_callR : decode [0x44#8, 0x40#8] = .ok (.callR .si, []) := by decide
theorem test_decode_callF : decode [0x45#8, 0x10#8, 0x00#8, 0x00#8, 0x20#8] = .ok (.callF 0x0010#16 0x2000#16, []) := by decide
theorem test_decode_ret : decode [0x46#8] = .ok (.ret, []) := by decide
theorem test_decode_retI : decode [0x47#8, 0x06#8, 0x00#8] = .ok (.retI 0x0006#16, []) := by decide
theorem test_decode_retF : decode [0x48#8] = .ok (.retF, []) := by decide
theorem test_decode_loop : decode [0x49#8, 0xF0#8] = .ok (.loop 0xF0#8, []) := by decide
theorem test_decode_loopz : decode [0x4A#8, 0xF0#8] = .ok (.loopz 0xF0#8, []) := by decide
theorem test_decode_loopnz : decode [0x4B#8, 0xF0#8] = .ok (.loopnz 0xF0#8, []) := by decide
theorem test_decode_jo : decode [0x50#8, 0xF0#8] = .ok (.jo 0xF0#8, []) := by decide
theorem test_decode_jno : decode [0x51#8, 0xF0#8] = .ok (.jno 0xF0#8, []) := by decide
theorem test_decode_jc : decode [0x52#8, 0xF0#8] = .ok (.jc 0xF0#8, []) := by decide
theorem test_decode_jnc : decode [0x53#8, 0xF0#8] = .ok (.jnc 0xF0#8, []) := by decide
theorem test_decode_jz : decode [0x54#8, 0xF0#8] = .ok (.jz 0xF0#8, []) := by decide
theorem test_decode_jnz : decode [0x55#8, 0xF0#8] = .ok (.jnz 0xF0#8, []) := by decide
theorem test_decode_jbe : decode [0x56#8, 0xF0#8] = .ok (.jbe 0xF0#8, []) := by decide
theorem test_decode_ja : decode [0x57#8, 0xF0#8] = .ok (.ja 0xF0#8, []) := by decide
theorem test_decode_js : decode [0x58#8, 0xF0#8] = .ok (.js 0xF0#8, []) := by decide
theorem test_decode_jns : decode [0x59#8, 0xF0#8] = .ok (.jns 0xF0#8, []) := by decide
theorem test_decode_jp : decode [0x5A#8, 0xF0#8] = .ok (.jp 0xF0#8, []) := by decide
theorem test_decode_jnp : decode [0x5B#8, 0xF0#8] = .ok (.jnp 0xF0#8, []) := by decide
theorem test_decode_jl : decode [0x5C#8, 0xF0#8] = .ok (.jl 0xF0#8, []) := by decide
theorem test_decode_jge : decode [0x5D#8, 0xF0#8] = .ok (.jge 0xF0#8, []) := by decide
theorem test_decode_jle : decode [0x5E#8, 0xF0#8] = .ok (.jle 0xF0#8, []) := by decide
theorem test_decode_jg : decode [0x5F#8, 0xF0#8] = .ok (.jg 0xF0#8, []) := by decide
theorem test_decode_push : decode [0x60#8, 0x40#8] = .ok (.push .si, []) := by decide
theorem test_decode_pop : decode [0x61#8, 0x40#8] = .ok (.pop .si, []) := by decide
theorem test_decode_pusha : decode [0x62#8] = .ok (.pusha, []) := by decide
theorem test_decode_popa : decode [0x63#8] = .ok (.popa, []) := by decide
theorem test_decode_enter : decode [0x64#8, 0x10#8, 0x01#8, 0x03#8] = .ok (.enter 0x0110#16 0x03#8, []) := by decide
theorem test_decode_leave : decode [0x65#8] = .ok (.leave, []) := by decide
theorem test_decode_movsb : decode [0x70#8] = .ok (.movsb, []) := by decide
theorem test_decode_movsw : decode [0x71#8] = .ok (.movsw, []) := by decide
theorem test_decode_stosb : decode [0x72#8] = .ok (.stosb, []) := by decide
theorem test_decode_stosw : decode [0x73#8] = .ok (.stosw, []) := by decide
theorem test_decode_lodsb : decode [0x74#8] = .ok (.lodsb, []) := by decide
theorem test_decode_lodsw : decode [0x75#8] = .ok (.lodsw, []) := by decide
theorem test_decode_cmpsb : decode [0x76#8] = .ok (.cmpsb, []) := by decide
theorem test_decode_cmpsw : decode [0x77#8] = .ok (.cmpsw, []) := by decide
theorem test_decode_rep : decode [0x78#8, 0x73#8] = .ok (.rep 0x73#8, []) := by decide
theorem test_decode_repz : decode [0x79#8, 0x73#8] = .ok (.repz 0x73#8, []) := by decide
theorem test_decode_repnz : decode [0x7A#8, 0x73#8] = .ok (.repnz 0x73#8, []) := by decide

/-- The undecoded bits 7 and 3 of a selector byte are ignored (95_test_vectors.md V-LG10). -/
theorem test_decode_reserved_bits : decode [0x30#8, 0x89#8] = .ok (.andRR .ax .bx, []) := by decide

/-- A segment field is taken modulo 4 (95_test_vectors.md V-DT9). -/
theorem test_decode_segment_field : decode [0x16#8, 0x52#8] = .ok (.movSR .ds .cx, []) := by decide

theorem test_decode_truncated : decode [0x11#8, 0x00#8, 0x05#8] = .error (.truncated 0x11#8) := by decide

/-! ## Memory -/

/-- Reset memory is in canonical form, and writing what an unlisted address reads as removes the entry. -/
theorem test_memory_canonical :
    Memory.wf State.reset.mem ∧ Memory.write (Memory.write [] 5 7#8) 5 0#8 = [] ∧
    Memory.write (Memory.write [] 9 1#8) 5 7#8 = [(5, 7#8), (9, 1#8)] := by decide

/-! ## Steps -/

/-- The state with bytes at CS:pc. -/
def loaded (bytes : List Byte) (s : State) : State := placeBytes s s.pc bytes

/-- These bytes are in memory from an address on. -/
def holds (s : State) : Nat → List Byte → Bool
  | _, [] => true
  | pa, b :: bs => s.byteAt pa == b && holds s (pa + 1) bs

/-- One step gives a next state that passes a check. -/
def ends (s : State) (check : State → Bool) : Bool :=
  match step s with
  | .next t => check t
  | .fault _ => false
  | .refused _ => false

/-- One step ends in an engine error whose state passes a check. -/
def faults (s : State) (check : State → Bool) : Bool :=
  match step s with
  | .next _ => false
  | .fault f => check f.after
  | .refused _ => false

/-- 95_test_vectors.md T2.5. -/
theorem test_inc : ends (loaded [0x2A#8, 0x70#8] ((State.reset.setReg .sp 0x7FFF#16).setFlags (Flags.unpack 0x0001#16))) (fun
    t => t.getReg .sp == 0x8000#16 && t.flags.pack == 0x0885#16 && t.pc == 0x0102#16) = true := by decide

/-- 95_test_vectors.md T2.3. -/
theorem test_dec : ends (loaded [0x2B#8, 0x30#8] ((State.reset.setReg .dx 0x0000#16).setFlags (Flags.unpack 0x0001#16))) (fun
    t => t.getReg .dx == 0xFFFF#16 && t.flags.pack == 0x0085#16 && t.pc == 0x0102#16) = true := by decide

/-- 95_test_vectors.md T7. -/
theorem test_add_imm : ends (loaded [0x21#8, 0x00#8, 0x01#8, 0x00#8] (State.reset.setReg .ax 0xFFFF#16)) (fun t => t.getReg
    .ax == 0x0000#16 && t.flags.pack == 0x0045#16 && t.pc == 0x0104#16) = true := by decide

/-- 95_test_vectors.md T8. -/
theorem test_add_imm_overflow : ends (loaded [0x21#8, 0x00#8, 0x01#8, 0x00#8] (State.reset.setReg .ax 0x7FFF#16)) (fun t =>
    t.getReg .ax == 0x8000#16 && t.flags.pack == 0x0884#16 && t.pc == 0x0104#16) = true := by decide

/-- 95_test_vectors.md T11. -/
theorem test_div_by_zero : ends (loaded [0x2D#8, 0x10#8] (((((State.reset.setReg .ax 0x1234#16).setReg .dx 0x0000#16).setReg
    .bx 0x0000#16).setFlags (Flags.unpack 0x0240#16)).loadProgram [0x00#8, 0x04#8, 0x00#8, 0x00#8] 0x00000)) (fun t =>
    t.getReg .sp == 0xFFF8#16 && t.flags.pack == 0x0040#16 && t.pc == 0x0400#16 && holds t 0x1FFF8 [0x02#8, 0x01#8, 0x00#8,
    0x00#8, 0x40#8, 0x02#8]) = true := by decide

/-- 95_test_vectors.md V-AR5.1. -/
theorem test_div : ends (loaded [0x2D#8, 0x10#8] ((((State.reset.setReg .dx 0x0000#16).setReg .ax 0x0064#16).setReg .bx
    0x0007#16).setFlags (Flags.unpack 0x0041#16))) (fun t => t.getReg .ax == 0x000E#16 && t.getReg .dx == 0x0002#16 &&
    t.flags.pack == 0x0041#16 && t.pc == 0x0102#16) = true := by decide

/-- 95_test_vectors.md V-LG1. -/
theorem test_and_reg : ends (loaded [0x30#8, 0x01#8] (((State.reset.setReg .ax 0xFFFF#16).setReg .bx 0x8000#16).setFlags
    (Flags.unpack 0x0801#16))) (fun t => t.getReg .ax == 0x8000#16 && t.flags.pack == 0x0084#16 && t.pc == 0x0102#16) = true
    := by decide

/-- 95_test_vectors.md V-LG2. -/
theorem test_and_imm : ends (loaded [0x31#8, 0x20#8, 0x00#8, 0x00#8] ((State.reset.setReg .cx 0x1234#16).setFlags
    (Flags.unpack 0x0081#16))) (fun t => t.getReg .cx == 0x0000#16 && t.flags.pack == 0x0044#16 && t.pc == 0x0104#16) = true
    := by decide

/-- 95_test_vectors.md V-LG3. -/
theorem test_or_reg : ends (loaded [0x32#8, 0x00#8] ((State.reset.setReg .ax 0x0000#16).setFlags (Flags.unpack 0x0001#16)))
    (fun t => t.flags.pack == 0x0044#16 && t.pc == 0x0102#16) = true := by decide

/-- 95_test_vectors.md V-LG4. -/
theorem test_or_imm : ends (loaded [0x33#8, 0x30#8, 0x01#8, 0x80#8] (State.reset.setReg .dx 0x0100#16)) (fun t => t.getReg
    .dx == 0x8101#16 && t.flags.pack == 0x0080#16 && t.pc == 0x0104#16) = true := by decide

/-- 95_test_vectors.md T10. -/
theorem test_xor_reg : ends (loaded [0x34#8, 0x01#8] (((State.reset.setReg .ax 0xAAAA#16).setReg .bx 0xFFFF#16).setFlags
    (Flags.unpack 0x0801#16))) (fun t => t.getReg .ax == 0x5555#16 && t.flags.pack == 0x0004#16 && t.pc == 0x0102#16) = true
    := by decide

/-- 95_test_vectors.md V-LG6. -/
theorem test_xor_imm : ends (loaded [0x35#8, 0x10#8, 0xFF#8, 0xFF#8] (State.reset.setReg .bx 0x0F0F#16)) (fun t => t.getReg
    .bx == 0xF0F0#16 && t.flags.pack == 0x0084#16 && t.pc == 0x0104#16) = true := by decide

/-- 95_test_vectors.md V-LG7. -/
theorem test_test_reg : ends (loaded [0x36#8, 0x01#8] (((State.reset.setReg .ax 0x8001#16).setReg .bx 0x8000#16).setFlags
    (Flags.unpack 0x0001#16))) (fun t => t.flags.pack == 0x0084#16 && t.pc == 0x0102#16) = true := by decide

/-- 95_test_vectors.md V-LG8. -/
theorem test_test_imm : ends (loaded [0x37#8, 0x00#8, 0x01#8, 0x00#8] (State.reset.setReg .ax 0x0003#16)) (fun t =>
    t.flags.pack == 0x0000#16 && t.pc == 0x0104#16) = true := by decide

/-- 95_test_vectors.md V-LG9. -/
theorem test_not : ends (loaded [0x38#8, 0x00#8] ((State.reset.setReg .ax 0x0000#16).setFlags (Flags.unpack 0x0841#16))) (fun
    t => t.getReg .ax == 0xFFFF#16 && t.flags.pack == 0x0841#16 && t.pc == 0x0102#16) = true := by decide

/-- 95_test_vectors.md V-DT1. -/
theorem test_mov_reg : ends (loaded [0x10#8, 0x70#8] (State.reset.setReg .ax 0x2000#16)) (fun t => t.getReg .sp == 0x2000#16
    && t.pc == 0x0102#16) = true := by decide

/-- 95_test_vectors.md V-DT2. -/
theorem test_mov_imm : ends (loaded [0x11#8, 0x50#8, 0xEF#8, 0xBE#8] State.reset) (fun t => t.getReg .di == 0xBEEF#16 && t.pc
    == 0x0104#16) = true := by decide

/-- 95_test_vectors.md V-DT3. -/
theorem test_load_direct : ends (loaded [0x12#8, 0x00#8, 0xFF#8, 0xFF#8] ((State.reset.setSeg .ds 0x2000#16).loadProgram
    [0x34#8, 0x12#8] 0x2FFFF)) (fun t => t.getReg .ax == 0x1234#16 && t.pc == 0x0104#16) = true := by decide

/-- 95_test_vectors.md V-DT4. -/
theorem test_store_direct : ends (loaded [0x13#8, 0x10#8, 0x01#8, 0x03#8] (State.reset.setReg .bx 0xA1B2#16)) (fun t => t.pc
    == 0x0104#16 && holds t 0x00301 [0xB2#8, 0xA1#8]) = true := by decide

/-- 95_test_vectors.md V-DT5. -/
theorem test_load_indexed : ends (loaded [0x14#8, 0x11#8, 0x02#8, 0x00#8] ((State.reset.setReg .bx 0xFFFF#16).loadProgram
    [0x78#8, 0x56#8] 0x00001)) (fun t => t.getReg .bx == 0x5678#16 && t.pc == 0x0104#16) = true := by decide

/-- 95_test_vectors.md V-DT6. -/
theorem test_load_indexed_bp : ends (loaded [0x14#8, 0x06#8, 0x04#8, 0x00#8] ((((State.reset.setReg .bp 0x0200#16).setSeg .ds
    0x0000#16).loadProgram [0xAA#8, 0x55#8] 0x00204).loadProgram [0xBB#8, 0x66#8] 0x10204)) (fun t => t.getReg .ax ==
    0x55AA#16 && t.pc == 0x0104#16) = true := by decide

/-- 95_test_vectors.md V-DT7. -/
theorem test_store_indexed : ends (loaded [0x15#8, 0x04#8, 0xFF#8, 0xFF#8] ((State.reset.setReg .si 0x0400#16).setReg .ax
    0x0102#16)) (fun t => t.pc == 0x0104#16 && holds t 0x003FF [0x02#8, 0x01#8]) = true := by decide

/-- 95_test_vectors.md V-DT9. -/
theorem test_mov_to_segment : ends (loaded [0x16#8, 0x52#8] (State.reset.setReg .cx 0x0042#16)) (fun t => t.getSeg .ds ==
    0x0042#16 && t.pc == 0x0102#16) = true := by decide

/-- 95_test_vectors.md V-DT10. -/
theorem test_mov_from_segment : ends (loaded [0x17#8, 0x32#8] State.reset) (fun t => t.getReg .dx == 0x1000#16 && t.pc ==
    0x0102#16) = true := by decide

/-- 95_test_vectors.md V-DT11. -/
theorem test_lea : ends (loaded [0x18#8, 0x11#8, 0xFF#8, 0x7F#8] ((State.reset.setReg .bx 0x8002#16).setFlags (Flags.unpack
    0x0041#16))) (fun t => t.getReg .bx == 0x0001#16 && t.flags.pack == 0x0041#16 && t.pc == 0x0104#16) = true := by decide

/-- 95_test_vectors.md V-DT12. -/
theorem test_lds_direct : ends (loaded [0x19#8, 0x10#8, 0x00#8, 0x03#8] (((State.reset.setSeg .ds 0x0010#16).loadProgram
    [0x22#8, 0x11#8, 0x00#8, 0x50#8] 0x00400).loadProgram [0xFF#8, 0xFF#8, 0xFF#8, 0xFF#8] 0x50300)) (fun t => t.getReg .bx
    == 0x1122#16 && t.getSeg .ds == 0x5000#16 && t.pc == 0x0104#16) = true := by decide

/-- 95_test_vectors.md V-DT13. -/
theorem test_lds_indexed : ends (loaded [0x1A#8, 0x11#8, 0x00#8, 0x00#8] ((State.reset.setReg .bx 0x0300#16).loadProgram
    [0x10#8, 0x00#8, 0x00#8, 0x20#8] 0x00300)) (fun t => t.getReg .bx == 0x0010#16 && t.getSeg .ds == 0x2000#16 && t.pc ==
    0x0104#16) = true := by decide

/-- 95_test_vectors.md V-DT14. -/
theorem test_les_direct : ends (loaded [0x1B#8, 0x50#8, 0xFE#8, 0xFF#8] (((State.reset.setSeg .ds 0x3000#16).loadProgram
    [0x34#8, 0x12#8] 0x3FFFE).loadProgram [0x00#8, 0x40#8] 0x30000)) (fun t => t.getReg .di == 0x1234#16 && t.getSeg .es ==
    0x4000#16 && t.pc == 0x0104#16) = true := by decide

/-- 95_test_vectors.md V-DT15. -/
theorem test_les_indexed : ends (loaded [0x1C#8, 0x54#8, 0x02#8, 0x00#8] ((State.reset.setReg .si 0x02FE#16).loadProgram
    [0x10#8, 0x00#8, 0x00#8, 0x20#8] 0x00300)) (fun t => t.getReg .di == 0x0010#16 && t.getSeg .es == 0x2000#16 && t.pc ==
    0x0104#16) = true := by decide

/-- 95_test_vectors.md V-CF1. -/
theorem test_jmp : ends (loaded [0x40#8, 0xF0#8, 0xFF#8] State.reset) (fun t => t.pc == 0xFFF0#16) = true := by decide

/-- 95_test_vectors.md V-CF2. -/
theorem test_jmp_reg : ends (loaded [0x41#8, 0x70#8] State.reset) (fun t => t.pc == 0xFFFE#16) = true := by decide

/-- 95_test_vectors.md V-CF5. -/
theorem test_jmps_back : ends (loaded [0x42#8, 0x80#8] State.reset) (fun t => t.pc == 0x0082#16) = true := by decide

/-- 95_test_vectors.md V-CF6. -/
theorem test_jmps_wraps : ends (loaded [0x42#8, 0x10#8] (State.reset.setPc 0xFFF8#16)) (fun t => t.pc == 0x000A#16) = true :=
    by decide

/-- 95_test_vectors.md V-CF7. -/
theorem test_call : ends (loaded [0x43#8, 0x00#8, 0x02#8] (State.reset.setReg .sp 0x0000#16)) (fun t => t.getReg .sp ==
    0xFFFE#16 && t.pc == 0x0200#16 && holds t 0x1FFFE [0x03#8, 0x01#8]) = true := by decide

/-- 95_test_vectors.md V-CF8. -/
theorem test_call_reg : ends (loaded [0x44#8, 0x70#8] (State.reset.setReg .sp 0x0200#16)) (fun t => t.getReg .sp == 0x01FE#16
    && t.pc == 0x0200#16 && holds t 0x101FE [0x02#8, 0x01#8]) = true := by decide

/-- 95_test_vectors.md V-CF10. -/
theorem test_ret : ends (loaded [0x46#8] ((State.reset.setReg .sp 0xFFFC#16).loadProgram [0x34#8, 0x12#8] 0x1FFFC)) (fun t =>
    t.getReg .sp == 0xFFFE#16 && t.pc == 0x1234#16) = true := by decide

/-- 95_test_vectors.md V-CF11. -/
theorem test_ret_imm : ends (loaded [0x47#8, 0x03#8, 0x00#8] ((State.reset.setReg .sp 0xFFF0#16).loadProgram [0x00#8, 0x03#8]
    0x1FFF0)) (fun t => t.getReg .sp == 0xFFF5#16 && t.pc == 0x0300#16) = true := by decide

/-- 95_test_vectors.md V-CF12. -/
theorem test_loop_ends : ends (loaded [0x49#8, 0xFC#8] ((State.reset.setReg .cx 0x0001#16).setFlags (Flags.unpack
    0x0040#16))) (fun t => t.getReg .cx == 0x0000#16 && t.flags.pack == 0x0040#16 && t.pc == 0x0102#16) = true := by decide

/-- 95_test_vectors.md V-CF13. -/
theorem test_loop_wraps : ends (loaded [0x49#8, 0xFC#8] (State.reset.setReg .cx 0x0000#16)) (fun t => t.getReg .cx ==
    0xFFFF#16 && t.pc == 0x00FE#16) = true := by decide

/-- 95_test_vectors.md V-CF14. -/
theorem test_loopz_taken : ends (loaded [0x4A#8, 0xFC#8] ((State.reset.setReg .cx 0x0002#16).setFlags (Flags.unpack
    0x0040#16))) (fun t => t.getReg .cx == 0x0001#16 && t.pc == 0x00FE#16) = true := by decide

/-- 95_test_vectors.md V-CF15. -/
theorem test_loopz_count_wins : ends (loaded [0x4A#8, 0xFC#8] ((State.reset.setReg .cx 0x0001#16).setFlags (Flags.unpack
    0x0040#16))) (fun t => t.getReg .cx == 0x0000#16 && t.pc == 0x0102#16) = true := by decide

/-- 95_test_vectors.md V-CF16. -/
theorem test_loopnz_not_taken : ends (loaded [0x4B#8, 0xFC#8] ((State.reset.setReg .cx 0x0002#16).setFlags (Flags.unpack
    0x0040#16))) (fun t => t.getReg .cx == 0x0001#16 && t.pc == 0x0102#16) = true := by decide

/-- 95_test_vectors.md V-CF17. -/
theorem test_loopnz_taken : ends (loaded [0x4B#8, 0xFC#8] (State.reset.setReg .cx 0x0002#16)) (fun t => t.getReg .cx ==
    0x0001#16 && t.pc == 0x00FE#16) = true := by decide

/-- 95_test_vectors.md V-ST1. -/
theorem test_push_wraps : ends (loaded [0x60#8, 0x00#8] ((State.reset.setReg .ax 0xA1B2#16).setReg .sp 0x0001#16)) (fun t =>
    t.getReg .sp == 0xFFFF#16 && t.pc == 0x0102#16 && holds t 0x1FFFF [0xB2#8, 0xA1#8]) = true := by decide

/-- 95_test_vectors.md V-ST2. -/
theorem test_pop : ends (loaded [0x61#8, 0x20#8] ((State.reset.setReg .sp 0xFFFC#16).loadProgram [0xCD#8, 0xAB#8] 0x1FFFC))
    (fun t => t.getReg .cx == 0xABCD#16 && t.getReg .sp == 0xFFFE#16 && t.pc == 0x0102#16) = true := by decide

/-- 95_test_vectors.md V-ST4. -/
theorem test_pop_sp : ends (loaded [0x61#8, 0x70#8] ((State.reset.setReg .sp 0x0100#16).loadProgram [0x00#8, 0x30#8]
    0x10100)) (fun t => t.getReg .sp == 0x3000#16 && t.pc == 0x0102#16) = true := by decide

/-- 95_test_vectors.md V-ST5. -/
theorem test_pusha : ends (loaded [0x62#8] ((((((((State.reset.setReg .ax 0x1111#16).setReg .bx 0x2222#16).setReg .cx
    0x3333#16).setReg .dx 0x4444#16).setReg .si 0x5555#16).setReg .di 0x6666#16).setReg .bp 0x7777#16).setReg .sp 0x0100#16))
    (fun t => t.getReg .sp == 0x00F0#16 && t.pc == 0x0101#16 && holds t 0x100F0 [0x00#8, 0x01#8, 0x77#8, 0x77#8, 0x66#8,
    0x66#8, 0x55#8, 0x55#8, 0x44#8, 0x44#8, 0x33#8, 0x33#8, 0x22#8, 0x22#8, 0x11#8, 0x11#8]) = true := by decide

/-- 95_test_vectors.md V-ST7. -/
theorem test_popa : ends (loaded [0x63#8] ((State.reset.setReg .sp 0x00F0#16).loadProgram [0x00#8, 0x08#8, 0x07#8, 0x00#8,
    0x06#8, 0x00#8, 0x05#8, 0x00#8, 0x04#8, 0x00#8, 0x03#8, 0x00#8, 0x02#8, 0x00#8, 0x01#8, 0x00#8] 0x100F0)) (fun t =>
    t.getReg .ax == 0x0001#16 && t.getReg .bx == 0x0002#16 && t.getReg .cx == 0x0003#16 && t.getReg .dx == 0x0004#16 &&
    t.getReg .si == 0x0005#16 && t.getReg .di == 0x0006#16 && t.getReg .bp == 0x0007#16 && t.getReg .sp == 0x0800#16 && t.pc
    == 0x0101#16) = true := by decide

/-- 95_test_vectors.md V-ST8. -/
theorem test_enter_level_zero : ends (loaded [0x64#8, 0x08#8, 0x00#8, 0x00#8] ((State.reset.setReg .bp 0x0200#16).setReg .sp
    0x0100#16)) (fun t => t.getReg .bp == 0x00FE#16 && t.getReg .sp == 0x00F6#16 && t.pc == 0x0104#16 && holds t 0x100FE
    [0x00#8, 0x02#8]) = true := by decide

/-- 95_test_vectors.md V-ST10. -/
theorem test_enter_level_three : ends (loaded [0x64#8, 0x04#8, 0x00#8, 0x03#8] (((State.reset.setReg .bp 0x0200#16).setReg
    .sp 0x0100#16).loadProgram [0x22#8, 0x22#8, 0x11#8, 0x11#8] 0x101FC)) (fun t => t.getReg .bp == 0x00FE#16 && t.getReg .sp
    == 0x00F4#16 && t.pc == 0x0104#16 && holds t 0x100F8 [0xFE#8, 0x00#8, 0x22#8, 0x22#8, 0x11#8, 0x11#8, 0x00#8, 0x02#8]) =
    true := by decide

/-- 95_test_vectors.md V-SR1. -/
theorem test_movsb_down : ends (loaded [0x70#8] ((((State.reset.setReg .si 0x0000#16).setReg .di 0x0300#16).setFlags
    (Flags.unpack 0x0400#16)).loadProgram [0x5A#8] 0x00000)) (fun t => t.getReg .si == 0xFFFF#16 && t.getReg .di == 0x02FF#16
    && t.pc == 0x0101#16 && holds t 0x00300 [0x5A#8]) = true := by decide

/-- 95_test_vectors.md V-SR2. -/
theorem test_movsw : ends (loaded [0x71#8] (((((State.reset.setReg .si 0x0010#16).setReg .di 0x0020#16).setSeg .ds
    0x2000#16).setSeg .es 0x3000#16).loadProgram [0x34#8, 0x12#8] 0x20010)) (fun t => t.getReg .si == 0x0012#16 && t.getReg
    .di == 0x0022#16 && t.pc == 0x0101#16 && holds t 0x30020 [0x34#8, 0x12#8]) = true := by decide

/-- 95_test_vectors.md V-SR3. -/
theorem test_stosb : ends (loaded [0x72#8] (((State.reset.setReg .ax 0x12FF#16).setReg .di 0x0010#16).setSeg .es 0x2000#16))
    (fun t => t.getReg .di == 0x0011#16 && t.pc == 0x0101#16 && holds t 0x20010 [0xFF#8]) = true := by decide

/-- 95_test_vectors.md V-SR4. -/
theorem test_stosw_down : ends (loaded [0x73#8] ((((State.reset.setReg .ax 0x12FF#16).setReg .di 0x0010#16).setSeg .es
    0x2000#16).setFlags (Flags.unpack 0x0400#16))) (fun t => t.getReg .di == 0x000E#16 && t.pc == 0x0101#16 && holds t
    0x20010 [0xFF#8, 0x12#8]) = true := by decide

/-- 95_test_vectors.md V-SR5. -/
theorem test_lodsb : ends (loaded [0x74#8] (((State.reset.setReg .ax 0x7700#16).setReg .si 0x0200#16).loadProgram [0xAB#8]
    0x00200)) (fun t => t.getReg .ax == 0x77AB#16 && t.getReg .si == 0x0201#16 && t.pc == 0x0101#16) = true := by decide

/-- 95_test_vectors.md V-SR6. -/
theorem test_lodsw : ends (loaded [0x75#8] ((State.reset.setReg .si 0x0200#16).loadProgram [0x34#8, 0x12#8] 0x00200)) (fun t
    => t.getReg .ax == 0x1234#16 && t.getReg .si == 0x0202#16 && t.pc == 0x0101#16) = true := by decide

/-- 95_test_vectors.md V-SR7. -/
theorem test_cmpsb : ends (loaded [0x76#8] ((((State.reset.setReg .si 0x0200#16).setReg .di 0x0300#16).loadProgram [0x80#8]
    0x00200).loadProgram [0x01#8] 0x00300)) (fun t => t.getReg .si == 0x0201#16 && t.getReg .di == 0x0301#16 && t.flags.pack
    == 0x0000#16 && t.pc == 0x0101#16) = true := by decide

/-- 95_test_vectors.md V-SR8. -/
theorem test_cmpsb_borrow : ends (loaded [0x76#8] ((((State.reset.setReg .si 0x0200#16).setReg .di 0x0300#16).loadProgram
    [0x01#8] 0x00200).loadProgram [0x80#8] 0x00300)) (fun t => t.getReg .si == 0x0201#16 && t.getReg .di == 0x0301#16 &&
    t.flags.pack == 0x0085#16 && t.pc == 0x0101#16) = true := by decide

/-- 95_test_vectors.md V-SR9. -/
theorem test_cmpsw : ends (loaded [0x77#8] ((((State.reset.setReg .si 0x0200#16).setReg .di 0x0300#16).loadProgram [0x00#8,
    0x80#8] 0x00200).loadProgram [0x01#8, 0x00#8] 0x00300)) (fun t => t.getReg .si == 0x0202#16 && t.getReg .di == 0x0302#16
    && t.flags.pack == 0x0804#16 && t.pc == 0x0101#16) = true := by decide

/-- 95_test_vectors.md V-SR12. -/
theorem test_rep_movsb_overlap : ends (loaded [0x78#8, 0x70#8] ((((State.reset.setReg .cx 0x0003#16).setReg .si
    0x0200#16).setReg .di 0x0201#16).loadProgram [0x41#8, 0x42#8, 0x43#8, 0x44#8] 0x00200)) (fun t => t.getReg .cx ==
    0x0000#16 && t.getReg .si == 0x0203#16 && t.getReg .di == 0x0204#16 && t.pc == 0x0102#16 && holds t 0x00201 [0x41#8,
    0x41#8, 0x41#8]) = true := by decide

/-- 95_test_vectors.md V-SR14. -/
theorem test_repz_cmpsb_last : ends (loaded [0x79#8, 0x76#8] (((((State.reset.setReg .cx 0x0003#16).setReg .si
    0x0200#16).setReg .di 0x0300#16).loadProgram [0x01#8, 0x02#8, 0x03#8] 0x00200).loadProgram [0x01#8, 0x02#8, 0x04#8]
    0x00300)) (fun t => t.getReg .cx == 0x0000#16 && t.getReg .si == 0x0203#16 && t.getReg .di == 0x0303#16 && t.flags.pack
    == 0x0085#16 && t.pc == 0x0102#16) = true := by decide

/-- 95_test_vectors.md V-SR16. -/
theorem test_repz_movsb : ends (loaded [0x79#8, 0x70#8] ((((State.reset.setReg .cx 0x0002#16).setReg .si 0x0200#16).setReg
    .di 0x0300#16).loadProgram [0x07#8, 0x08#8] 0x00200)) (fun t => t.getReg .cx == 0x0000#16 && t.getReg .si == 0x0202#16 &&
    t.getReg .di == 0x0302#16 && t.pc == 0x0102#16 && holds t 0x00300 [0x07#8, 0x08#8]) = true := by decide

/-- 95_test_vectors.md V-SR15. -/
theorem test_repnz_cmpsw : ends (loaded [0x7A#8, 0x77#8] (((((State.reset.setReg .cx 0x0004#16).setReg .si 0x0200#16).setReg
    .di 0x0300#16).loadProgram [0x01#8, 0x00#8, 0x02#8, 0x00#8, 0x03#8, 0x00#8] 0x00200).loadProgram [0x09#8, 0x00#8, 0x02#8,
    0x00#8, 0x03#8, 0x00#8] 0x00300)) (fun t => t.getReg .cx == 0x0002#16 && t.getReg .si == 0x0204#16 && t.getReg .di ==
    0x0304#16 && t.flags.pack == 0x0044#16 && t.pc == 0x0102#16) = true := by decide

/-- 95_test_vectors.md V-SR18. -/
theorem test_rep_before_non_string : faults (loaded [0x78#8, 0x2A#8, 0x00#8] (State.reset.setReg .cx 0x0002#16)) (fun t =>
    t.pc == 0x0102#16 && t.halted == true && t.error == true && t.errmsg == some (.unknownOpcode 0x2A#8)) = true := by decide

/-- 95_test_vectors.md V-SY1. -/
theorem test_hlt : ends (loaded [0x01#8] State.reset) (fun t => t.pc == 0x0101#16 && t.halted == true) = true := by decide

/-- 95_test_vectors.md V-SY3. -/
theorem test_wait : ends (loaded [0x02#8] State.reset) (fun t => t.pc == 0x0101#16 && t.waiting == true) = true := by decide

/-- 95_test_vectors.md V-SY6. -/
theorem test_int : ends (loaded [0x03#8, 0xFF#8] ((State.reset.setFlags (Flags.unpack 0x0700#16)).loadProgram [0x00#8,
    0x06#8, 0x00#8, 0x00#8] 0x003FC)) (fun t => t.getReg .sp == 0xFFF8#16 && t.flags.pack == 0x0400#16 && t.pc == 0x0600#16
    && holds t 0x1FFF8 [0x02#8, 0x01#8, 0x00#8, 0x00#8, 0x00#8, 0x07#8]) = true := by decide

/-- 95_test_vectors.md V-SY7. -/
theorem test_iret : ends (loaded [0x04#8] ((State.reset.setReg .sp 0xFFF8#16).loadProgram [0x00#8, 0x02#8, 0x00#8, 0x30#8,
    0xFF#8, 0xFF#8] 0x1FFF8)) (fun t => t.getReg .sp == 0xFFFE#16 && t.getSeg .cs == 0x3000#16 && t.flags.pack == 0x0FC5#16
    && t.pc == 0x0200#16) = true := by decide

/-- 95_test_vectors.md V-SY8. -/
theorem test_unknown_opcode : faults (loaded [0x00#8] State.reset) (fun t => t.pc == 0x0101#16 && t.halted == true && t.error
    == true && t.errmsg == some (.unknownOpcode 0x00#8)) = true := by decide

/-- 95_test_vectors.md V-SY10. -/
theorem test_load_out_of_range : faults (loaded [0x12#8, 0x00#8, 0xF0#8, 0xFF#8] (State.reset.setSeg .ds 0xFFFF#16)) (fun t
    => t.pc == 0x0104#16 && t.halted == true && t.error == true && t.errmsg == some (.addressOutOfRange 0x10FFE0)) = true :=
    by decide

/-- 95_test_vectors.md V-SY11. -/
theorem test_store_half_out_of_range : faults (loaded [0x13#8, 0x00#8, 0x0F#8, 0x00#8] ((State.reset.setReg .ax
    0xA1B2#16).setSeg .ds 0xFFFF#16)) (fun t => t.pc == 0x0104#16 && holds t 0xFFFFF [0xB2#8] && t.halted == true && t.error
    == true && t.errmsg == some (.addressOutOfRange 0x100000)) = true := by decide

/-- 95_test_vectors.md V-SY12. -/
theorem test_push_out_of_range : faults (loaded [0x60#8, 0x00#8] (((State.reset.setReg .ax 0x0001#16).setReg .sp
    0x0012#16).setSeg .ss 0xFFFF#16)) (fun t => t.getReg .sp == 0x0010#16 && t.pc == 0x0102#16 && t.halted == true && t.error
    == true && t.errmsg == some (.addressOutOfRange 0x100000)) = true := by decide

/-- 95_test_vectors.md V-AR1. -/
theorem test_add_reg : ends (loaded [0x20#8, 0x01#8] ((State.reset.setReg .ax 0x8000#16).setReg .bx 0xFFFF#16)) (fun t =>
    t.getReg .ax == 0x7FFF#16 && t.flags.pack == 0x0805#16 && t.pc == 0x0102#16) = true := by decide

/-- 95_test_vectors.md V-AR3. -/
theorem test_adc_reg : ends (loaded [0x22#8, 0x01#8] (((State.reset.setReg .ax 0x8000#16).setFlags (Flags.unpack
    0x0001#16)).setReg .bx 0x7FFF#16)) (fun t => t.getReg .ax == 0x0000#16 && t.flags.pack == 0x0845#16 && t.pc == 0x0102#16)
    = true := by decide

/-- 95_test_vectors.md V-AR3. The same operands, the second an immediate. -/
theorem test_adc_imm : ends (loaded [0x23#8, 0x00#8, 0xFF#8, 0x7F#8] ((State.reset.setReg .ax 0x8000#16).setFlags
    (Flags.unpack 0x0001#16))) (fun t => t.getReg .ax == 0x0000#16 && t.flags.pack == 0x0845#16 && t.pc == 0x0104#16) = true
    := by decide

/-- 95_test_vectors.md V-AR3: the folded operand changes bit 15. -/
theorem test_adc_reg_folded : ends (loaded [0x22#8, 0x01#8] (((State.reset.setReg .ax 0x7FFF#16).setReg .bx
    0x7FFF#16).setFlags (Flags.unpack 0x0001#16))) (fun t => t.getReg .ax == 0xFFFF#16 && t.flags.pack == 0x0084#16) = true
    := by decide

/-- 95_test_vectors.md V-AR2. -/
theorem test_sub_reg : ends (loaded [0x24#8, 0x01#8] ((State.reset.setReg .ax 0x7FFF#16).setReg .bx 0x8000#16)) (fun t =>
    t.getReg .ax == 0xFFFF#16 && t.flags.pack == 0x0885#16 && t.pc == 0x0102#16) = true := by decide

/-- 95_test_vectors.md V-AR2. The same operands, the second an immediate. -/
theorem test_sub_imm : ends (loaded [0x25#8, 0x00#8, 0x00#8, 0x80#8] (State.reset.setReg .ax 0x7FFF#16)) (fun t => t.getReg
    .ax == 0xFFFF#16 && t.flags.pack == 0x0885#16 && t.pc == 0x0104#16) = true := by decide

/-- 95_test_vectors.md V-AR3. -/
theorem test_sbc_reg : ends (loaded [0x26#8, 0x01#8] (((State.reset.setReg .ax 0x0000#16).setFlags (Flags.unpack
    0x0001#16)).setReg .bx 0x7FFF#16)) (fun t => t.getReg .ax == 0x8000#16 && t.flags.pack == 0x0885#16 && t.pc == 0x0102#16)
    = true := by decide

/-- 95_test_vectors.md V-AR3. The same operands, the second an immediate. -/
theorem test_sbc_imm : ends (loaded [0x27#8, 0x00#8, 0xFF#8, 0x7F#8] ((State.reset.setReg .ax 0x0000#16).setFlags
    (Flags.unpack 0x0001#16))) (fun t => t.getReg .ax == 0x8000#16 && t.flags.pack == 0x0885#16 && t.pc == 0x0104#16) = true
    := by decide

/-- 95_test_vectors.md V-AR3: the folded operand changes bit 15. -/
theorem test_sbc_reg_folded : ends (loaded [0x26#8, 0x01#8] (((State.reset.setReg .ax 0x8000#16).setReg .bx
    0xFFFF#16).setFlags (Flags.unpack 0x0001#16))) (fun t => t.getReg .ax == 0x8000#16 && t.flags.pack == 0x0085#16) = true
    := by decide

/-- 95_test_vectors.md V-AR2: CMP gives the flags of SUB and leaves AX. -/
theorem test_cmp_reg : ends (loaded [0x28#8, 0x01#8] ((State.reset.setReg .ax 0x8000#16).setReg .bx 0x7FFF#16)) (fun t =>
    t.getReg .ax == 0x8000#16 && t.flags.pack == 0x0800#16 && t.pc == 0x0102#16) = true := by decide

/-- 95_test_vectors.md V-AR2: CMP gives the flags of SUB and leaves AX. The same operands, the second an immediate. -/
theorem test_cmp_imm : ends (loaded [0x29#8, 0x00#8, 0xFF#8, 0x7F#8] (State.reset.setReg .ax 0x8000#16)) (fun t => t.getReg
    .ax == 0x8000#16 && t.flags.pack == 0x0800#16 && t.pc == 0x0104#16) = true := by decide

/-- 95_test_vectors.md V-AR4. -/
theorem test_neg : ends (loaded [0x2C#8, 0x00#8] (State.reset.setReg .ax 0x8000#16)) (fun t => t.getReg .ax == 0x8000#16 &&
    t.flags.pack == 0x0885#16) = true := by decide

/-- 95_test_vectors.md V-AR4. -/
theorem test_neg_zero : ends (loaded [0x2C#8, 0x00#8] (State.reset.setFlags (Flags.unpack 0x0001#16))) (fun t => t.getReg .ax
    == 0x0000#16 && t.flags.pack == 0x0044#16) = true := by decide

/-- 95_test_vectors.md V-SY4, one of its steps. -/
theorem test_stc : ends (loaded [0x06#8] (State.reset.setFlags (Flags.unpack 0x0000#16))) (fun t => t.flags.pack == 0x0001#16
    && t.pc == 0x0101#16) = true := by decide

/-- 95_test_vectors.md V-SY4, one of its steps. -/
theorem test_std : ends (loaded [0x0A#8] (State.reset.setFlags (Flags.unpack 0x0001#16))) (fun t => t.flags.pack == 0x0401#16
    && t.pc == 0x0101#16) = true := by decide

/-- 95_test_vectors.md V-SY4, one of its steps. -/
theorem test_sti : ends (loaded [0x08#8] (State.reset.setFlags (Flags.unpack 0x0401#16))) (fun t => t.flags.pack == 0x0601#16
    && t.pc == 0x0101#16) = true := by decide

/-- 95_test_vectors.md V-SY5, one of its steps. -/
theorem test_clc : ends (loaded [0x05#8] (State.reset.setFlags (Flags.unpack 0x0FC5#16))) (fun t => t.flags.pack == 0x0FC4#16
    && t.pc == 0x0101#16) = true := by decide

/-- 95_test_vectors.md V-SY5, one of its steps. -/
theorem test_cld : ends (loaded [0x09#8] (State.reset.setFlags (Flags.unpack 0x0FC4#16))) (fun t => t.flags.pack == 0x0BC4#16
    && t.pc == 0x0101#16) = true := by decide

/-- 95_test_vectors.md V-SY5, one of its steps. -/
theorem test_cli : ends (loaded [0x07#8] (State.reset.setFlags (Flags.unpack 0x0BC4#16))) (fun t => t.flags.pack == 0x09C4#16
    && t.pc == 0x0101#16) = true := by decide

/-- 95_test_vectors.md V-CF9, its first step. -/
theorem test_callf : ends (loaded [0x45#8, 0x10#8, 0x00#8, 0x00#8, 0x20#8] State.reset) (fun t => t.getSeg .cs == 0x2000#16
    && t.pc == 0x0010#16 && t.getReg .sp == 0xFFFA#16 && holds t 0x1FFFA [0x05#8, 0x01#8, 0x00#8, 0x00#8]) = true := by decide

/-- 95_test_vectors.md V-CF9, its second step. -/
theorem test_retf : ends (loaded [0x48#8] ((((State.reset.setSeg .cs 0x2000#16).setPc 0x0010#16).setReg .sp
    0xFFFA#16).loadProgram [0x05#8, 0x01#8, 0x00#8, 0x00#8] 0x1FFFA)) (fun t => t.getSeg .cs == 0x0000#16 && t.pc ==
    0x0105#16 && t.getReg .sp == 0xFFFE#16) = true := by decide

/-- 95_test_vectors.md V-ST12, its second step. -/
theorem test_leave : ends (loaded [0x65#8] (((State.reset.setReg .bp 0x00FE#16).setReg .sp 0x00F4#16).loadProgram [0x00#8,
    0x02#8] 0x100FE)) (fun t => t.getReg .bp == 0x0200#16 && t.getReg .sp == 0x0100#16 && t.pc == 0x0101#16) = true := by
    decide

/-- 95_test_vectors.md V-CF18, AX=0x7FFF, BX=0xFFFF. -/
theorem test_jo_taken : ends (loaded [0x50#8, 0x10#8] ((State.reset.setPc 0x0102#16).setFlags (Flags.unpack 0x0885#16))) (fun
    t => t.pc == 0x0114#16) = true := by decide

/-- 95_test_vectors.md V-CF18, AX=0x0000, BX=0xFFFF. -/
theorem test_jo_not_taken : ends (loaded [0x50#8, 0x10#8] ((State.reset.setPc 0x0102#16).setFlags (Flags.unpack 0x0001#16)))
    (fun t => t.pc == 0x0104#16) = true := by decide

/-- 95_test_vectors.md V-CF18, AX=0x0000, BX=0xFFFF. -/
theorem test_jno_taken : ends (loaded [0x51#8, 0x10#8] ((State.reset.setPc 0x0102#16).setFlags (Flags.unpack 0x0001#16)))
    (fun t => t.pc == 0x0114#16) = true := by decide

/-- 95_test_vectors.md V-CF18, AX=0x7FFF, BX=0xFFFF. -/
theorem test_jno_not_taken : ends (loaded [0x51#8, 0x10#8] ((State.reset.setPc 0x0102#16).setFlags (Flags.unpack 0x0885#16)))
    (fun t => t.pc == 0x0104#16) = true := by decide

/-- 95_test_vectors.md V-CF18, AX=0x0000, BX=0xFFFF. -/
theorem test_jc_taken : ends (loaded [0x52#8, 0x10#8] ((State.reset.setPc 0x0102#16).setFlags (Flags.unpack 0x0001#16))) (fun
    t => t.pc == 0x0114#16) = true := by decide

/-- 95_test_vectors.md V-CF18, AX=0xFFFF, BX=0x0001. -/
theorem test_jc_not_taken : ends (loaded [0x52#8, 0x10#8] ((State.reset.setPc 0x0102#16).setFlags (Flags.unpack 0x0080#16)))
    (fun t => t.pc == 0x0104#16) = true := by decide

/-- 95_test_vectors.md V-CF18, AX=0xFFFF, BX=0x0001. -/
theorem test_jnc_taken : ends (loaded [0x53#8, 0x10#8] ((State.reset.setPc 0x0102#16).setFlags (Flags.unpack 0x0080#16)))
    (fun t => t.pc == 0x0114#16) = true := by decide

/-- 95_test_vectors.md V-CF18, AX=0x0000, BX=0xFFFF. -/
theorem test_jnc_not_taken : ends (loaded [0x53#8, 0x10#8] ((State.reset.setPc 0x0102#16).setFlags (Flags.unpack 0x0001#16)))
    (fun t => t.pc == 0x0104#16) = true := by decide

/-- 95_test_vectors.md V-CF18, AX=0x0005, BX=0x0005. -/
theorem test_jz_taken : ends (loaded [0x54#8, 0x10#8] ((State.reset.setPc 0x0102#16).setFlags (Flags.unpack 0x0044#16))) (fun
    t => t.pc == 0x0114#16) = true := by decide

/-- 95_test_vectors.md V-CF18, AX=0x0000, BX=0xFFFF. -/
theorem test_jz_not_taken : ends (loaded [0x54#8, 0x10#8] ((State.reset.setPc 0x0102#16).setFlags (Flags.unpack 0x0001#16)))
    (fun t => t.pc == 0x0104#16) = true := by decide

/-- 95_test_vectors.md V-CF18, AX=0x0000, BX=0xFFFF. -/
theorem test_jnz_taken : ends (loaded [0x55#8, 0x10#8] ((State.reset.setPc 0x0102#16).setFlags (Flags.unpack 0x0001#16)))
    (fun t => t.pc == 0x0114#16) = true := by decide

/-- 95_test_vectors.md V-CF18, AX=0x0005, BX=0x0005. -/
theorem test_jnz_not_taken : ends (loaded [0x55#8, 0x10#8] ((State.reset.setPc 0x0102#16).setFlags (Flags.unpack 0x0044#16)))
    (fun t => t.pc == 0x0104#16) = true := by decide

/-- 95_test_vectors.md V-CF18, AX=0x0000, BX=0xFFFF. -/
theorem test_jbe_taken : ends (loaded [0x56#8, 0x10#8] ((State.reset.setPc 0x0102#16).setFlags (Flags.unpack 0x0001#16)))
    (fun t => t.pc == 0x0114#16) = true := by decide

/-- 95_test_vectors.md V-CF18, AX=0xFFFF, BX=0x0001. -/
theorem test_jbe_not_taken : ends (loaded [0x56#8, 0x10#8] ((State.reset.setPc 0x0102#16).setFlags (Flags.unpack 0x0080#16)))
    (fun t => t.pc == 0x0104#16) = true := by decide

/-- 95_test_vectors.md V-CF18, AX=0xFFFF, BX=0x0001. -/
theorem test_ja_taken : ends (loaded [0x57#8, 0x10#8] ((State.reset.setPc 0x0102#16).setFlags (Flags.unpack 0x0080#16))) (fun
    t => t.pc == 0x0114#16) = true := by decide

/-- 95_test_vectors.md V-CF18, AX=0x0000, BX=0xFFFF. -/
theorem test_ja_not_taken : ends (loaded [0x57#8, 0x10#8] ((State.reset.setPc 0x0102#16).setFlags (Flags.unpack 0x0001#16)))
    (fun t => t.pc == 0x0104#16) = true := by decide

/-- 95_test_vectors.md V-CF18, AX=0x7FFF, BX=0xFFFF. -/
theorem test_js_taken : ends (loaded [0x58#8, 0x10#8] ((State.reset.setPc 0x0102#16).setFlags (Flags.unpack 0x0885#16))) (fun
    t => t.pc == 0x0114#16) = true := by decide

/-- 95_test_vectors.md V-CF18, AX=0x0000, BX=0xFFFF. -/
theorem test_js_not_taken : ends (loaded [0x58#8, 0x10#8] ((State.reset.setPc 0x0102#16).setFlags (Flags.unpack 0x0001#16)))
    (fun t => t.pc == 0x0104#16) = true := by decide

/-- 95_test_vectors.md V-CF18, AX=0x0000, BX=0xFFFF. -/
theorem test_jns_taken : ends (loaded [0x59#8, 0x10#8] ((State.reset.setPc 0x0102#16).setFlags (Flags.unpack 0x0001#16)))
    (fun t => t.pc == 0x0114#16) = true := by decide

/-- 95_test_vectors.md V-CF18, AX=0x7FFF, BX=0xFFFF. -/
theorem test_jns_not_taken : ends (loaded [0x59#8, 0x10#8] ((State.reset.setPc 0x0102#16).setFlags (Flags.unpack 0x0885#16)))
    (fun t => t.pc == 0x0104#16) = true := by decide

/-- 95_test_vectors.md V-CF18, AX=0x7FFF, BX=0xFFFF. -/
theorem test_jp_taken : ends (loaded [0x5A#8, 0x10#8] ((State.reset.setPc 0x0102#16).setFlags (Flags.unpack 0x0885#16))) (fun
    t => t.pc == 0x0114#16) = true := by decide

/-- 95_test_vectors.md V-CF18, AX=0x0000, BX=0xFFFF. -/
theorem test_jp_not_taken : ends (loaded [0x5A#8, 0x10#8] ((State.reset.setPc 0x0102#16).setFlags (Flags.unpack 0x0001#16)))
    (fun t => t.pc == 0x0104#16) = true := by decide

/-- 95_test_vectors.md V-CF18, AX=0x0000, BX=0xFFFF. -/
theorem test_jnp_taken : ends (loaded [0x5B#8, 0x10#8] ((State.reset.setPc 0x0102#16).setFlags (Flags.unpack 0x0001#16)))
    (fun t => t.pc == 0x0114#16) = true := by decide

/-- 95_test_vectors.md V-CF18, AX=0x7FFF, BX=0xFFFF. -/
theorem test_jnp_not_taken : ends (loaded [0x5B#8, 0x10#8] ((State.reset.setPc 0x0102#16).setFlags (Flags.unpack 0x0885#16)))
    (fun t => t.pc == 0x0104#16) = true := by decide

/-- 95_test_vectors.md V-CF18, AX=0xFFFF, BX=0x0001. -/
theorem test_jl_taken : ends (loaded [0x5C#8, 0x10#8] ((State.reset.setPc 0x0102#16).setFlags (Flags.unpack 0x0080#16))) (fun
    t => t.pc == 0x0114#16) = true := by decide

/-- 95_test_vectors.md V-CF18, AX=0x0000, BX=0xFFFF. -/
theorem test_jl_not_taken : ends (loaded [0x5C#8, 0x10#8] ((State.reset.setPc 0x0102#16).setFlags (Flags.unpack 0x0001#16)))
    (fun t => t.pc == 0x0104#16) = true := by decide

/-- 95_test_vectors.md V-CF18, AX=0x0000, BX=0xFFFF. -/
theorem test_jge_taken : ends (loaded [0x5D#8, 0x10#8] ((State.reset.setPc 0x0102#16).setFlags (Flags.unpack 0x0001#16)))
    (fun t => t.pc == 0x0114#16) = true := by decide

/-- 95_test_vectors.md V-CF18, AX=0xFFFF, BX=0x0001. -/
theorem test_jge_not_taken : ends (loaded [0x5D#8, 0x10#8] ((State.reset.setPc 0x0102#16).setFlags (Flags.unpack 0x0080#16)))
    (fun t => t.pc == 0x0104#16) = true := by decide

/-- 95_test_vectors.md V-CF18, AX=0xFFFF, BX=0x0001. -/
theorem test_jle_taken : ends (loaded [0x5E#8, 0x10#8] ((State.reset.setPc 0x0102#16).setFlags (Flags.unpack 0x0080#16)))
    (fun t => t.pc == 0x0114#16) = true := by decide

/-- 95_test_vectors.md V-CF18, AX=0x0000, BX=0xFFFF. -/
theorem test_jle_not_taken : ends (loaded [0x5E#8, 0x10#8] ((State.reset.setPc 0x0102#16).setFlags (Flags.unpack 0x0001#16)))
    (fun t => t.pc == 0x0104#16) = true := by decide

/-- 95_test_vectors.md V-CF18, AX=0x0000, BX=0xFFFF. -/
theorem test_jg_taken : ends (loaded [0x5F#8, 0x10#8] ((State.reset.setPc 0x0102#16).setFlags (Flags.unpack 0x0001#16))) (fun
    t => t.pc == 0x0114#16) = true := by decide

/-- 95_test_vectors.md V-CF18, AX=0xFFFF, BX=0x0001. -/
theorem test_jg_not_taken : ends (loaded [0x5F#8, 0x10#8] ((State.reset.setPc 0x0102#16).setFlags (Flags.unpack 0x0080#16)))
    (fun t => t.pc == 0x0104#16) = true := by decide

/-! ## Witnesses: a concrete state that meets the hypotheses of each statement that has some -/

/-- A state whose data, extra and stack segments start at 0xF0000, so that offset 0xFFFE is the last word of memory. -/
def top : State :=
  { State.reset with
    segs := { cs := 0x0000#16, ds := 0xF000#16, ss := 0xF000#16, es := 0xF000#16 }
    regs := { Regs.reset with sp := 0x0000#16, si := 0xFFFE#16, di := 0xFFFE#16, bp := 0xFFFE#16 } }

/-- A state whose data and extra segments are the highest that lie wholly in memory. -/
def high : State :=
  { State.reset with
    segs := { cs := 0x0000#16, ds := 0xEFFF#16, ss := 0x1000#16, es := 0xEFFF#16 }
    regs := { Regs.reset with cx := 0x0002#16 } }

theorem witness_DecodedLength_shortest : decode [0x01#8] = .ok (.hlt, []) := by decide

theorem witness_DecodedLength_longest :
    decode [0x45#8, 0x10#8, 0x00#8, 0x00#8, 0x20#8, 0x99#8] = .ok (.callF 0x0010#16 0x2000#16, [0x99#8]) := by decide

/-- INC BX at the reset pc. -/
def incAtReset : State := loaded [0x2A#8, 0x10#8] State.reset

/-- The hypotheses of StepRunsDecoded on an instruction that gives a next state. -/
theorem witness_StepRunsDecoded :
    readyToFetch incAtReset ∧ decode [0x2A#8, 0x10#8] = .ok (.incR .bx, []) ∧
    (∀ k b, [0x2A#8, 0x10#8][k]? = some b →
      phys (incAtReset.getSeg .cs) (incAtReset.pc + BitVec.ofNat 16 k) < Config.memSize ∧
      incAtReset.byteAt (phys (incAtReset.getSeg .cs) (incAtReset.pc + BitVec.ofNat 16 k)) = b) ∧
    ∀ t : State, ∃ u, exec (.incR .bx) t = .next u := by
  refine ⟨by unfold readyToFetch; decide, by decide, ?_, fun t => ⟨_, rfl⟩⟩
  rintro (_ | _ | k) b h
  · cases h; decide
  · cases h; decide
  · simp at h

/-- The hypotheses of StepRunsDecoded on an instruction that ends in a fault: MOV AX,[0x000F] through DS = 0xFFFF. -/
theorem witness_StepRunsDecoded_fault :
    ∃ s : State, readyToFetch s ∧ decode [0x12#8, 0x00#8, 0x0F#8, 0x00#8] = .ok (.movRA .ax 0x000F#16, []) ∧
    (∀ k b, [0x12#8, 0x00#8, 0x0F#8, 0x00#8][k]? = some b →
      phys (s.getSeg .cs) (s.pc + BitVec.ofNat 16 k) < Config.memSize ∧
      s.byteAt (phys (s.getSeg .cs) (s.pc + BitVec.ofNat 16 k)) = b) ∧
    ∃ f, step s = .fault f := by
  refine ⟨loaded [0x12#8, 0x00#8, 0x0F#8, 0x00#8] (State.reset.setSeg .ds 0xFFFF#16), by unfold readyToFetch; decide, by decide, ?_, ⟨_, rfl⟩⟩
  rintro (_ | _ | _ | _ | k) b h
  · cases h; decide
  · cases h; decide
  · cases h; decide
  · cases h; decide
  · simp at h

/-- A core that waits with a request pending that I masks. -/
def waitingMasked : State := { State.reset with waiting := true, pending := true, pvec := 8#8 }

theorem witness_IdleStep :
    waitingMasked.halted = false ∧ waitingMasked.error = false ∧ waitingMasked.waiting = true ∧
    ¬ (waitingMasked.pending = true ∧ waitingMasked.flags.i = true) := by decide

theorem witness_HaltedStep_halted : (State.errored State.reset (.unknownOpcode 0#8)).halted = true := by decide

theorem witness_HaltedStep_error_alone : ({ State.reset with error := true } : State).error = true := by decide

theorem room_at_reset (n : Nat) : roomToPush State.reset n := fun _ _ => phys_inRange (by decide) _

theorem words_at_reset (n : Nat) : wordsToPop State.reset n := fun _ _ => phys_inRange (by decide) _

/-- Pushes from SP = 0 in the highest stack segment stay in memory: the first word is the last of memory. -/
theorem room_at_top : roomToPush top 8 := by
  intro k hk
  interval_cases k <;> (unfold wordInRange; decide)

theorem words_at_top : wordsToPop (top.setReg .sp 0xFFF0#16) 8 := by
  intro k hk
  interval_cases k <;> (unfold wordInRange; decide)

/-- A core that waits with an enabled request for the last vector. -/
def waitingEnabled : State :=
  { top with waiting := true, pending := true, pvec := 0xFF#8, flags := { Flags.reset with i := true } }

theorem witness_InterruptAcceptance :
    waitingEnabled.halted = false ∧ waitingEnabled.error = false ∧ waitingEnabled.pending = true ∧ waitingEnabled.flags.i = true ∧
    roomToPush waitingEnabled 3 :=
  ⟨rfl, rfl, rfl, rfl, fun k hk => room_at_top k (by omega)⟩

theorem witness_EngineErrorStopsEngine : ∃ f, step State.reset = .fault f := ⟨_, rfl⟩

theorem witness_UnknownOpcodeFaults_zero :
    readyToFetch State.reset ∧ phys (State.reset.getSeg .cs) State.reset.pc < Config.memSize ∧
    State.reset.byteAt (phys (State.reset.getSeg .cs) State.reset.pc) = 0x00#8 ∧ unassigned 0x00#8 := by
  unfold readyToFetch unassigned; decide

theorem witness_UnknownOpcodeFaults_last :
    readyToFetch (loaded [0xFF#8] State.reset) ∧ (loaded [0xFF#8] State.reset).byteAt 0x00100 = 0xFF#8 ∧ unassigned 0xFF#8 ∧
    unassigned 0x7B#8 := by
  unfold readyToFetch unassigned; decide

theorem witness_UnknownOpcodeFaults_repeat :
    ¬ (0x70 ≤ (0x6F#8).toNat ∧ (0x6F#8).toNat ≤ 0x77) ∧ ¬ (0x70 ≤ (0x78#8).toNat ∧ (0x78#8).toNat ≤ 0x77) := by decide

/-- Every segment is 0xFFFF, so that offset 0x000F is the last byte of memory and a word there has its high byte outside. -/
def edge : State :=
  { State.reset with
    segs := { cs := 0xFFFF#16, ds := 0xFFFF#16, ss := 0xFFFF#16, es := 0xFFFF#16 }
    regs := { Regs.reset with sp := 0x0011#16, si := 0x000F#16, di := 0x0010#16, bp := 0x000F#16 }
    pc := 0x000F#16 }

/-- A direct and an indexed MOV, a push, a call, a pop, ENTER and a string operand whose first byte outside is the one past memory. -/
theorem witness_OutOfRangeFaults_first :
    (∀ i ∈ [Instr.movRA .ax 0x000F#16, .movXR .ax .si 0x0000#16, .push .ax, .callF 0#16 0#16, .pop .ax, .leave, .movsb],
      firstOutside (dataAccesses i (if i = .pop .ax then edge.setReg .sp 0x000F#16 else edge)) = some 0x100000) ∧
    firstOutside (dataAccesses (.enter 0x0000#16 0x21#8) edge) = some 0x100000 := by decide

/-- The second word of a far pointer, the third push of INT and the destination of MOVSB lie outside, what comes before inside. -/
theorem witness_OutOfRangeFaults_later :
    firstOutside (dataAccesses (.ldsA .ax 0x000D#16) edge) = some 0x100000 ∧
    firstOutside (dataAccesses (.int 0#8) (edge.setReg .sp 0x0005#16)) = some 0x10FFEF ∧
    firstOutside (dataAccesses .movsb edge) = some 0x100000 := by decide

/-- Accesses up to the last byte of memory. -/
theorem witness_OutOfRangeFaults_none :
    (∀ b, Instr.lodsb ≠ .rep b ∧ Instr.lodsb ≠ .repz b ∧ Instr.lodsb ≠ .repnz b) ∧ firstOutside (dataAccesses .lodsb edge) = none ∧
    firstOutside (dataAccesses (.int 0xFF#8) top) = none ∧ firstOutside (dataAccesses (.movAR .ax 0xFFFE#16) top) = none := by
  exact ⟨fun b => by simp, by decide, by decide, by decide⟩

/-- The opcode byte outside, and the operand byte of INT outside with its opcode byte the last of memory. -/
theorem witness_OutOfRangeFaults_fetch :
    (readyToFetch (edge.setPc 0x0010#16) ∧ decode [] = .error .empty ∧
      Config.memSize ≤ phys ((edge.setPc 0x0010#16).getSeg .cs) ((edge.setPc 0x0010#16).pc + BitVec.ofNat 16 ([] : List Byte).length)) ∧
    (readyToFetch (edge.loadProgram [0x03#8] 0xFFFFF) ∧ bytesAtPc (edge.loadProgram [0x03#8] 0xFFFFF) [0x03#8] ∧
      decode [0x03#8] = .error (.truncated 0x03#8) ∧
      Config.memSize ≤ phys (edge.getSeg .cs) (edge.pc + BitVec.ofNat 16 [0x03#8].length)) := by
  refine ⟨⟨by unfold readyToFetch; decide, rfl, by decide⟩, by unfold readyToFetch; decide, ?_, by decide, by decide⟩
  rintro (_ | k) b h
  · cases h; decide
  · simp at h

/-- A request accepted with no room on the stack. -/
theorem witness_OutOfRangeFaults_acceptance :
    let s := { edge with pending := true, pvec := 0xFF#8, flags := { Flags.reset with i := true } }
    s.halted = false ∧ s.error = false ∧ s.pending = true ∧ s.flags.i = true ∧ firstOutside (entryBytes s s.pvec) = some 0x100000 := by
  decide

theorem witness_StepKeepsInvariant_fault : Machine.Inv State.reset ∧ ∃ f, step State.reset = .fault f := by
  refine ⟨by unfold Machine.Inv; decide, ⟨_, rfl⟩⟩

theorem witness_StepKeepsInvariant_next : Machine.Inv incAtReset ∧ ∃ t, step incAtReset = .next t := by
  refine ⟨by unfold Machine.Inv; decide, ⟨_, rfl⟩⟩

/-- 95_test_vectors.md V-SY14: a second request overwrites the first, its vector taken modulo 256. -/
theorem test_request_overwrites :
    ((State.reset.requestInterrupt 3).requestInterrupt 0x105).pvec = 5#8 ∧
    ((State.reset.requestInterrupt 3).requestInterrupt 0x105).pending = true := by decide

theorem witness_LoadProgramCopies_fits : 0xFFFFE + [0x01#8, 0x02#8].length ≤ Config.memSize := by decide

theorem witness_LoadProgramCopies_refused : Config.memSize < 0xFFFFE + [0x01#8, 0x02#8, 0x03#8].length := by decide

theorem witness_OnlyStoresChangeMemory :
    (∃ t, exec (.incR .ax) State.reset = .next t) ∧ storesMemory (.incR .ax) = false ∧ storesMemory (.rep 0x76#8) = false := by
  exact ⟨⟨_, rfl⟩, by decide, by decide⟩

theorem witness_SegmentWriters : (∃ t, exec (.movSR .ss .ax) State.reset = .next t) ∧ SReg.cs ∉ segsWritten (.movSR .ss .ax) := by
  exact ⟨⟨_, rfl⟩, by decide⟩

theorem witness_FlagWriters : (∃ t, exec (.incR .ax) State.reset = .next t) ∧ Flag.c ∉ flagsWritten (.incR .ax) := by
  exact ⟨⟨_, rfl⟩, by decide⟩

theorem witness_RunStateWriters : (∃ t, exec .wait State.reset = .next t) ∧ Instr.wait ≠ .hlt := ⟨⟨_, rfl⟩, by decide⟩

theorem witness_InstructionCountedOnce :
    incAtReset.halted = false ∧ incAtReset.error = false ∧ incAtReset.waiting = false ∧ ∃ t, step incAtReset = .next t :=
  ⟨rfl, rfl, rfl, ⟨_, rfl⟩⟩

/-- The last word of memory. -/
theorem witness_WordAccess : wordInRange 0xFFFFE := by unfold wordInRange; decide

/-- The greatest folded operand, 0xFFFF with the carry. -/
theorem witness_AddDerivation : 0xFFFF + 1 ≤ 0x10000 := by decide

theorem witness_SubDerivation : 0xFFFF + 1 ≤ 0x10000 := by decide

theorem witness_PushPopResults : roomToPush top 1 ∧ wordsToPop (top.setReg .sp 0xFFFE#16) 1 :=
  ⟨fun k hk => room_at_top k (by omega), by intro k hk; interval_cases k; unfold wordInRange; decide⟩

theorem witness_PushPopRoundtrip : roomToPush top 1 := fun k hk => room_at_top k (by omega)

theorem witness_PushaResult : roomToPush top 8 := room_at_top

theorem witness_PopaResult : wordsToPop (top.setReg .sp 0xFFF0#16) 8 := words_at_top

theorem witness_PushaPopaRoundtrip : roomToPush top 8 := room_at_top

/-- The greatest level, 31, with BP above SP in a segment that lies wholly in memory. -/
theorem witness_EnterLeaveResults :
    (0xFF#8).toNat % 32 = 31 ∧ roomToPush State.reset ((0xFF#8).toNat % 32 + 1) ∧ chainReadable State.reset ((0xFF#8).toNat % 32) :=
  ⟨by decide, room_at_reset _, fun _ _ _ => phys_inRange (by decide) _⟩

/-- At level 2 with BP and SP apart the copied word is not overwritten by the pushes. -/
theorem witness_EnterLeaveResults_copy :
    let s := State.reset.setReg .bp 0x0200#16
    ∀ a, inWord (stackAddress s (s.getReg .bp - BitVec.ofNat 16 (2 * 1))) a → ¬ inPushed s 3 a := by
  rintro s a ha ⟨k, hk, h⟩
  have e : ∀ k, k < 3 → stackAddress s (s.getReg .bp - BitVec.ofNat 16 (2 * 1)) + 2 ≤ stackAddress s (pushOffset s (k + 1)) := by decide
  have := e k hk
  unfold inWord at *
  omega

theorem witness_EnterLeaveResults_leave : wordInRange (stackAddress top (top.getReg .bp)) := by unfold wordInRange; decide

theorem witness_EnterLeaveInverse :
    roomToPush State.reset ((0xFF#8).toNat % 32 + 1) ∧ chainReadable State.reset ((0xFF#8).toNat % 32) :=
  ⟨room_at_reset _, fun _ _ _ => phys_inRange (by decide) _⟩

theorem witness_LoadResults :
    wordInRange (phys (top.getSeg .ds) 0xFFFE#16) ∧ wordInRange (phys (top.getSeg .ds) (top.getReg .si + 0x0000#16)) := by
  unfold wordInRange; decide

theorem witness_StoreResults :
    wordInRange (phys (top.getSeg .ds) 0xFFFE#16) ∧ wordInRange (phys (top.getSeg .ds) (top.getReg .si + 0x0000#16)) := by
  unfold wordInRange; decide

/-- The segment word of the pointer is at the offset that wraps to 0. -/
theorem witness_FarPointerLoads :
    wordInRange (phys (top.getSeg .ds) 0xFFFE#16) ∧ wordInRange (phys (top.getSeg .ds) (0xFFFE#16 + 2#16)) ∧
    wordInRange (phys (top.getSeg .ds) (top.getReg .si + 0x0000#16)) ∧
    wordInRange (phys (top.getSeg .ds) (top.getReg .si + 0x0000#16 + 2#16)) := by
  unfold wordInRange; decide

/-- The greatest divisor with the greatest DX that does not overflow. -/
theorem witness_DivCompletes :
    let s := (State.reset.setReg .dx 0xFFFE#16).setReg .bx 0xFFFF#16
    (s.getReg .dx).toNat < (s.getReg .bx).toNat := by decide

/-- A zero divisor, and a divisor equal to DX. -/
theorem witness_DivFaultEntersVectorZero :
    (State.reset.getReg .bx).toNat ≤ (State.reset.getReg .dx).toNat ∧
    ((State.reset.setReg .dx 3#16).getReg .dx).toNat ≤ ((State.reset.setReg .dx 3#16).getReg .dx).toNat ∧ roomToPush State.reset 3 :=
  ⟨by decide, by decide, room_at_reset 3⟩

theorem witness_CallResults : roomToPush top 1 ∧ roomToPush top 2 :=
  ⟨fun k hk => room_at_top k (by omega), fun k hk => room_at_top k (by omega)⟩

theorem witness_ReturnResults : wordsToPop (top.setReg .sp 0xFFF0#16) 1 ∧ wordsToPop (top.setReg .sp 0xFFF0#16) 2 :=
  ⟨fun k hk => words_at_top k (by omega), fun k hk => words_at_top k (by omega)⟩

theorem witness_CallReturnRoundtrip : roomToPush top 1 ∧ roomToPush top 2 := witness_CallResults

theorem witness_MovsStosResults :
    stringSource top < Config.memSize ∧ stringDest top < Config.memSize ∧ wordInRange (stringSource top) ∧
    wordInRange (stringDest top) := by
  unfold wordInRange; decide

theorem witness_LodsCmpsResults :
    stringSource top < Config.memSize ∧ stringDest top < Config.memSize ∧ wordInRange (stringSource top) ∧
    wordInRange (stringDest top) := by
  unfold wordInRange; decide

theorem witness_RepeatCompletes_ranges :
    segmentInRange (high.getSeg .ds) ∧ segmentInRange (high.getSeg .es) ∧ (0x70#8, Instr.movsb) ∈ stringOpcodes ∧
    (0x77#8, Instr.cmpsw) ∈ stringOpcodes := by
  unfold segmentInRange wordInRange; decide

/-- REP LODSB of one byte ends after one turn with CX used up; with CX = 0 it ends before any. -/
theorem witness_RepeatCompletes_ends :
    (∃ t, repeatTurns (.rep 0x74#8) 0x74#8 .lodsb 1 (high.setReg .cx 1#16) t ∧ repeatEnds (.rep 0x74#8) 0x74#8 1 t) ∧
    ∃ t, repeatTurns (.rep 0x74#8) 0x74#8 .lodsb 0 State.reset t ∧ repeatEnds (.rep 0x74#8) 0x74#8 0 t := by
  refine ⟨⟨_, ⟨_, _, rfl, ?_, rfl, rfl⟩, .inl (by decide)⟩, ⟨_, rfl, .inl rfl⟩⟩
  unfold repeatEnds stopsRepeat; decide

/-- REPNZ CMPSB of equal bytes is stopped by the flag of its first turn with CX not used up. -/
theorem witness_RepeatCompletes_stops :
    ∃ t, repeatTurns (.repnz 0x76#8) 0x76#8 .cmpsb 1 high t ∧ t.getReg .cx ≠ 0#16 ∧ repeatEnds (.repnz 0x76#8) 0x76#8 1 t := by
  refine ⟨_, ⟨_, _, rfl, ?_, rfl, rfl⟩, by decide, .inr ⟨by decide, ?_⟩⟩
  · unfold repeatEnds stopsRepeat; decide
  · unfold stopsRepeat; decide

/-- A turn of REP STOSB at the first address past memory raises. -/
theorem witness_RepeatCompletes_raises :
    let s := (State.reset.setSeg .es 0xFFFF#16).setReg .di 0x0010#16 |>.setReg .cx 1#16
    repeatTurns (.rep 0x72#8) 0x72#8 .stosb 0 s s ∧ ¬ repeatEnds (.rep 0x72#8) 0x72#8 0 s ∧ ∃ f, exec .stosb s = .fault f := by
  refine ⟨rfl, ?_, ⟨_, rfl⟩⟩
  unfold repeatEnds stopsRepeat; decide

theorem witness_RepeatedCompareStops : segmentInRange (high.getSeg .ds) ∧ segmentInRange (high.getSeg .es) := by
  unfold segmentInRange wordInRange; decide

/-- Two bytes copied to the last two offsets of the highest segment, right after the source. -/
theorem witness_RepMovsbCopies :
    let s := { top with regs := { top.regs with cx := 2#16, si := 0xFFFC#16 } }
    (s.getReg .cx).toNat = 2 ∧ s.flags.d = false ∧ (s.getReg .si).toNat + 2 ≤ 0x10000 ∧ (s.getReg .di).toNat + 2 ≤ 0x10000 ∧
    stringSource s + 2 ≤ Config.memSize ∧ stringDest s + 2 ≤ Config.memSize ∧ stringSource s + 2 ≤ stringDest s := by decide

theorem witness_IntEntersHandler : roomToPush top 3 := fun k hk => room_at_top k (by omega)

theorem witness_IretRestores : wordsToPop (top.setReg .sp 0xFFF0#16) 3 := fun k hk => words_at_top k (by omega)

theorem witness_InterruptRoundtrip : roomToPush top 3 := fun k hk => room_at_top k (by omega)

end Sys2Proof.Tests
end

section
/-! PROOFS. What every instruction but HLT and WAIT keeps (10_state.md R40 to R43), and the invariant of the machine along a step. -/

namespace Sys2Proof.Machine

/-! ## Every instruction only evolves the state -/

/-- A meaning started in a state only evolves it, whether it completes or raises an engine error. -/
def OutcomeEvolves (s : State) (o : Host.Outcome State Fault Refusal) : Prop :=
  (∀ t, o = .next t → Evolves s t) ∧ ∀ f, o = .fault f → ∃ e u, f = raiseEngine e u ∧ Evolves s u

theorem OutcomeEvolves.next {s t : State} (h : Evolves s t) : OutcomeEvolves s (.next t) :=
  ⟨fun _ ht => by cases ht; exact h, fun _ hf => nomatch hf⟩

theorem OutcomeEvolves.finish {s : State} {x : Except Fault State} (h : OnlyEvolves s x id) : OutcomeEvolves s (finish x) :=
  ⟨fun t ht => h.1 t (finish_eq_next.1 ht), fun f hf => h.2 f (finish_eq_fault.1 hf)⟩

theorem Evolves.setResult (s : State) (r : Reg) (res : Word × Flags) : Evolves s (s.setResult r res) :=
  (Evolves.setReg s r res.1).trans (.setFlags ..)

theorem jumpIf_evolves (taken : Bool) (d : Byte) (s : State) : Evolves s (jumpIf taken d s) := by
  cases taken
  · exact .refl s
  · exact .setPc ..

theorem loopIf_evolves (cond : Bool) (d : Byte) (s : State) : Evolves s (loopIf cond d s) :=
  (Evolves.setReg s .cx _).trans (jumpIf_evolves ..)

theorem loadInto_evolves (a : Reg) (m : Word × Word) (s : State) : OutcomeEvolves s (loadInto a m s) :=
  .finish ((loadOperand_evolves s m).bind fun _ _ => .ok (.setReg ..))

theorem loadFarInto_evolves (a : Reg) (j : SReg) (m : Word × Word) (s : State) : OutcomeEvolves s (loadFarInto a j m s) :=
  .finish ((loadFarPointer_evolves s m).bind fun _ _ => .ok ((Evolves.setReg ..).trans (.setSeg ..)))

theorem nearCall_evolves (w : Word) (s : State) : OutcomeEvolves s (nearCall w s) :=
  .finish ((push_evolves s _).bind fun _ _ => .ok (.setPc ..))

theorem execCallF_evolves (off sg : Word) (s : State) : OutcomeEvolves s (execCallF off sg s) :=
  .finish ((push_evolves s _).bind fun t _ => (push_evolves t _).bind fun _ _ => .ok ((Evolves.setSeg ..).trans (.setPc ..)))

theorem execRet_evolves (s : State) : OutcomeEvolves s (execRet s) :=
  .finish ((pop_evolves s).bind fun _ _ => .ok (.setPc ..))

theorem execRetI_evolves (n : Word) (s : State) : OutcomeEvolves s (execRetI n s) :=
  .finish ((pop_evolves s).bind fun _ _ => .ok ((Evolves.setPc ..).trans (.setReg ..)))

theorem execRetF_evolves (s : State) : OutcomeEvolves s (execRetF s) :=
  .finish ((pop_evolves s).bind fun r _ => (pop_evolves r.2).bind fun _ _ => .ok ((Evolves.setPc ..).trans (.setSeg ..)))

theorem execPop_evolves (a : Reg) (s : State) : OutcomeEvolves s (execPop a s) :=
  .finish ((pop_evolves s).bind fun _ _ => .ok (.setReg ..))

theorem execPopa_evolves (s : State) : OutcomeEvolves s (execPopa s) :=
  .finish ((frameWord_evolves s 0).bind fun _ _ => (frameWord_evolves s 1).bind fun _ _ =>
    (frameWord_evolves s 2).bind fun _ _ => (frameWord_evolves s 3).bind fun _ _ =>
    (frameWord_evolves s 4).bind fun _ _ => (frameWord_evolves s 5).bind fun _ _ =>
    (frameWord_evolves s 6).bind fun _ _ => (frameWord_evolves s 7).bind fun _ _ =>
    .ok ⟨⟨rfl, rfl⟩, ⟨rfl, rfl, rfl, rfl⟩, ⟨rfl, rfl⟩, ⟨rfl, rfl, rfl⟩, id⟩)

theorem execEnter_evolves (size : Word) (level : Byte) (s : State) : OutcomeEvolves s (execEnter size level s) :=
  .finish ((push_evolves s _).bind fun t _ => (nestFrames_evolves t _ _).bind fun _ _ =>
    .ok ((Evolves.setReg _ .bp _).trans (.setReg ..)))

theorem execLeave_evolves (s : State) : OutcomeEvolves s (execLeave s) :=
  .finish (.after (.setReg s .sp _) ((pop_evolves _).bind fun _ _ => .ok (.setReg ..)))

theorem execDivR_evolves (a : Reg) (s : State) : OutcomeEvolves s (execDivR a s) := by
  unfold execDivR
  dsimp only
  split_ifs
  · exact .finish (dispatch_evolves s _)
  · exact .finish (dispatch_evolves s _)
  · exact .next ((Evolves.setReg ..).trans (.setReg ..))

/-- Every instruction but HLT and WAIT writes registers, segment registers, pc, flags and memory alone, and memory in canonical form. -/
theorem exec_evolves {i : Instr} (hhlt : i ≠ .hlt) (hwait : i ≠ .wait) (s : State) : OutcomeEvolves s (exec i s) := by
  cases i with
  | hlt => exact absurd rfl hhlt
  | wait => exact absurd rfl hwait
  | int v => exact .finish (dispatch_evolves s v)
  | iret => exact .finish (returnFromInterrupt_evolves s)
  | clc | stc | cli | sti | cld | std => exact .next (.setFlags ..)
  | movRR | movRI | movRS | lea | notR => exact .next (.setReg ..)
  | movSR => exact .next (.setSeg ..)
  | movRA | movRX => exact loadInto_evolves ..
  | movAR | movXR => exact .finish (storeOperand_evolves ..)
  | ldsA | ldsX | lesA | lesX => exact loadFarInto_evolves ..
  | addRR | addRI | adcRR | adcRI | subRR | subRI | sbcRR | sbcRI | incR | decR | negR
  | andRR | andRI | orRR | orRI | xorRR | xorRI => exact .next (.setResult ..)
  | cmpRR | cmpRI | testRR | testRI => exact .next (.setFlags ..)
  | divR a => exact execDivR_evolves a s
  | jmpA | jmpR | jmpS => exact .next (.setPc ..)
  | callA | callR => exact nearCall_evolves ..
  | callF off sg => exact execCallF_evolves off sg s
  | ret => exact execRet_evolves s
  | retI n => exact execRetI_evolves n s
  | retF => exact execRetF_evolves s
  | loop | loopz | loopnz => exact .next (loopIf_evolves ..)
  | jo | jno | jc | jnc | jz | jnz | jbe | ja | js | jns | jp | jnp | jl | jge | jle | jg => exact .next (jumpIf_evolves ..)
  | push a => exact .finish (push_evolves s _)
  | pop a => exact execPop_evolves a s
  | pusha => exact .finish (pushAll_evolves s _)
  | popa => exact execPopa_evolves s
  | enter size level => exact execEnter_evolves size level s
  | leave => exact execLeave_evolves s
  | movsb => exact .finish (once_evolves .movsb s)
  | movsw => exact .finish (once_evolves .movsw s)
  | stosb => exact .finish (once_evolves .stosb s)
  | stosw => exact .finish (once_evolves .stosw s)
  | lodsb => exact .finish (once_evolves .lodsb s)
  | lodsw => exact .finish (once_evolves .lodsw s)
  | cmpsb => exact .finish (once_evolves .cmpsb s)
  | cmpsw => exact .finish (once_evolves .cmpsw s)
  | rep | repz | repnz => exact .finish (repeatDriver_evolves ..)

/-! ## What a step can do -/

/-- A step that completes is a no-op, an idle step, or an instruction fetched, executed and counted (40_step_fetch_dispatch.md R120). -/
theorem step_next_cases {s t : State} (h : step s = .next t) :
    t = s ∨ t = s.idle ∨ ∃ i u v, (acceptInterrupt s >>= fetchInstr) = .ok (i, u) ∧ exec i u = .next v ∧
      t = v.counted (instructionCost i u) := by
  unfold step at h
  split_ifs at h
  · exact .inl (next_inj.1 h).symm
  · exact .inr (.inl (next_inj.1 h).symm)
  · split at h
    · cases h
    · next i u hf =>
      cases he : exec i u with
      | next v => rw [he] at h; exact .inr (.inr ⟨i, u, v, hf, he, (next_inj.1 h).symm⟩)
      | fault f => rw [he] at h; cases h
      | refused r => rw [he] at h; cases h

/-- A step's engine error is raised by the acceptance of an interrupt, by the fetch, or by the instruction fetched. -/
theorem step_fault_cases {s : State} {f : Fault} (h : step s = .fault f) :
    (acceptInterrupt s >>= fetchInstr) = .error f ∨
      ∃ i u, (acceptInterrupt s >>= fetchInstr) = .ok (i, u) ∧ exec i u = .fault f := by
  unfold step at h
  split_ifs at h
  split at h
  · next g hf => cases h; exact .inl hf
  · next i u hf =>
    cases he : exec i u with
    | next v => rw [he] at h; cases h
    | fault g => rw [he] at h; cases h; exact .inr ⟨i, u, hf, he⟩
    | refused r => rw [he] at h; cases h

/-- Acceptance and fetch keep the error state, the counters and the canonical form of memory. -/
theorem acceptAndFetch_progresses (s : State) : OnlyProgresses s (acceptInterrupt s >>= fetchInstr) fun r => r.2 :=
  (acceptInterrupt_progresses s).bind fun t _ => fetchInstr_progresses t

/-! ## The invariant -/

/-- The invariant speaks of memory and the error state alone. -/
theorem Progresses.inv {s t : State} (h : Progresses s t) (hs : Inv s) : Inv t := by
  obtain ⟨hmem, hmsg, hhalt⟩ := hs
  obtain ⟨ehalt, eerr, emsg⟩ := h.errorState
  refine ⟨h.wf hmem, ?_, ?_⟩
  · rw [eerr, emsg]; exact hmsg
  · rw [eerr, ehalt]; exact hhalt

/-- The state an engine error leaves meets the invariant when memory is in canonical form (60_exceptions.md R350). -/
theorem inv_raiseEngine {s u : State} (h : Progresses s u) (hs : Inv s) (e : EngineError) : Inv (raiseEngine e u).after := by
  rw [raiseEngine_after]
  exact ⟨h.wf hs.1, by simp, fun _ => rfl⟩

/-- Every instruction keeps the invariant, in its next state and in the state of its fault. -/
theorem exec_keeps_inv {i : Instr} {s : State} (hs : Inv s) :
    (∀ t, exec i s = .next t → Inv t) ∧ ∀ f, exec i s = .fault f → Inv f.after := by
  by_cases hhlt : i = .hlt
  · subst hhlt
    refine ⟨fun t ht => ?_, fun f hf => nomatch hf⟩
    cases ht
    exact ⟨hs.1, hs.2.1, fun _ => rfl⟩
  by_cases hwait : i = .wait
  · subst hwait
    refine ⟨fun t ht => ?_, fun f hf => nomatch hf⟩
    cases ht
    exact hs
  obtain ⟨hnext, hfault⟩ := exec_evolves hhlt hwait s
  refine ⟨fun t ht => (hnext t ht).progresses.inv hs, fun f hf => ?_⟩
  obtain ⟨e, u, rfl, hu⟩ := hfault f hf
  exact inv_raiseEngine hu.progresses hs e

/-- Settles O12: acceptance and fetch keep the invariant, every instruction keeps it, and a raise sets the error state as a whole. -/
theorem stepKeepsInvariant : Obligations.StepKeepsInvariant := by
  intro s hs
  obtain ⟨hfetch, hraise⟩ := acceptAndFetch_progresses s
  refine ⟨fun t ht => ?_, fun f hf => ?_⟩
  · rcases step_next_cases ht with rfl | rfl | ⟨i, u, v, hu, hv, rfl⟩
    · exact hs
    · exact hs
    · exact (exec_keeps_inv ((hfetch _ hu).inv hs)).1 v hv
  · rcases step_fault_cases hf with herr | ⟨i, u, hu, hf⟩
    · obtain ⟨e, u, rfl, hu⟩ := hraise f herr
      exact inv_raiseEngine hu hs e
    · exact (exec_keeps_inv ((hfetch _ hu).inv hs)).2 f hf

/-- Settles O20: HLT and WAIT write one boolean each, and every other instruction only evolves the state. -/
theorem runStateWriters : Obligations.RunStateWriters := by
  intro i s t h
  by_cases hhlt : i = .hlt
  · subst hhlt; cases h; simp
  by_cases hwait : i = .wait
  · subst hwait; cases h; simp
  obtain ⟨⟨hpending, hpvec⟩, ⟨hhalted, hwaiting, herror, hmsg⟩, ⟨hcycles, hcount⟩, ⟨hop, haddr, hdata⟩, -⟩ :=
    (exec_evolves hhlt hwait s).1 t h
  exact ⟨hpending, hpvec, herror, hmsg, hcycles, hcount, hop, haddr, hdata, fun _ => hhalted, fun _ => hwaiting⟩

end Sys2Proof.Machine
end

section
/-! PROOFS. The frame of every instruction: memory, segment registers and flags outside those its rule lists (10_state.md R32, R35, R46). -/

namespace Sys2Proof.Machine

/-! ## Repeats, told by the byte that follows -/

/-- A repeat that completes runs the string operation of its byte and keeps what that operation keeps. -/
theorem repeatDriver_frame {kind : RepeatKind} {b : Byte} {s t : State} (h : repeatDriver kind b s = .ok t) :
    ∃ op : StringOp, b = op.opcode ∧ Keeps s t [.ax, .cx, .si, .di] [] op.flagsWritten (fun _ => op.stores = true) := by
  unfold repeatDriver at h
  split at h
  · cases h
  · next op hop => exact ⟨op, ofByte_eq_some.1 hop, (repeatLoop_frame h).2⟩

/-- The bytes of the compares are those of the operations that write flags (10_state.md R35). -/
theorem flagsWritten_of_opcode (op : StringOp) :
    (if op.opcode = 0x76#8 ∨ op.opcode = 0x77#8 then derivedFlags else []) = op.flagsWritten := by cases op <;> rfl

/-- The bytes of MOVS and STOS are those of the operations that store (10_state.md R46). -/
theorem stores_of_opcode (op : StringOp) :
    (op.opcode == 0x70#8 || op.opcode == 0x71#8 || op.opcode == 0x72#8 || op.opcode == 0x73#8) = op.stores := by cases op <;> rfl

/-! ## The frame of an instruction -/

/-- Every general register; the frame of this file leaves them free, since R32, R35 and R46 do not speak of them. -/
def allRegs : List Reg := [.ax, .bx, .cx, .dx, .si, .di, .bp, .sp]

theorem mem_allRegs (r : Reg) : r ∈ allRegs := by cases r <;> simp [allRegs]

/-- A state is another with only what the rules list as written by an instruction changed: its segment registers, its flags, and
memory when it is store-class. -/
def Framed (i : Instr) (s t : State) : Prop :=
  Keeps s t allRegs (segsWritten i) (flagsWritten i) (fun _ => storesMemory i = true)

/-- A frame that names no more than the rules of an instruction do. -/
theorem Keeps.framed {i : Instr} {s t : State} {rs : List Reg} {js : List SReg} {fs : List Flag} {bs : Nat → Prop}
    (h : Keeps s t rs js fs bs) (hj : ∀ j ∈ js, j ∈ segsWritten i) (hf : ∀ f ∈ fs, f ∈ flagsWritten i)
    (hb : ∀ a, bs a → storesMemory i = true) : Framed i s t := h.mono (fun r _ => mem_allRegs r) hj hf hb

/-- The outcome of an instruction is framed when it completes. -/
def FramedOutcome (i : Instr) (s : State) (o : Host.Outcome State Fault Refusal) : Prop := ∀ t, o = .next t → Framed i s t

theorem FramedOutcome.next {i : Instr} {s t : State} (h : Framed i s t) : FramedOutcome i s (.next t) :=
  fun _ ht => by cases ht; exact h

theorem FramedOutcome.finish {i : Instr} {s : State} {x : Except Fault State} (h : ∀ t, x = .ok t → Framed i s t) :
    FramedOutcome i s (finish x) := fun t ht => h t (finish_eq_next.1 ht)

variable {i : Instr}

/-! ## The frames of the meanings that access memory -/

theorem loadInto_framed (a : Reg) (m : Word × Word) (s : State) : FramedOutcome i s (loadInto a m s) := .finish fun t h => by
  obtain ⟨v, -, h⟩ := bind_eq_ok.1 h
  cases h
  exact Keeps.setReg (mem_allRegs a) v

theorem loadFarInto_framed {a : Reg} {j : SReg} {m : Word × Word} {s : State} (hj : j ∈ segsWritten i) :
    FramedOutcome i s (loadFarInto a j m s) := .finish fun t h => by
  obtain ⟨r, -, h⟩ := bind_eq_ok.1 h
  cases h
  exact (Keeps.setReg (mem_allRegs a) _).trans (Keeps.setSeg hj _)

theorem storeOperand_framed {s : State} {m : Word × Word} {v : Word} (hm : storesMemory i = true) :
    FramedOutcome i s (finish (storeOperand s m v)) := .finish fun t h => by
  obtain ⟨-, rfl⟩ := storeOperand_eq_ok.1 h
  exact Keeps.storeWord (fun _ _ => hm) v

theorem push_framed (hm : storesMemory i = true) {s t : State} {v : Word} (h : push s v = .ok t) : Framed i s t := by
  obtain ⟨-, rfl⟩ := push_eq_ok.1 h
  exact Keeps.pushed (mem_allRegs _) (fun _ _ => hm) v

theorem pop_framed {s : State} {r : Word × State} (h : pop s = .ok r) : Framed i s r.2 := by
  obtain ⟨-, rfl⟩ := pop_eq_ok.1 h
  exact Keeps.popped (mem_allRegs _)

theorem nearCall_framed {w : Word} {s : State} (hm : storesMemory i = true) : FramedOutcome i s (nearCall w s) := .finish fun t h => by
  obtain ⟨u, hu, h⟩ := bind_eq_ok.1 h
  cases h
  exact (push_framed hm hu).trans (Keeps.setPc w)

theorem execCallF_framed (off sg : Word) (s : State) : FramedOutcome (.callF off sg) s (execCallF off sg s) := .finish fun t h => by
  obtain ⟨u, hu, h⟩ := bind_eq_ok.1 h
  obtain ⟨v, hv, h⟩ := bind_eq_ok.1 h
  cases h
  exact (push_framed rfl hu).trans ((push_framed rfl hv).trans ((Keeps.setSeg (.head _) sg).trans (Keeps.setPc off)))

theorem execRet_framed (s : State) : FramedOutcome .ret s (execRet s) := .finish fun t h => by
  obtain ⟨r, hr, h⟩ := bind_eq_ok.1 h
  cases h
  exact (pop_framed hr).trans (Keeps.setPc _)

theorem execRetI_framed (n : Word) (s : State) : FramedOutcome (.retI n) s (execRetI n s) := .finish fun t h => by
  obtain ⟨r, hr, h⟩ := bind_eq_ok.1 h
  cases h
  exact (pop_framed hr).trans ((Keeps.setPc _).trans (Keeps.setReg (mem_allRegs _) _))

theorem execRetF_framed (s : State) : FramedOutcome .retF s (execRetF s) := .finish fun t h => by
  obtain ⟨r, hr, h⟩ := bind_eq_ok.1 h
  obtain ⟨q, hq, h⟩ := bind_eq_ok.1 h
  cases h
  exact (pop_framed hr).trans ((pop_framed hq).trans ((Keeps.setPc _).trans (Keeps.setSeg (.head _) _)))

theorem execPop_framed (a : Reg) (s : State) : FramedOutcome (.pop a) s (execPop a s) := .finish fun t h => by
  obtain ⟨r, hr, h⟩ := bind_eq_ok.1 h
  cases h
  exact (pop_framed hr).trans (Keeps.setReg (mem_allRegs a) _)

theorem execPopa_framed (s : State) : FramedOutcome .popa s (execPopa s) := .finish fun t h => by
  simp only [bind_eq_ok, Except.ok.injEq] at h
  obtain ⟨_, -, _, -, _, -, _, -, _, -, _, -, _, -, _, -, rfl⟩ := h
  exact
    { (Keeps.refl : Framed .popa s s) with
      regs := fun r hr => absurd (mem_allRegs r) hr
      segs := fun j _ => getSeg_congr rfl j }

theorem execEnter_framed (size : Word) (level : Byte) (s : State) :
    FramedOutcome (.enter size level) s (execEnter size level s) := .finish fun t h => by
  obtain ⟨u, hu, h⟩ := bind_eq_ok.1 h
  obtain ⟨v, hv, h⟩ := bind_eq_ok.1 h
  cases h
  have hnest : Framed (.enter size level) u v := (nestFrames_frame hv).2.framed (by simp) (by simp) fun _ _ => rfl
  exact (push_framed rfl hu).trans (hnest.trans ((Keeps.setReg (mem_allRegs _) _).trans (Keeps.setReg (mem_allRegs _) _)))

theorem execLeave_framed (s : State) : FramedOutcome .leave s (execLeave s) := .finish fun t h => by
  obtain ⟨r, hr, h⟩ := bind_eq_ok.1 h
  cases h
  have hsp : Framed .leave s (s.setReg .sp (s.getReg .bp)) := Keeps.setReg (mem_allRegs _) _
  exact hsp.trans ((pop_framed hr).trans (Keeps.setReg (mem_allRegs _) _))

/-- The entry to a handler is within the frame of the instructions that are listed as writing CS, I, T and memory (60_exceptions.md R360). -/
theorem dispatch_framed {v : Byte} {s : State} (hj : SReg.cs ∈ segsWritten i) (hf : ∀ f ∈ [Flag.i, .t], f ∈ flagsWritten i)
    (hm : storesMemory i = true) : FramedOutcome i s (finish (dispatch s v)) := .finish fun t h => by
  obtain ⟨-, -, hk⟩ := dispatch_frame h
  exact hk.framed (by simpa using hj) hf fun _ _ => hm

theorem execDivR_framed (a : Reg) (s : State) : FramedOutcome (.divR a) s (execDivR a s) := by
  have hfault : FramedOutcome (.divR a) s (finish (divideFault s)) := dispatch_framed (.head _) (fun _ h => h) rfl
  unfold execDivR
  dsimp only
  split_ifs
  · exact hfault
  · exact hfault
  · exact .next ((Keeps.setReg (mem_allRegs _) _).trans (Keeps.setReg (mem_allRegs _) _))

/-- One iteration of a string operation is within the frame of the instructions listed as writing what the operation writes. -/
theorem once_framed (op : StringOp) (hf : flagsWritten i = op.flagsWritten) (hm : storesMemory i = op.stores) (s : State) :
    FramedOutcome i s (finish (op.once s)) := .finish fun t h => by
  refine (once_frame h).2.framed (by simp) (fun f h => hf ▸ h) fun a ha => ?_
  rw [hm]
  cases op <;> first | rfl | exact ha.elim

/-- A repeat is within the frame of its string operation. -/
theorem repeat_framed (kind : RepeatKind) {b : Byte}
    (hf : flagsWritten i = if b = 0x76#8 ∨ b = 0x77#8 then derivedFlags else [])
    (hm : storesMemory i = (b == 0x70#8 || b == 0x71#8 || b == 0x72#8 || b == 0x73#8)) (s : State) :
    FramedOutcome i s (finish (repeatDriver kind b s)) := .finish fun t h => by
  obtain ⟨op, rfl, hk⟩ := repeatDriver_frame h
  rw [flagsWritten_of_opcode] at hf
  rw [stores_of_opcode] at hm
  exact hk.framed (by simp) (fun f h => hf ▸ h) fun _ h => hm.trans h

theorem loopIf_framed (cond : Bool) (d : Byte) (s : State) : Framed i s (loopIf cond d s) :=
  (Keeps.setReg (mem_allRegs .cx) _).trans ((jumpIf_spec ..).2.2.framed (by simp) (by simp) fun _ h => h.elim)

theorem conditionalJump_framed (k : Cond) (d : Byte) (s : State) : Framed i s (conditionalJump k d s) :=
  (jumpIf_spec ..).2.2.framed (by simp) (by simp) fun _ h => h.elim

/-! ## Every instruction -/

/-- Every instruction but HLT and WAIT changes only the segment registers and the flags its rule lists, and memory only when it is
store-class. -/
theorem exec_framed {i : Instr} (hhlt : i ≠ .hlt) (hwait : i ≠ .wait) (s : State) : FramedOutcome i s (exec i s) := by
  cases i with
  | hlt => exact absurd rfl hhlt
  | wait => exact absurd rfl hwait
  | int v => exact dispatch_framed (.head _) (fun _ h => h) rfl
  | iret => exact .finish fun t h => (returnFromInterrupt_frame h).framed (fun _ h => h) (fun _ h => h) fun _ h => h.elim
  | clc | stc | cli | sti | cld | std =>
    exact .next (Keeps.setFlags fun x hx => by cases x <;> first | rfl | simp [flagsWritten] at hx)
  | movRR | movRI | movRS | lea | notR => exact .next (Keeps.setReg (mem_allRegs _) _)
  | movSR => exact .next (Keeps.setSeg (.head _) _)
  | movRA | movRX => exact loadInto_framed _ _ s
  | movAR | movXR => exact storeOperand_framed rfl
  | ldsA | ldsX | lesA | lesX => exact loadFarInto_framed (.head _)
  | addRR | addRI | adcRR | adcRI => exact .next (Keeps.setResult (mem_allRegs _) (add16_keeps _ _ _))
  | subRR | subRI | sbcRR | sbcRI | negR => exact .next (Keeps.setResult (mem_allRegs _) (sub16_keeps _ _ _))
  | cmpRR | cmpRI => exact .next (Keeps.setFlags (sub16_keeps _ _ _))
  | incR => exact .next (Keeps.setResult (mem_allRegs _) (inc16_keeps _ _))
  | decR => exact .next (Keeps.setResult (mem_allRegs _) (dec16_keeps _ _))
  | divR a => exact execDivR_framed a s
  | andRR | andRI | orRR | orRI | xorRR | xorRI => exact .next (Keeps.setResult (mem_allRegs _) (logic16_keeps _ _))
  | testRR | testRI => exact .next (Keeps.setFlags (logic16_keeps _ _))
  | jmpA | jmpR | jmpS => exact .next (Keeps.setPc _)
  | callA | callR => exact nearCall_framed rfl
  | callF off sg => exact execCallF_framed off sg s
  | ret => exact execRet_framed s
  | retI n => exact execRetI_framed n s
  | retF => exact execRetF_framed s
  | loop | loopz | loopnz => exact .next (loopIf_framed ..)
  | jo | jno | jc | jnc | jz | jnz | jbe | ja | js | jns | jp | jnp | jl | jge | jle | jg => exact .next (conditionalJump_framed ..)
  | push a => exact .finish fun t h => push_framed rfl h
  | pop a => exact execPop_framed a s
  | pusha => exact .finish fun t h => (pushAll_frame h).2.framed (fun _ h => h) (fun _ h => h) fun _ _ => rfl
  | popa => exact execPopa_framed s
  | enter size level => exact execEnter_framed size level s
  | leave => exact execLeave_framed s
  | movsb => exact once_framed .movsb rfl rfl s
  | movsw => exact once_framed .movsw rfl rfl s
  | stosb => exact once_framed .stosb rfl rfl s
  | stosw => exact once_framed .stosw rfl rfl s
  | lodsb => exact once_framed .lodsb rfl rfl s
  | lodsw => exact once_framed .lodsw rfl rfl s
  | cmpsb => exact once_framed .cmpsb rfl rfl s
  | cmpsw => exact once_framed .cmpsw rfl rfl s
  | rep => exact repeat_framed .rep rfl rfl s
  | repz => exact repeat_framed .repz rfl rfl s
  | repnz => exact repeat_framed .repnz rfl rfl s

/-- What the rules list bounds what any instruction changes, HLT and WAIT included, which write one run-state boolean alone
(46_system.md R330, R331). -/
theorem exec_keeps_unlisted {i : Instr} {s t : State} (h : exec i s = .next t) :
    (storesMemory i = false → ∀ a, t.byteAt a = s.byteAt a) ∧ (∀ j, j ∉ segsWritten i → t.getSeg j = s.getSeg j) ∧
      ∀ f, f ∉ flagsWritten i → t.flags.get f = s.flags.get f := by
  by_cases hhlt : i = .hlt
  · subst hhlt; cases h
    exact ⟨fun _ _ => rfl, fun j _ => getSeg_congr rfl j, fun _ _ => rfl⟩
  by_cases hwait : i = .wait
  · subst hwait; cases h
    exact ⟨fun _ _ => rfl, fun j _ => getSeg_congr rfl j, fun _ _ => rfl⟩
  have hk := exec_framed hhlt hwait s t h
  exact ⟨fun hm a => hk.bytes a (by simp [hm]), hk.segs, hk.flags⟩

/-- Settles O17: an instruction that is not store-class has no byte in its frame. -/
theorem onlyStoresChangeMemory : Obligations.OnlyStoresChangeMemory := by
  intro i s t h hm
  obtain ⟨hmem, -, -⟩ := exec_keeps_unlisted h
  exact hmem hm

/-- Settles O18: the segment registers of an instruction's frame are the listed ones. -/
theorem segmentWriters : Obligations.SegmentWriters := by
  intro i s t j h
  obtain ⟨-, hsegs, -⟩ := exec_keeps_unlisted h
  exact hsegs j

/-- Settles O19: the flags of an instruction's frame are the listed ones. -/
theorem flagWriters : Obligations.FlagWriters := by
  intro i s t f h
  obtain ⟨-, -, hflags⟩ := exec_keeps_unlisted h
  exact hflags f

end Sys2Proof.Machine
end

section
/-! PROOFS. The packed FLAGS word (10_state.md R34) and the values after reset (10_state.md R50, R51). -/

namespace Sys2Proof.Machine

/-! ## The packed word -/

/-- Every bit of the packed word: the flag of its position, or 0. -/
theorem getLsbD_pack (f : Flags) (k : Nat) : f.pack.getLsbD k =
    ((f.o && decide (k = 11)) || (f.d && decide (k = 10)) || (f.i && decide (k = 9)) || (f.t && decide (k = 8)) ||
      (f.s && decide (k = 7)) || (f.z && decide (k = 6)) || (f.p && decide (k = 2)) || (f.c && decide (k = 0))) := by
  have hbit (b : Bool) {n : Nat} (hn : n < 16) : (flagBit b n).getLsbD k = (b && decide (k = n)) := by
    rw [getLsbD_flagBit]
    by_cases h : k = n
    · subst h; simp [hn]
    · simp [h]
  simp [Flags.pack, hbit]

/-- Packing loses no flag. -/
theorem unpack_pack (f : Flags) : Flags.unpack f.pack = f := by
  cases f
  simp only [Flags.unpack, getLsbD_pack]
  simp

/-- Unpacking drops the bits outside the mask 0x0FC5. -/
theorem pack_unpack (w : Word) : (Flags.unpack w).pack = w &&& 0x0FC5#16 := by
  apply BitVec.eq_of_getLsbD_eq
  intro k hk
  rw [getLsbD_pack, BitVec.getLsbD_and]
  interval_cases k <;> simp [Flags.unpack]

/-- Settles O23 from the bits of the packed word. -/
theorem flagsWord : Obligations.FlagsWord := by
  intro f w
  refine ⟨?_, ?_, ?_, ?_, ?_, ?_, ?_, ?_, unpack_pack f, pack_unpack w⟩ <;> rw [getLsbD_pack] <;> simp

/-! ## Reset -/

theorem reset_getReg (r : Reg) : State.reset.getReg r = if r = .sp then 0xFFFE#16 else 0x0000#16 := by cases r <;> rfl

theorem reset_getSeg (j : SReg) : State.reset.getSeg j = if j = .ss then 0x1000#16 else 0x0000#16 := by cases j <;> rfl

theorem reset_flags_pack : State.reset.flags.pack = 0x0000#16 := by decide

/-- Settles O13: the memory of the reset state lists no byte, and no error is set. -/
theorem resetMeetsInvariant : Obligations.ResetMeetsInvariant :=
  ⟨⟨Memory.wf_nil, by simp [State.reset], by simp [State.reset]⟩, rfl, rfl, rfl⟩

/-- Settles O14: the host's reset differs from `State.reset` in memory alone. -/
theorem resetValues : Obligations.ResetValues := by
  intro s
  refine ⟨fun r => ?_, fun j => ?_, rfl, reset_flags_pack, rfl, rfl, rfl, rfl, rfl, rfl, rfl, rfl, rfl, rfl, rfl, fun _ => rfl, rfl,
    fun a => Memory.read_nil a⟩
  · exact (getReg_congr rfl r).trans (reset_getReg r)
  · exact (getSeg_congr rfl j).trans (reset_getSeg j)

end Sys2Proof.Machine
end

section
/-! PROOFS. Words in memory and the host's acts between steps (20_memory.md R64 to R66, R80; 60_exceptions.md R357). -/

namespace Sys2Proof.Machine

/-! ## Loading a program -/

theorem loadProgram_of_fits {s : State} {bytes : List Byte} {base : Nat} (h : base + bytes.length ≤ Config.memSize) :
    s.loadProgram bytes base = { s with mem := Memory.writeBytes s.mem base bytes } := if_pos h

/-- A load that would run past memory is refused as a whole (D35). -/
theorem loadProgram_of_overruns {s : State} {bytes : List Byte} {base : Nat} (h : Config.memSize < base + bytes.length) :
    s.loadProgram bytes base = s := if_neg (by omega)

/-- A byte after a load that fits: the copied one at its address, the old one elsewhere (20_memory.md R80). -/
theorem loadProgram_byteAt {s : State} {bytes : List Byte} {base : Nat} (h : base + bytes.length ≤ Config.memSize) (a : Nat) :
    (s.loadProgram bytes base).byteAt a = if base ≤ a then (bytes[a - base]?).getD (s.byteAt a) else s.byteAt a := by
  rw [loadProgram_of_fits h]
  exact Memory.read_writeBytes ..

/-- Settles O15 from the bytes after a load; the latch is one pair of fields, written whole by each request. -/
theorem loadProgramCopies : Obligations.LoadProgramCopies := by
  refine ⟨fun s v => ⟨rfl, BitVec.toNat_ofNat .., fun _ => rfl, rfl⟩, fun s bytes base => ⟨fun hfit => ⟨?_, ?_, ?_⟩, ?_⟩⟩
  · intro k b hk
    rw [loadProgram_byteAt hfit, if_pos (Nat.le_add_right ..), Nat.add_sub_cancel_left, hk]
    rfl
  · intro a ha
    rw [loadProgram_byteAt hfit]
    split
    · rw [List.getElem?_eq_none (by omega)]; rfl
    · rfl
  · rw [loadProgram_of_fits hfit]
  · exact loadProgram_of_overruns

/-! ## Words -/

/-- Settles O22: the write stores the word, and the stored word is what a read there gives. -/
theorem wordAccess : Obligations.WordAccess := by
  intro s pa v hpa
  refine ⟨s.storeWord pa v, writeWord_eq_ok.2 ⟨hpa, rfl⟩, storeWord_eq .., ?_, ?_, fun _ => storeWord_byteAt_outside v,
    readWord_eq_ok.2 ⟨hpa, (storeWord_wordAt ..).symm⟩⟩
  · rw [storeWord_byteAt, if_pos rfl, lowByte_eq_setWidth]
  · rw [storeWord_byteAt, if_neg (by omega), if_pos rfl, highByte_eq_setWidth]

end Sys2Proof.Machine
end

section
/-! PROOFS. The bytes every instruction accesses, in order, and what an access outside memory ends in (20_memory.md R61 to R65,
60_exceptions.md R352, R362). -/

namespace Sys2Proof.Machine

/-! ## Outcomes -/

/-- An outcome is that of a meaning that accesses these bytes in this order: the error of the first outside memory, or a next state
when none is. -/
structure OutcomeTouches (o : Host.Outcome State Fault Refusal) (accesses : List Nat) : Prop where
  raises : ∀ pa, firstOutside accesses = some pa → raisesOutOfRange o pa
  completes : firstOutside accesses = none → ∃ t, o = .next t

/-- An instruction that accesses no data completes. -/
theorem OutcomeTouches.next (t : State) : OutcomeTouches (.next t) [] := ⟨fun _ h => (nomatch h), fun _ => ⟨t, rfl⟩⟩

theorem OutcomeTouches.finish {x : Except Fault State} {l : List Nat} (h : Touches x l) : OutcomeTouches (finish x) l :=
  ⟨h.finish.1, h.finish.2⟩

/-! ## The meanings that access memory -/

theorem loadInto_touches (a : Reg) (m : Word × Word) (s : State) : OutcomeTouches (loadInto a m s) (wordBytes (operandAddress m)) :=
  .finish ((readWord_touches s _).andThen _)

theorem storeOperand_touches (s : State) (m : Word × Word) (v : Word) :
    OutcomeTouches (finish (storeOperand s m v)) (wordBytes (operandAddress m)) :=
  .finish (writeWord_touches s _ v)

theorem loadFarInto_touches (a : Reg) (j : SReg) (s : State) (off : Word) :
    OutcomeTouches (loadFarInto a j (s.getSeg .ds, off) s) (farPointerBytes s off) :=
  .finish ((loadFarPointer_touches s _ off).andThen _)

theorem push_outcome_touches (s : State) (v : Word) : OutcomeTouches (finish (push s v)) (pushBytes s 1) := by
  rw [pushBytes_one]
  exact .finish (push_touches s v)

theorem nearCall_touches (w : Word) (s : State) : OutcomeTouches (nearCall w s) (pushBytes s 1) := by
  rw [pushBytes_one]
  exact .finish ((push_touches s _).andThen _)

theorem execCallF_touches (off sg : Word) (s : State) : OutcomeTouches (execCallF off sg s) (pushBytes s 2) := by
  rw [pushBytes_succ s (s.getSeg .cs), pushBytes_one]
  refine .finish ((push_touches s _).bind fun t ht => ?_)
  obtain ⟨-, rfl⟩ := push_eq_ok.1 ht
  exact (push_touches _ _).andThen _

theorem execRet_touches (s : State) : OutcomeTouches (execRet s) (popBytes s 1) := by
  rw [popBytes_one]
  exact .finish ((pop_touches s).andThen _)

theorem execRetI_touches (n : Word) (s : State) : OutcomeTouches (execRetI n s) (popBytes s 1) := by
  rw [popBytes_one]
  exact .finish ((pop_touches s).andThen _)

theorem execRetF_touches (s : State) : OutcomeTouches (execRetF s) (popBytes s 2) := by
  rw [popBytes_succ, popBytes_one]
  exact .finish (pop_then_touches fun _ => (pop_touches _).andThen _)

theorem execPop_touches (a : Reg) (s : State) : OutcomeTouches (execPop a s) (popBytes s 1) := by
  rw [popBytes_one]
  exact .finish ((pop_touches s).andThen _)

theorem frameWord_touches (s : State) (k : Nat) : Touches (frameWord s k) (wordBytes (stackAddress s (popOffset s k))) :=
  readWord_touches s _

/-- POPA reads its eight words in the order eight pops would (44_stack_frame.md R285). -/
theorem execPopa_touches (s : State) : OutcomeTouches (execPopa s) (popBytes s 8) :=
  .finish ((frameWord_touches s 0).bind fun _ _ => (frameWord_touches s 1).bind fun _ _ =>
    (frameWord_touches s 2).bind fun _ _ => (frameWord_touches s 3).bind fun _ _ =>
    (frameWord_touches s 4).bind fun _ _ => (frameWord_touches s 5).bind fun _ _ =>
    (frameWord_touches s 6).bind fun _ _ => (frameWord_touches s 7).andThen _)

theorem execLeave_touches (s : State) : OutcomeTouches (execLeave s) (wordBytes (stackAddress s (s.getReg .bp))) := by
  have h := (pop_touches (s.setReg .sp (s.getReg .bp))).andThen fun r => r.2.setReg .bp r.1
  rw [getReg_setReg_same] at h
  exact .finish h

/-! ## ENTER -/

/-- The bytes the nested part of ENTER accesses: those of the chain copy, then the push of the new frame pointer (44_stack_frame.md R286). -/
def nestBytes (s : State) : Nat → List Nat
  | 0 => []
  | n + 1 => copyBytes s n ++ wordBytes (stackAddress s (pushOffset s (n + 1)))

theorem nestFrames_touches (s : State) (level : Nat) (frame : Word) : Touches (nestFrames s level frame) (nestBytes s level) := by
  cases level with
  | zero => exact .ok s
  | succ n =>
    refine (copyFrames_touches s n).bind fun t ht => ?_
    have hss : t.getSeg .ss = s.getSeg .ss := (copyFrames_frame ht).2.segs .ss (by simp)
    have hsp : pushOffset t 1 = pushOffset s (n + 1) := by
      rw [pushOffset, copyFrames_sp ht]
      apply BitVec.eq_of_toNat_eq
      simp only [pushOffset, BitVec.toNat_sub, BitVec.toNat_ofNat]
      omega
    have h := push_touches t frame
    rw [← pushOffset_one, hsp, stackAddress, hss] at h
    exact h

/-- ENTER's bytes are those of the push of BP, then those of the nested part from there. -/
theorem enterBytes_eq (s : State) (v : Word) (level : Nat) :
    enterBytes s level = wordBytes (stackAddress s (s.getReg .sp - 2#16)) ++ nestBytes (s.pushed v) level := by
  cases level with
  | zero => simp [enterBytes, nestBytes, pushBytes_one]
  | succ n => simp [enterBytes, nestBytes, copyBytes, pushBytes_one, pushed_stackAddress, pushed_pushOffset]

theorem execEnter_touches (size : Word) (level : Byte) (s : State) :
    OutcomeTouches (execEnter size level s) (enterBytes s (level.toNat % 32)) := by
  rw [enterBytes_eq s (s.getReg .bp)]
  refine .finish ((push_touches s _).bind fun t ht => ?_)
  obtain ⟨-, rfl⟩ := push_eq_ok.1 ht
  exact (nestFrames_touches _ _ _).andThen _

/-! ## DIV -/

/-- The quotient does not fit, or there is none, exactly when the divisor is at most DX (41_arithmetic_logic.md R176). -/
theorem divisor_le_dx_iff (s : State) (d : Nat) : d ≤ (s.getReg .dx).toNat ↔ d = 0 ∨ 0xFFFF < dividend s / d := by
  have hax := (s.getReg .ax).isLt
  rcases Nat.eq_zero_or_pos d with rfl | hd
  · simp
  · rw [← Nat.succ_le_iff, Nat.le_div_iff_mul_le hd]
    unfold dividend
    omega

/-- DIV takes the divide fault exactly when the divisor is at most DX. -/
theorem execDivR_eq (a : Reg) (s : State) : execDivR a s =
    if (s.getReg a).toNat ≤ (s.getReg .dx).toNat then finish (divideFault s)
    else .next ((s.setReg .ax (BitVec.ofNat 16 (dividend s / (s.getReg a).toNat))).setReg .dx
      (BitVec.ofNat 16 (dividend s % (s.getReg a).toNat))) := by
  simp only [execDivR, divisor_le_dx_iff, ite_or]

theorem execDivR_touches (a : Reg) (s : State) :
    OutcomeTouches (execDivR a s) (if (s.getReg a).toNat ≤ (s.getReg .dx).toNat then entryBytes s 0#8 else []) := by
  rw [execDivR_eq]
  split
  · exact .finish (dispatch_touches s _)
  · exact .next _

/-! ## Every instruction -/

/-- Every instruction but a repeat accesses the bytes listed for it, in order. -/
theorem exec_touches {i : Instr} (hrep : ∀ b, i ≠ .rep b ∧ i ≠ .repz b ∧ i ≠ .repnz b) (s : State) :
    OutcomeTouches (exec i s) (dataAccesses i s) := by
  cases i with
  | hlt | wait | clc | stc | cli | sti | cld | std => exact .next _
  | movRR | movRI | movSR | movRS | lea => exact .next _
  | addRR | addRI | adcRR | adcRI | subRR | subRI | sbcRR | sbcRI | cmpRR | cmpRI | incR | decR | negR => exact .next _
  | andRR | andRI | orRR | orRI | xorRR | xorRI | testRR | testRI | notR => exact .next _
  | jmpA | jmpR | jmpS | loop | loopz | loopnz => exact .next _
  | jo | jno | jc | jnc | jz | jnz | jbe | ja | js | jns | jp | jnp | jl | jge | jle | jg => exact .next _
  | movRA | movRX => exact loadInto_touches ..
  | movAR | movXR => exact storeOperand_touches ..
  | ldsA | ldsX | lesA | lesX => exact loadFarInto_touches ..
  | int v => exact .finish (dispatch_touches s v)
  | iret => exact .finish (returnFromInterrupt_touches s)
  | divR a => exact execDivR_touches a s
  | callA | callR => exact nearCall_touches ..
  | callF off sg => exact execCallF_touches off sg s
  | ret => exact execRet_touches s
  | retI n => exact execRetI_touches n s
  | retF => exact execRetF_touches s
  | push a => exact push_outcome_touches s _
  | pop a => exact execPop_touches a s
  | pusha => exact .finish (pushAll_touches s (pushaWords s))
  | popa => exact execPopa_touches s
  | enter size level => exact execEnter_touches size level s
  | leave => exact execLeave_touches s
  | movsb => exact .finish (once_touches .movsb s)
  | movsw => exact .finish (once_touches .movsw s)
  | stosb => exact .finish (once_touches .stosb s)
  | stosw => exact .finish (once_touches .stosw s)
  | lodsb => exact .finish (once_touches .lodsb s)
  | lodsw => exact .finish (once_touches .lodsw s)
  | cmpsb => exact .finish (once_touches .cmpsb s)
  | cmpsw => exact .finish (once_touches .cmpsw s)
  | rep b => exact absurd rfl (hrep b).1
  | repz b => exact absurd rfl (hrep b).2.1
  | repnz b => exact absurd rfl (hrep b).2.2

/-- An instruction with a listed byte outside memory is no repeat: a repeat's accesses are stated turn by turn, not here. -/
theorem not_repeat_of_firstOutside {i : Instr} {s : State} {pa : Nat} (h : firstOutside (dataAccesses i s) = some pa) (b : Byte) :
    i ≠ .rep b ∧ i ≠ .repz b ∧ i ≠ .repnz b := by
  refine ⟨?_, ?_, ?_⟩ <;> rintro rfl <;> cases h

/-! ## Fetch and acceptance -/

/-- Bytes that still need one more are none, or an opcode byte with fewer operand bytes than its row asks for (30_encoding.md R90). -/
theorem decode_incomplete {bytes : List Byte} (h : decode bytes = .error .empty ∨ ∃ op, decode bytes = .error (.truncated op)) :
    bytes = [] ∨ ∃ op rest row, bytes = op :: rest ∧ opmap op = some row ∧ rest.length < row.operandBytes := by
  cases bytes with
  | nil => exact .inl rfl
  | cons op rest =>
    refine .inr ⟨op, rest, ?_⟩
    cases hrow : opmap op with
    | none => simp [decode, hrow] at h
    | some row =>
      refine ⟨row, rfl, rfl, ?_⟩
      by_contra hlen
      simp [decode, hrow, hlen] at h

/-- The fetch of an instruction raises at the first byte it still needs when that byte is outside memory (40_step_fetch_dispatch.md R125). -/
theorem fetchInstr_raises {s : State} {bytes : List Byte} (h : bytesAtPc s bytes)
    (hdec : decode bytes = .error .empty ∨ ∃ op, decode bytes = .error (.truncated op))
    (hout : Config.memSize ≤ phys (s.getSeg .cs) (s.pc + BitVec.ofNat 16 bytes.length)) :
    ∃ u, fetchInstr s = .error (raiseEngine (.addressOutOfRange (phys (s.getSeg .cs) (s.pc + BitVec.ofNat 16 bytes.length))) u) := by
  rcases decode_incomplete hdec with rfl | ⟨op, rest, row, rfl, hrow, hlen⟩
  · rw [List.length_nil, BitVec.add_zero] at hout ⊢
    exact ⟨s, by simp [fetchInstr, fetch8, readByte_eq_error.2 ⟨hout, rfl⟩]⟩
  · obtain ⟨hop, hrest⟩ := bytesAtPc_cons h
    have e : s.pc + 1#16 + BitVec.ofNat 16 rest.length = s.pc + BitVec.ofNat 16 (rest.length + 1) := by
      apply BitVec.eq_of_toNat_eq
      simp only [BitVec.toNat_add, BitVec.toNat_ofNat]
      omega
    rw [List.length_cons, ← e] at hout ⊢
    have hnoted : bytesAtPc ((s.setPc (s.pc + 1#16)).noteFetch op) rest := by simpa [bytesAtPc] using hrest
    obtain ⟨u, hu⟩ := fetchBytes_raises hnoted hlen (by simpa using hout)
    rw [noteFetch_getSeg, noteFetch_pc, setPc_getSeg, setPc_pc] at hu
    exact ⟨u, by simp only [fetchInstr, hop, bind_ok, hrow, hu, bind_error]⟩

/-- A step whose fetch raises ends in that error. -/
theorem step_raises_of_fetchInstr {s u : State} {pa : Nat} (h : readyToFetch s)
    (hf : fetchInstr s = .error (raiseEngine (.addressOutOfRange pa) u)) : raisesOutOfRange (step s) pa := by
  rw [step_ready h, hf]
  exact ⟨_, rfl, rfl, rfl⟩

/-- A step whose acceptance of an enabled request raises ends in that error (60_exceptions.md R362). -/
theorem step_raises_of_acceptInterrupt {s u : State} {pa : Nat} (hhalted : s.halted = false) (herror : s.error = false)
    (hready : s.interruptReady = true) (hacc : acceptInterrupt s = .error (raiseEngine (.addressOutOfRange pa) u)) :
    raisesOutOfRange (step s) pa := by
  have hstep : step s = .fault (raiseEngine (.addressOutOfRange pa) u) := by
    simp only [step, hhalted, herror, hready, hacc, Bool.not_true, Bool.and_false]
    rfl
  exact ⟨_, hstep, rfl, rfl⟩

theorem acceptInterrupt_touches {s : State} (h : s.interruptReady = true) : Touches (acceptInterrupt s) (entryBytes s s.pvec) := by
  rw [acceptInterrupt, if_pos h]
  exact dispatch_touches { s with waiting := false, pending := false } s.pvec

/-- Settles O11: the accesses of every instruction in order, then those of the fetch and of the acceptance of a request. -/
theorem outOfRangeFaults : Obligations.OutOfRangeFaults := by
  refine ⟨fun i s pa h => ?_, fun i s hrep h => ?_, fun s bytes hs hb hdec hout => ?_, fun s pa hhalted herror hpend hi h => ?_⟩
  · exact (exec_touches (not_repeat_of_firstOutside h) s).raises pa h
  · exact (exec_touches hrep s).completes h
  · obtain ⟨u, hu⟩ := fetchInstr_raises hb hdec hout
    exact step_raises_of_fetchInstr hs hu
  · have hready : s.interruptReady = true := by simp [State.interruptReady, hpend, hi]
    obtain ⟨u, hu⟩ := (acceptInterrupt_touches hready).raises pa h
    exact step_raises_of_acceptInterrupt hhalted herror hready hu

end Sys2Proof.Machine
end

section
/-! PROOFS. The encoding (30_encoding.md): the decoder told by the row of the opcode byte, the operands each format gives back, and
the opcode bytes without a row. -/

namespace Sys2Proof

/-! ## Words and the selector byte -/

/-- A word is assembled from its own bytes (30_encoding.md R93). -/
@[simp] theorem wordOfBytes_low_high (w : Word) : wordOfBytes (lowByte w) (highByte w) = w := by
  unfold wordOfBytes lowByte highByte
  exact (BitVec.extractLsb'_append_extractLsb'_eq_extractLsb' rfl).trans BitVec.extractLsb'_eq_self

@[simp] theorem operandWord_word (w : Word) (rest : List Byte) : operandWord (lowByte w :: highByte w :: rest) 0 = w :=
  wordOfBytes_low_high w

@[simp] theorem operandWord_cons (b : Byte) (rest : List Byte) (k : Nat) : operandWord (b :: rest) (k + 1) = operandWord rest k := rfl

@[simp] theorem operandByte_cons_zero (b : Byte) (rest : List Byte) : operandByte (b :: rest) 0 = b := rfl

@[simp] theorem operandByte_cons_succ (b : Byte) (rest : List Byte) (k : Nat) :
    operandByte (b :: rest) (k + 1) = operandByte rest k := rfl

@[simp] theorem selA_selByte (a b : BitVec 3) : selA (selByte a b) = a := by revert a b; decide

@[simp] theorem selB_selByte (a b : BitVec 3) : selB (selByte a b) = b := by revert a b; decide

@[simp] theorem Reg.ofBits_toBits (r : Reg) : Reg.ofBits r.toBits = r := by cases r <;> rfl

/-- A segment register goes through a three-bit field, of which the low two bits are read (30_encoding.md R92). -/
@[simp] theorem SReg.ofBits_toBits_field (j : SReg) : SReg.ofBits ((j.toBits.setWidth 3).extractLsb' 0 2) = j := by
  cases j <;> rfl

/-! ## The operands of each format -/

section Formats

variable (a b : Reg) (j : SReg) (w v : Word) (rest : List Byte)

theorem Row.build_r (mk : Reg → Instr) : (Row.r mk).build (selR a :: rest) = mk a := by
  simp [Row.build, selR]

theorem Row.build_rr (mk : Reg → Reg → Instr) : (Row.rr mk).build (selRR a b :: rest) = mk a b := by
  simp [Row.build, selRR]

theorem Row.build_sr (mk : SReg → Reg → Instr) : (Row.sr mk).build (selSR j b :: rest) = mk j b := by
  simp [Row.build, selSR]

theorem Row.build_rs (mk : Reg → SReg → Instr) : (Row.rs mk).build (selRS a j :: rest) = mk a j := by
  simp [Row.build, selRS]

theorem Row.build_ri (mk : Reg → Word → Instr) :
    (Row.ri mk).build (selR a :: lowByte w :: highByte w :: rest) = mk a w := by
  simp [Row.build, selR]

theorem Row.build_ra (mk : Reg → Word → Instr) :
    (Row.ra mk).build (selR a :: lowByte w :: highByte w :: rest) = mk a w := by
  simp [Row.build, selR]

theorem Row.build_rx (mk : Reg → Reg → Word → Instr) :
    (Row.rx mk).build (selRR a b :: lowByte w :: highByte w :: rest) = mk a b w := by
  simp [Row.build, selRR]

theorem Row.build_a16 (mk : Word → Instr) : (Row.a16 mk).build (lowByte w :: highByte w :: rest) = mk w := by
  simp [Row.build]

theorem Row.build_i16 (mk : Word → Instr) : (Row.i16 mk).build (lowByte w :: highByte w :: rest) = mk w := by
  simp [Row.build]

theorem Row.build_far (mk : Word → Word → Instr) :
    (Row.far mk).build (lowByte w :: highByte w :: lowByte v :: highByte v :: rest) = mk w v := by
  simp [Row.build]

theorem Row.build_en (mk : Word → Byte → Instr) (level : Byte) :
    (Row.en mk).build (lowByte w :: highByte w :: level :: rest) = mk w level := by
  simp [Row.build]

end Formats

/-! ## The decoder -/

/-- Bytes decode exactly when the opcode byte has a row and at least as many bytes follow as the row asks for (30_encoding.md R90). -/
theorem decode_eq_ok {bytes : List Byte} {i : Instr} {rest : List Byte} :
    decode bytes = .ok (i, rest) ↔ ∃ op tail row, bytes = op :: tail ∧ opmap op = some row ∧ row.operandBytes ≤ tail.length ∧
      i = row.build tail ∧ rest = tail.drop row.operandBytes := by
  cases bytes with
  | nil => simp [decode]
  | cons op tail =>
    cases hrow : opmap op with
    | none => simp [decode, hrow]
    | some row =>
      by_cases hlen : tail.length < row.operandBytes
      · simp [decode, hrow, hlen]
      · simp [decode, hrow, hlen, Nat.not_lt.1 hlen, eq_comm]

/-- The decoder rejects an opcode byte as unknown exactly when it has no row. -/
theorem decode_eq_unknownOpcode {op : Byte} {tail : List Byte} :
    decode (op :: tail) = .error (.unknownOpcode op) ↔ opmap op = none := by
  cases hrow : opmap op with
  | none => simp [decode, hrow]
  | some row => by_cases hlen : tail.length < row.operandBytes <;> simp [decode, hrow, hlen]

/-- An opcode byte and exactly the operand bytes of its row decode to what the row makes of them, whatever follows. -/
theorem decode_row {op : Byte} {operands : List Byte} {row : Row} {i : Instr} (hrow : opmap op = some row)
    (hlen : row.operandBytes = operands.length) (hbuild : ∀ rest, row.build (operands ++ rest) = i) (rest : List Byte) :
    decode (op :: operands ++ rest) = .ok (i, rest) :=
  decode_eq_ok.2 ⟨op, operands ++ rest, row, rfl, hrow, by simp [hlen], (hbuild rest).symm, by simp [hlen]⟩

/-- Settles O2: one case per format, in which the row of the opcode byte gives the operands back. -/
theorem decodeInvertsEncode : Obligations.DecodeInvertsEncode := by
  intro i
  cases i with
  | hlt | wait | iret | clc | stc | cli | sti | cld | std | ret | retF | pusha | popa | leave
  | movsb | movsw | stosb | stosw | lodsb | lodsw | cmpsb | cmpsw => exact decode_row (operands := []) rfl rfl fun _ => rfl
  | int b | jmpS b | loop b | loopz b | loopnz b | jo b | jno b | jc b | jnc b | jz b | jnz b | jbe b | ja b | js b | jns b
  | jp b | jnp b | jl b | jge b | jle b | jg b | rep b | repz b | repnz b =>
    exact decode_row (operands := [b]) rfl rfl fun _ => rfl
  | incR a | decR a | negR a | divR a | notR a | jmpR a | callR a | push a | pop a =>
    exact decode_row (operands := [selR a]) rfl rfl fun rest => Row.build_r a rest _
  | movRR a b | addRR a b | adcRR a b | subRR a b | sbcRR a b | cmpRR a b | andRR a b | orRR a b | xorRR a b | testRR a b =>
    exact decode_row (operands := [selRR a b]) rfl rfl fun rest => Row.build_rr a b rest _
  | movSR j b => exact decode_row (operands := [selSR j b]) rfl rfl fun rest => Row.build_sr b j rest _
  | movRS a j => exact decode_row (operands := [selRS a j]) rfl rfl fun rest => Row.build_rs a j rest _
  | movRI a w | addRI a w | adcRI a w | subRI a w | sbcRI a w | cmpRI a w | andRI a w | orRI a w | xorRI a w | testRI a w =>
    exact decode_row (operands := [selR a, lowByte w, highByte w]) rfl rfl fun rest => Row.build_ri a w rest _
  | movRA a w | movAR a w | ldsA a w | lesA a w =>
    exact decode_row (operands := [selR a, lowByte w, highByte w]) rfl rfl fun rest => Row.build_ra a w rest _
  | movRX a b w | movXR a b w | lea a b w | ldsX a b w | lesX a b w =>
    exact decode_row (operands := [selRR a b, lowByte w, highByte w]) rfl rfl fun rest => Row.build_rx a b w rest _
  | jmpA w | callA w => exact decode_row (operands := [lowByte w, highByte w]) rfl rfl fun rest => Row.build_a16 w rest _
  | retI w => exact decode_row (operands := [lowByte w, highByte w]) rfl rfl fun rest => Row.build_i16 w rest _
  | callF off sg =>
    exact decode_row (operands := [lowByte off, highByte off, lowByte sg, highByte sg]) rfl rfl fun rest => Row.build_far off sg rest _
  | enter size level =>
    exact decode_row (operands := [lowByte size, highByte size, level]) rfl rfl fun rest => Row.build_en size rest _ level

/-! ## The length of an instruction -/

/-- No format has more than four operand bytes (30_encoding.md R91). -/
theorem Row.operandBytes_le (row : Row) : row.operandBytes ≤ 4 := by cases row <;> simp [Row.operandBytes]

/-- The instruction a row makes is encoded with the opcode byte of the row and as many bytes after it as the row asks for. -/
theorem encode_build {op : Byte} {row : Row} (h : opmap op = some row) (bytes : List Byte) :
    ∃ operands, encode (row.build bytes) = op :: operands ∧ operands.length = row.operandBytes := by
  unfold opmap at h
  split at h <;> cases h <;> exact ⟨_, congrArg (· :: _) (BitVec.eq_of_toNat_eq (Eq.symm ‹op.toNat = _›)), rfl⟩

/-- Settles O3: the bytes and the encoding of what they decode to share the opcode byte, whose row fixes both lengths. -/
theorem decodedLength : Obligations.DecodedLength := by
  intro bytes i rest h
  obtain ⟨op, tail, row, rfl, hrow, hlen, rfl, rfl⟩ := decode_eq_ok.1 h
  obtain ⟨operands, henc, hops⟩ := encode_build hrow tail
  have hmax := row.operandBytes_le
  rw [henc]
  simp only [List.head?_cons, List.length_cons, List.drop_succ_cons, hops, true_and, and_true]
  omega

/-! ## The opcode bytes without a row -/

/-- The opcode map has no row exactly for the unassigned bytes (30_encoding.md R104). -/
theorem opmap_eq_none {op : Byte} : opmap op = none ↔ Machine.unassigned op := by
  have hlt := op.isLt
  unfold opmap Machine.unassigned
  split
  case h_92 =>
    -- the map's last arm: the byte differs from every assigned one
    simp only [true_iff, imp_false] at *
    omega
  all_goals
    simp only [reduceCtorEq, false_iff]
    omega

/-- Settles O4: the rejection is the lookup that finds no row. -/
theorem unassignedBytesRejected : Obligations.UnassignedBytesRejected := fun _ _ => decode_eq_unknownOpcode.trans opmap_eq_none

/-- Settles O1: six of the sequences are encodings; the selector bytes of MOV DS, CX and AND AX, BX have undecoded bits set, so that
they are no encodings and are evaluated. -/
theorem sampleWordsDecode : Obligations.SampleWordsDecode :=
  ⟨decodeInvertsEncode (.int 0x21#8) [],
    by decide,
    decodeInvertsEncode (.movXR .cx .bx 0x0002#16) [],
    by decide,
    decodeInvertsEncode (.addRI .ax 0x0001#16) [],
    decodeInvertsEncode (.callF 0x0010#16 0x2000#16) [],
    decodeInvertsEncode (.enter 0x0004#16 0x03#8) [],
    decodeInvertsEncode (.repz 0x76#8) [0x01#8]⟩

namespace Machine

/-! ## Unknown opcodes in a step -/

/-- The fetch of a byte without a row raises UnknownOpcode of it (60_exceptions.md R351). -/
theorem fetchInstr_unknown {s : State} {b : Byte} (hin : phys (s.getSeg .cs) s.pc < Config.memSize)
    (hb : s.byteAt (phys (s.getSeg .cs) s.pc) = b) (hrow : opmap b = none) :
    fetchInstr s = .error (raiseEngine (.unknownOpcode b) ((s.setPc (s.pc + 1#16)).noteFetch b)) := by
  have hfetch : fetch8 s = .ok (b, s.setPc (s.pc + 1#16)) := fetch8_eq_ok.2 ⟨hin, by rw [hb]⟩
  simp only [fetchInstr, hfetch, bind_ok, hrow]

/-- Only the bytes 0x70 to 0x77 are string opcodes (45_string_repeat.md R314). -/
theorem ofByte_eq_none {b : Byte} (h : ¬ (0x70 ≤ b.toNat ∧ b.toNat ≤ 0x77)) : StringOp.ofByte b = none := by
  refine Option.eq_none_iff_forall_ne_some.2 fun op hop => h ?_
  rw [ofByte_eq_some.1 hop]
  cases op <;> decide

/-- The repeat driver on a byte that is no string opcode raises UnknownOpcode of it (45_string_repeat.md R314). -/
theorem repeatDriver_unknown (kind : RepeatKind) {b : Byte} (h : ¬ (0x70 ≤ b.toNat ∧ b.toNat ≤ 0x77)) (s : State) :
    repeatDriver kind b s = .error (raiseEngine (.unknownOpcode b) s) := by
  rw [repeatDriver, ofByte_eq_none h]

/-- Settles O10: the two places that raise UnknownOpcode, the lookup of the fetched byte and the repeat driver. -/
theorem unknownOpcodeFaults : Obligations.UnknownOpcodeFaults := by
  refine ⟨fun s b hready hin hb hun => ?_, fun s b hb i hi => ?_⟩
  · rw [step_ready hready, fetchInstr_unknown hin hb (opmap_eq_none.2 hun)]
    exact ⟨_, rfl, rfl, rfl⟩
  · have hdriver (kind : RepeatKind) : finish (repeatDriver kind b s) = .fault (.unknownOpcode b (s.errored (.unknownOpcode b))) := by
      rw [repeatDriver_unknown kind hb s]; rfl
    simp only [List.mem_cons, List.not_mem_nil, or_false] at hi
    rcases hi with rfl | rfl | rfl
    · exact ⟨_, hdriver .rep, rfl, rfl⟩
    · exact ⟨_, hdriver .repz, rfl, rfl⟩
    · exact ⟨_, hdriver .repnz, rfl, rfl⟩

end Machine

end Sys2Proof
end

section
/-! PROOFS. One step (40_step_fetch_dispatch.md R120 to R129): an equation per kind of step, and what the counters say of it. -/

namespace Sys2Proof.Machine

/-! ## The kinds of step -/

/-- A halted or errored core does nothing (40_step_fetch_dispatch.md R129). -/
theorem step_stopped {s : State} (h : s.halted = true ∨ s.error = true) : step s = .next s := by
  rw [step, if_pos (by simpa using h)]

/-- A core that waits without an enabled request idles (40_step_fetch_dispatch.md R121). -/
theorem step_waiting {s : State} (hhalted : s.halted = false) (herror : s.error = false) (hwaiting : s.waiting = true)
    (hrequest : ¬ (s.pending = true ∧ s.flags.i = true)) : step s = .next s.idle := by
  have hready : s.interruptReady = false := by simpa [State.interruptReady] using hrequest
  rw [step, if_neg (by simp [hhalted, herror]), if_pos (by simp [hwaiting, hready])]

/-- The part of a step after the fetch: the instruction fetched is executed and counted, or the fetch's error ends the step
(40_step_fetch_dispatch.md R120, R124). -/
def executeFetched : Except Fault (Instr × State) → Host.Outcome State Fault Refusal
  | .error f => .fault f
  | .ok (i, u) => account (instructionCost i u) (exec i u)

/-- Any other core accepts an enabled request if there is one, then fetches and executes (40_step_fetch_dispatch.md R120, R122). -/
theorem step_active {s : State} (hhalted : s.halted = false) (herror : s.error = false)
    (hactive : s.waiting = false ∨ (s.pending = true ∧ s.flags.i = true)) :
    step s = executeFetched (acceptInterrupt s >>= fetchInstr) := by
  have hidle : (s.waiting && !s.interruptReady) = false := by
    rcases hactive with hwaiting | ⟨hpending, hi⟩
    · simp [hwaiting]
    · simp [State.interruptReady, hpending, hi]
  have hbind : (acceptInterrupt s).bind fetchInstr = (acceptInterrupt s >>= fetchInstr) := rfl
  rw [step, if_neg (by simp [hhalted, herror]), if_neg (by simp [hidle]), hbind]
  cases acceptInterrupt s >>= fetchInstr <;> rfl

/-- The step of a core that is ready to fetch is its fetch executed, since it accepts nothing. -/
theorem step_eq_executeFetched {s : State} (h : readyToFetch s) : step s = executeFetched (fetchInstr s) := by
  obtain ⟨hhalted, herror, hwaiting, hrequest⟩ := h
  rw [step_active hhalted herror (.inl hwaiting), acceptInterrupt_none hrequest, bind_ok]

/-- A step completes after the fetch when the instruction fetched completes, which is then counted. -/
theorem executeFetched_eq_next {x : Except Fault (Instr × State)} {t : State} :
    executeFetched x = .next t ↔ ∃ i u v, x = .ok (i, u) ∧ exec i u = .next v ∧ t = v.counted (instructionCost i u) := by
  rcases x with f | ⟨i, u⟩
  · simp [executeFetched]
  · cases he : exec i u <;> simp [executeFetched, account, he, eq_comm]

/-- A step that completes returns what it adds to `cycles` (log 12). -/
theorem stepReturn_of_next {s t : State} (h : step s = .next t) : stepReturn s = t.cycles - s.cycles := by
  rw [stepReturn, h]

/-- Settles O7: the no-op adds nothing to `cycles`. -/
theorem haltedStep : Obligations.HaltedStep := fun s h =>
  ⟨step_stopped h, (stepReturn_of_next (step_stopped h)).trans (Nat.sub_self s.cycles)⟩

/-- Settles O6: the idle step adds one to `cycles`. -/
theorem idleStep : Obligations.IdleStep := by
  intro s hhalted herror hwaiting hrequest
  have hstep := step_waiting hhalted herror hwaiting hrequest
  refine ⟨hstep, ?_⟩
  rw [stepReturn_of_next hstep, idle_cycles, Nat.add_sub_cancel_left]

/-! ## The fetch of a whole instruction -/

/-- Moving pc past one byte, then past `n` more, is moving it past `n + 1` (10_state.md R25). -/
theorem add_one_add_ofNat (w : Word) (n : Nat) : w + 1#16 + BitVec.ofNat 16 n = w + BitVec.ofNat 16 (n + 1) := by
  rw [BitVec.add_assoc, ← BitVec.ofNat_add, Nat.add_comm]

/-- Bytes at CS:pc that decode with nothing left over are fetched as that instruction; pc ends past them, `last_opcode` is the first
of them, and the other two introspection registers are set to some value (40_step_fetch_dispatch.md R123 to R127). -/
theorem fetchInstr_ok {s : State} {bytes : List Byte} {i : Instr} (hbytes : bytesAtPc s bytes) (hdec : decode bytes = .ok (i, [])) :
    ∃ (op : Byte) (a : BitVec 21) (d : Word), bytes.head? = some op ∧
      fetchInstr s = .ok (i, { s with pc := s.pc + BitVec.ofNat 16 bytes.length, lastOpcode := op, lastAddress := a, lastData := d }) := by
  obtain ⟨op, tail, row, rfl, hrow, hle, rfl, hrest⟩ := decode_eq_ok.1 hdec
  have hlen : row.operandBytes = tail.length := le_antisymm hle (List.drop_eq_nil_iff.1 hrest.symm)
  obtain ⟨hop, htail⟩ := bytesAtPc_cons hbytes
  have hnoted : bytesAtPc ((s.setPc (s.pc + 1#16)).noteFetch op) tail := by simpa [bytesAtPc] using htail
  refine ⟨op, Config.lastAddress (s.setPc (s.pc + 1#16)), Config.lastData (s.setPc (s.pc + 1#16)), rfl, ?_⟩
  simp only [fetchInstr, hop, bind_ok, hrow, hlen, fetchBytes_ok hnoted, noteFetch_pc, setPc_pc, add_one_add_ofNat, List.length_cons]
  rfl

/-- Settles O5: the fetch gives the instruction, whose outcome the step accounts. -/
theorem stepRunsDecoded : Obligations.StepRunsDecoded := by
  intro s bytes i hready hdec hbytes
  obtain ⟨op, a, d, hop, hfetch⟩ := fetchInstr_ok hbytes hdec
  have hstep := step_eq_executeFetched hready
  rw [hfetch, executeFetched] at hstep
  refine ⟨op, a, d, _, hop, rfl, fun u hu => ?_, fun f hf => ?_⟩
  · rw [hstep, hu]; rfl
  · rw [hstep, hf]; rfl

/-! ## Acceptance -/

/-- After the entry to a handler with the latch clear the core fetches next: nothing is pending (40_step_fetch_dispatch.md R122). -/
theorem readyToFetch_of_entersHandler {s d : State} {v : Byte} (h : entersHandler s d v) (hhalted : s.halted = false)
    (herror : s.error = false) (hwaiting : s.waiting = false) (hpending : s.pending = false) : readyToFetch d := by
  obtain ⟨-, -, -, -, -, -, -, -, hkeeps⟩ := h
  obtain ⟨dhalted, dwaiting, derror, -⟩ := hkeeps.runState
  refine ⟨dhalted.trans hhalted, derror.trans herror, dwaiting.trans hwaiting, fun hrequest => ?_⟩
  simp [hkeeps.latch.1.trans hpending] at hrequest

/-- Settles O8: acceptance is the entry to the handler, and both steps execute what is fetched there. -/
theorem interruptAcceptance : Obligations.InterruptAcceptance := by
  intro s hhalted herror hpending hi hroom
  obtain ⟨d, hdispatch, henters⟩ := dispatch_ok (s := { s with waiting := false, pending := false }) hroom s.pvec
  have hready : readyToFetch d := readyToFetch_of_entersHandler henters hhalted herror rfl rfl
  have haccept : acceptInterrupt s = .ok d := by
    rw [acceptInterrupt, if_pos (by simp [State.interruptReady, hpending, hi]), hdispatch]
  refine ⟨d, henters, hready, ?_⟩
  calc step s = executeFetched (acceptInterrupt s >>= fetchInstr) := step_active hhalted herror (.inr ⟨hpending, hi⟩)
    _ = executeFetched (fetchInstr d) := by rw [haccept, bind_ok]
    _ = step d := (step_eq_executeFetched hready).symm

/-! ## Refusals and counters -/

/-- A meaning that accesses bytes in order raises at one of them or completes: it is not refused. -/
theorem OutcomeTouches.ne_refused {o : Host.Outcome State Fault Refusal} {accesses : List Nat} (h : OutcomeTouches o accesses)
    (r : Refusal) : o ≠ .refused r := by
  cases hout : firstOutside accesses with
  | none => obtain ⟨t, rfl⟩ := h.completes hout; exact nofun
  | some pa => obtain ⟨t, rfl, -⟩ := h.raises pa hout; exact nofun

/-- Settles O16: a refused instruction is no repeat, whose outcome is its driver's, and any other raises at an access or completes. -/
theorem execNeverRefuses : Obligations.ExecNeverRefuses := by
  intro i s r h
  have hrep (b : Byte) : i ≠ .rep b ∧ i ≠ .repz b ∧ i ≠ .repnz b := by
    refine ⟨?_, ?_, ?_⟩ <;> rintro rfl <;> exact finish_ne_refused _ r h
  exact (exec_touches hrep s).ne_refused r h

/-- No instruction writes the counters (10_state.md R43). -/
theorem exec_counters {i : Instr} {s t : State} (h : exec i s = .next t) : t.cycles = s.cycles ∧ t.instructions = s.instructions := by
  obtain ⟨-, -, -, -, hcycles, hcount, -⟩ := runStateWriters i s t h
  exact ⟨hcycles, hcount⟩

/-- Settles O21: acceptance, fetch and instruction leave the counters alone, and the accounting adds one instruction and its cost. -/
theorem instructionCountedOnce : Obligations.InstructionCountedOnce := by
  intro s t hhalted herror hactive hstep
  have hreturn := stepReturn_of_next hstep
  rw [step_active hhalted herror hactive] at hstep
  obtain ⟨i, u, v, hfetch, hexec, rfl⟩ := executeFetched_eq_next.1 hstep
  obtain ⟨ucycles, ucount⟩ := ((acceptAndFetch_progresses s).1 _ hfetch).counters
  obtain ⟨vcycles, vcount⟩ := exec_counters hexec
  have hcycles : (v.counted (instructionCost i u)).cycles = s.cycles + (1 + Config.extraCycles i u) := by
    rw [counted_cycles, vcycles, ucycles, instructionCost]
  refine ⟨by rw [counted_instructions, vcount, ucount], ?_, ?_⟩ <;> omega

end Sys2Proof.Machine
end

section
/-! PROOFS. Arithmetic and logic (41_arithmetic_logic.md): the two derivations, the instructions built on them, DIV, and the bitwise
instructions. -/

namespace Sys2Proof.Machine

/-! ## The add and subtract derivations -/

theorem add16_carry_iff (f : Flags) (a : Word) (bw : Nat) : (add16 f a bw).2.c = true ↔ 0xFFFF < a.toNat + bw := decide_eq_true_iff

theorem sub16_carry_iff (f : Flags) (a : Word) (bw : Nat) : (sub16 f a bw).2.c = true ↔ a.toNat < bw := decide_eq_true_iff

/-- The result of a subtraction over the integers; a folded subtrahend is at most 0x10000 (41_arithmetic_logic.md R152, R154). -/
theorem sub16_toNat_int (f : Flags) (a : Word) {bw : Nat} (hbw : bw ≤ 0x10000) :
    ((sub16 f a bw).1.toNat : Int) = ((a.toNat : Int) - bw) % 2 ^ 16 := by
  rw [sub16_toNat]
  omega

/-- Settles O24: the overflow clause is the definition's own formula. -/
theorem addDerivation : Obligations.AddDerivation := fun f a bw _ =>
  ⟨add16_toNat f a bw, add16_carry_iff f a bw, bne_iff_ne, describesResult_add16 f a bw, add16_t f a bw, add16_i f a bw, add16_d f a bw⟩

/-- Settles O25: the bound on the subtrahend keeps the wide difference from being cut off at 0. -/
theorem subDerivation : Obligations.SubDerivation := fun f a bw hbw =>
  ⟨sub16_toNat_int f a hbw, sub16_carry_iff f a bw, bne_iff_ne, describesResult_sub16 f a bw, sub16_t f a bw, sub16_i f a bw,
    sub16_d f a bw⟩

/-! ## Overflow told by bit 15 -/

theorem topBit_toNat (w : Word) : topBit w.toNat = w.getLsbD 15 := rfl

/-- Two bits both differ from a third exactly when they agree and it differs from the second. -/
theorem xor_and_xor_iff : ∀ p q r : Bool, ((p ^^ r) && (q ^^ r)) = true ↔ p = q ∧ r ≠ q := by decide

/-- Addition overflows when the operands agree in bit 15 and the result differs from them (41_arithmetic_logic.md R151). -/
theorem add16_overflow_iff (f : Flags) (a : Word) (bw : Nat) : (add16 f a bw).2.o = true ↔
    topBit a.toNat = topBit bw ∧ topBit (add16 f a bw).1.toNat ≠ topBit bw := by
  rw [add16_overflow, topBit_toNat, topBit_toNat]
  exact xor_and_xor_iff _ _ _

/-- Subtraction overflows when the operands differ in bit 15 and the result differs from the first (41_arithmetic_logic.md R152). -/
theorem sub16_overflow_iff (f : Flags) (a : Word) (bw : Nat) : (sub16 f a bw).2.o = true ↔
    topBit a.toNat ≠ topBit bw ∧ topBit a.toNat ≠ topBit (sub16 f a bw).1.toNat := by
  rw [sub16_overflow, topBit_toNat, topBit_toNat]
  grind

/-! ## The derivations on an operand word -/

/-- Without a folded carry the result is the sum of the words. -/
theorem add16_word (f : Flags) (x y : Word) : (add16 f x y.toNat).1 = x + y := by
  apply BitVec.eq_of_toNat_eq
  rw [add16_toNat, BitVec.toNat_add]

/-- Without a folded borrow the result is the difference of the words. -/
theorem sub16_word (f : Flags) (x y : Word) : (sub16 f x y.toNat).1 = x - y := by
  apply BitVec.eq_of_toNat_eq
  have hy := y.isLt
  rw [sub16_toNat, BitVec.toNat_sub]
  omega

/-- A word read as a signed number is in the signed range. -/
theorem fitsSigned_toInt (w : Word) : fitsSigned w.toInt :=
  ⟨w.le_toInt, Int.le_of_lt_add_one w.toInt_lt⟩

/-- The overflow of a sum of words is its signed overflow. -/
theorem add16_word_overflow_iff (f : Flags) (x y : Word) : (add16 f x y.toNat).2.o = true ↔ ¬ fitsSigned (x.toInt + y.toInt) := by
  have hsigned : x.saddOverflow y = true ↔ ¬ fitsSigned (x.toInt + y.toInt) := by
    simp only [BitVec.saddOverflow, fitsSigned, Bool.or_eq_true, decide_eq_true_eq]
    omega
  rw [← hsigned, BitVec.saddOverflow_eq, add16_overflow_iff, add16_word]
  simp only [BitVec.msb_eq_getLsbD_last, topBit_toNat]
  grind

/-- The overflow of a difference of words is its signed overflow. -/
theorem sub16_word_overflow_iff (f : Flags) (x y : Word) : (sub16 f x y.toNat).2.o = true ↔ ¬ fitsSigned (x.toInt - y.toInt) := by
  have hsigned : x.ssubOverflow y = true ↔ ¬ fitsSigned (x.toInt - y.toInt) := by
    simp only [BitVec.ssubOverflow, fitsSigned, Bool.or_eq_true, decide_eq_true_eq]
    omega
  rw [← hsigned, BitVec.ssubOverflow_eq, sub16_overflow_iff, sub16_word]
  simp only [BitVec.msb_eq_getLsbD_last, topBit_toNat]
  grind

theorem describesResult_add16_word (f : Flags) (x y : Word) : describesResult (add16 f x y.toNat).2 (x + y) := by
  rw [← add16_word f x y]
  exact describesResult_add16 f x y.toNat

/-- All flags of a comparison at once; SUB, CMP, DEC and NEG are read from it. -/
theorem sub16_comparesFlags (f : Flags) (x y : Word) : comparesFlags (sub16 f x y.toNat).2 x y := by
  refine ⟨sub16_carry_iff f x y.toNat, sub16_word_overflow_iff f x y, ?_⟩
  rw [← sub16_word f x y]
  exact describesResult_sub16 f x y.toNat

/-! ## ADD, SUB and CMP -/

/-- A result written with its flags: the register reads as the result, and pc and all but the flags that may change are kept. -/
theorem setResult_effect {s : State} (a : Reg) {res : Word × Flags} {fs : List Flag} (h : ∀ x, x ∉ fs → res.2.get x = s.flags.get x) :
    (s.setResult a res).getReg a = res.1 ∧ (s.setResult a res).pc = s.pc ∧ Keeps s (s.setResult a res) [a] [] fs noBytes :=
  ⟨by simp, rfl, Keeps.setResult (List.mem_singleton_self a) h⟩

theorem addsTo_add16 (s : State) (a : Reg) (y : Word) : addsTo s (s.setResult a (add16 s.flags (s.getReg a) y.toNat)) a y := by
  obtain ⟨hreg, hpc, hkeeps⟩ := setResult_effect a (add16_keeps s.flags (s.getReg a) y.toNat)
  exact ⟨hreg.trans (add16_word ..), hpc, add16_carry_iff .., add16_word_overflow_iff .., describesResult_add16_word .., hkeeps⟩

/-- Settles O37: both forms write the sum of their operand. -/
theorem addResults : Obligations.AddResults := fun s a b imm =>
  ⟨⟨_, rfl, addsTo_add16 s a (s.getReg b)⟩, ⟨_, rfl, addsTo_add16 s a imm⟩⟩

theorem sub16_effect (s : State) (a : Reg) (y : Word) :
    let t := s.setResult a (sub16 s.flags (s.getReg a) y.toNat)
    t.getReg a = s.getReg a - y ∧ t.pc = s.pc ∧ comparesFlags t.flags (s.getReg a) y ∧ Keeps s t [a] [] derivedFlags noBytes := by
  obtain ⟨hreg, hpc, hkeeps⟩ := setResult_effect a (sub16_keeps s.flags (s.getReg a) y.toNat)
  exact ⟨hreg.trans (sub16_word ..), hpc, sub16_comparesFlags .., hkeeps⟩

theorem compare_effect (s : State) (a : Reg) (y : Word) :
    let t := s.setFlags (sub16 s.flags (s.getReg a) y.toNat).2
    t.pc = s.pc ∧ comparesFlags t.flags (s.getReg a) y ∧ Keeps s t [] [] derivedFlags noBytes :=
  ⟨rfl, sub16_comparesFlags .., Keeps.setFlags (sub16_keeps _ _ _)⟩

/-- Settles O39: SUB writes the difference whose flags CMP sets alone. -/
theorem subCmpResults : Obligations.SubCmpResults := fun s a b imm =>
  ⟨⟨_, rfl, sub16_effect s a (s.getReg b)⟩, ⟨_, rfl, sub16_effect s a imm⟩,
    ⟨_, rfl, compare_effect s a (s.getReg b)⟩, ⟨_, rfl, compare_effect s a imm⟩⟩

/-! ## ADC and SBC -/

theorem addsWithCarry_add16 (s : State) (a : Reg) (y : Word) :
    addsWithCarry s (s.setResult a (add16 s.flags (s.getReg a) (y.toNat + s.flags.carry))) a y := by
  obtain ⟨hreg, hpc, hkeeps⟩ := setResult_effect a (add16_keeps s.flags (s.getReg a) (y.toNat + s.flags.carry))
  unfold addsWithCarry
  rw [hreg]
  exact ⟨add16_toNat .., hpc, add16_carry_iff .., add16_overflow_iff .., describesResult_add16 .., hkeeps⟩

/-- Settles O38: both forms add their operand with the carry folded in. -/
theorem adcResults : Obligations.AdcResults := fun s a b imm =>
  ⟨⟨_, rfl, addsWithCarry_add16 s a (s.getReg b)⟩, ⟨_, rfl, addsWithCarry_add16 s a imm⟩⟩

/-- An operand with the carry folded in is at most 0x10000 (41_arithmetic_logic.md R154). -/
theorem folded_le (y : Word) (f : Flags) : y.toNat + f.carry ≤ 0x10000 := by
  have hy := y.isLt
  have hc : f.carry ≤ 1 := f.c.toNat_le
  omega

theorem subtractsWithBorrow_sub16 (s : State) (a : Reg) (y : Word) :
    subtractsWithBorrow s (s.setResult a (sub16 s.flags (s.getReg a) (y.toNat + s.flags.carry))) a y := by
  obtain ⟨hreg, hpc, hkeeps⟩ := setResult_effect a (sub16_keeps s.flags (s.getReg a) (y.toNat + s.flags.carry))
  unfold subtractsWithBorrow
  rw [hreg]
  exact ⟨sub16_toNat_int _ _ (folded_le y s.flags), hpc, sub16_carry_iff .., sub16_overflow_iff .., describesResult_sub16 .., hkeeps⟩

/-- Settles O40: both forms subtract their operand with the borrow folded in. -/
theorem sbcResults : Obligations.SbcResults := fun s a b imm =>
  ⟨⟨_, rfl, subtractsWithBorrow_sub16 s a (s.getReg b)⟩, ⟨_, rfl, subtractsWithBorrow_sub16 s a imm⟩⟩

/-! ## INC, DEC and NEG -/

/-- Only the greatest signed word has no successor in the signed range. -/
theorem not_fitsSigned_succ_iff (w : Word) : ¬ fitsSigned (w.toInt + (1#16).toInt) ↔ w = 0x7FFF#16 := by
  obtain ⟨hlo, hhi⟩ := fitsSigned_toInt w
  rw [← BitVec.toInt_inj, show (1#16).toInt = 1 from rfl, show (0x7FFF#16).toInt = 32767 from rfl, fitsSigned]
  omega

/-- Only the least signed word has no predecessor in the signed range. -/
theorem not_fitsSigned_pred_iff (w : Word) : ¬ fitsSigned (w.toInt - (1#16).toInt) ↔ w = 0x8000#16 := by
  obtain ⟨hlo, hhi⟩ := fitsSigned_toInt w
  rw [← BitVec.toInt_inj, show (1#16).toInt = 1 from rfl, show (0x8000#16).toInt = -32768 from rfl, fitsSigned]
  omega

/-- Only the least signed word has no negative in the signed range. -/
theorem not_fitsSigned_neg_iff (w : Word) : ¬ fitsSigned ((0#16).toInt - w.toInt) ↔ w = 0x8000#16 := by
  obtain ⟨hlo, hhi⟩ := fitsSigned_toInt w
  rw [← BitVec.toInt_inj, show (0#16).toInt = 0 from rfl, show (0x8000#16).toInt = -32768 from rfl, fitsSigned]
  omega

theorem incR_effect (s : State) (a : Reg) :
    let t := s.setResult a (inc16 s.flags (s.getReg a))
    t.getReg a = s.getReg a + 1#16 ∧ t.pc = s.pc ∧ (t.flags.o = true ↔ s.getReg a = 0x7FFF#16) ∧
      describesResult t.flags (s.getReg a + 1#16) ∧ Keeps s t [a] [] [.p, .z, .s, .o] noBytes := by
  obtain ⟨hreg, hpc, hkeeps⟩ := setResult_effect a (inc16_keeps s.flags (s.getReg a))
  exact ⟨hreg.trans (add16_word s.flags _ 1#16), hpc, (add16_word_overflow_iff s.flags _ 1#16).trans (not_fitsSigned_succ_iff _),
    describesResult_congr rfl rfl rfl (describesResult_add16_word s.flags _ 1#16), hkeeps⟩

theorem decR_effect (s : State) (a : Reg) :
    let t := s.setResult a (dec16 s.flags (s.getReg a))
    t.getReg a = s.getReg a - 1#16 ∧ t.pc = s.pc ∧ (t.flags.o = true ↔ s.getReg a = 0x8000#16) ∧
      describesResult t.flags (s.getReg a - 1#16) ∧ Keeps s t [a] [] [.p, .z, .s, .o] noBytes := by
  obtain ⟨hreg, hpc, hkeeps⟩ := setResult_effect a (dec16_keeps s.flags (s.getReg a))
  obtain ⟨-, hoverflow, hdescribes⟩ := sub16_comparesFlags s.flags (s.getReg a) 1#16
  exact ⟨hreg.trans (sub16_word s.flags _ 1#16), hpc, hoverflow.trans (not_fitsSigned_pred_iff _),
    describesResult_congr rfl rfl rfl hdescribes, hkeeps⟩

theorem negR_effect (s : State) (a : Reg) :
    let t := s.setResult a (sub16 s.flags 0#16 (s.getReg a).toNat)
    t.getReg a = -s.getReg a ∧ t.pc = s.pc ∧ (t.flags.c = true ↔ s.getReg a ≠ 0#16) ∧ (t.flags.o = true ↔ s.getReg a = 0x8000#16) ∧
      describesResult t.flags (-s.getReg a) ∧ Keeps s t [a] [] derivedFlags noBytes := by
  obtain ⟨hreg, hpc, hkeeps⟩ := setResult_effect a (sub16_keeps s.flags 0#16 (s.getReg a).toNat)
  obtain ⟨hborrow, hoverflow, hdescribes⟩ := sub16_comparesFlags s.flags 0#16 (s.getReg a)
  have hcarry : (0#16).toNat < (s.getReg a).toNat ↔ s.getReg a ≠ 0#16 := by
    rw [ne_eq, ← BitVec.toNat_inj, BitVec.toNat_ofNat]
    omega
  rw [sub16_word, BitVec.zero_sub] at hreg
  rw [BitVec.zero_sub] at hdescribes
  exact ⟨hreg, hpc, hborrow.trans hcarry, hoverflow.trans (not_fitsSigned_neg_iff _), hdescribes, hkeeps⟩

/-- Settles O41: the add and subtract derivations at operand 1 with carry restored, and the difference from 0. -/
theorem incDecNegResults : Obligations.IncDecNegResults := fun s a =>
  ⟨⟨_, rfl, incR_effect s a⟩, ⟨_, rfl, decR_effect s a⟩, ⟨_, rfl, negR_effect s a⟩⟩

/-! ## DIV -/

/-- Settles O42: quotient and remainder fit their registers. -/
theorem divCompletes : Obligations.DivCompletes := by
  intro s a hlt
  have hquotient : dividend s / (s.getReg a).toNat < 2 ^ 16 := by
    have hnofault := mt (divisor_le_dx_iff s _).2 hlt.not_ge
    omega
  have hremainder : dividend s % (s.getReg a).toNat < 2 ^ 16 :=
    (Nat.mod_lt _ (Nat.zero_lt_of_lt hlt)).trans (s.getReg a).isLt
  refine ⟨_, (execDivR_eq a s).trans (if_neg hlt.not_ge), ?_, ?_, rfl, (Keeps.setReg (by simp) _).trans (Keeps.setReg (by simp) _)⟩
  · rw [getReg_setReg_ne _ _ _ _ (by decide), getReg_setReg_same, BitVec.toNat_ofNat, Nat.mod_eq_of_lt hquotient, dividend]
  · rw [getReg_setReg_same, BitVec.toNat_ofNat, Nat.mod_eq_of_lt hremainder, dividend]

/-- Settles O43: the fault is the entry sequence of vector 0. -/
theorem divFaultEntersVectorZero : Obligations.DivFaultEntersVectorZero := by
  intro s a hle hroom
  obtain ⟨t, hdispatch, henters⟩ := dispatch_ok hroom 0#8
  refine ⟨t, ?_, henters⟩
  calc exec (.divR a) s = finish (divideFault s) := (execDivR_eq a s).trans (if_pos hle)
    _ = .next t := by rw [divideFault, hdispatch, finish_ok]

/-! ## The bitwise instructions -/

theorem logicInto_effect (s : State) (a : Reg) (r : Word) : ∃ t, logicInto a r s = .next t ∧ logicEffect s t [a] r := by
  obtain ⟨hreg, hpc, hkeeps⟩ := setResult_effect a (res := (r, logic16 s.flags r)) (logic16_keeps s.flags r)
  exact ⟨_, rfl, fun q hq => List.mem_singleton.1 hq ▸ hreg, hpc, rfl, rfl, describesResult_logic16 .., hkeeps⟩

theorem logicTest_effect (s : State) (r : Word) : ∃ t, logicTest r s = .next t ∧ logicEffect s t [] r :=
  ⟨_, rfl, nofun, rfl, rfl, rfl, describesResult_logic16 .., Keeps.setFlags (logic16_keeps _ _)⟩

theorem notR_effect (s : State) (a : Reg) :
    let t := s.setReg a (~~~(s.getReg a))
    (t.getReg a).toNat = 0xFFFF - (s.getReg a).toNat ∧ t.pc = s.pc ∧ Keeps s t [a] [] [] noBytes :=
  ⟨by rw [getReg_setReg_same, BitVec.toNat_not], rfl, Keeps.setReg (List.mem_singleton_self a) _⟩

/-- Settles O44: each form is one logic result, written or discarded, and NOT is the complement. -/
theorem bitwiseResults : Obligations.BitwiseResults := fun s a b imm =>
  ⟨logicInto_effect s a (s.getReg a &&& s.getReg b), logicInto_effect s a (s.getReg a &&& imm),
    logicInto_effect s a (s.getReg a ||| s.getReg b), logicInto_effect s a (s.getReg a ||| imm),
    logicInto_effect s a (s.getReg a ^^^ s.getReg b), logicInto_effect s a (s.getReg a ^^^ imm),
    logicTest_effect s (s.getReg a &&& s.getReg b), logicTest_effect s (s.getReg a &&& imm),
    ⟨_, rfl, notR_effect s a⟩⟩

end Sys2Proof.Machine
end

section
/-! PROOFS. Data transfer (42_data_transfer.md): the moves, the word loads and stores, and the far-pointer loads. -/

namespace Sys2Proof.Machine

/-! ## Moves -/

theorem setReg_effect (s : State) (a : Reg) (v : Word) :
    (s.setReg a v).getReg a = v ∧ (s.setReg a v).pc = s.pc ∧ Keeps s (s.setReg a v) [a] [] [] noBytes :=
  ⟨getReg_setReg_same .., rfl, .setReg (List.mem_singleton_self a) v⟩

theorem setSeg_effect (s : State) (j : SReg) (v : Word) :
    (s.setSeg j v).getSeg j = v ∧ (s.setSeg j v).pc = s.pc ∧ Keeps s (s.setSeg j v) [] [j] [] noBytes :=
  ⟨getSeg_setSeg_same .., rfl, .setSeg (List.mem_singleton_self j) v⟩

/-- Settles O33: each form is one register write, LEA's of the offset alone. -/
theorem moveResults : Obligations.MoveResults := fun s a b j w =>
  ⟨⟨_, rfl, setReg_effect s a (s.getReg b)⟩, ⟨_, rfl, setReg_effect s a w⟩, ⟨_, rfl, setReg_effect s a (s.getReg b + w)⟩,
    ⟨_, rfl, setReg_effect s a (s.getSeg j)⟩, ⟨_, rfl, setSeg_effect s j (s.getReg a)⟩⟩

/-! ## Word loads and stores -/

/-- A word load completes exactly when its word is in memory, with that word in the register (42_data_transfer.md R202). -/
theorem loadInto_eq_next {a : Reg} {m : Word × Word} {s t : State} :
    loadInto a m s = .next t ↔ wordInRange (operandAddress m) ∧ t = s.setReg a (s.wordAt (operandAddress m)) := by
  simp only [loadInto, finish_eq_next, bind_eq_ok, loadOperand_eq_ok, Except.ok.injEq]
  constructor
  · rintro ⟨_, ⟨hrange, rfl⟩, rfl⟩
    exact ⟨hrange, rfl⟩
  · rintro ⟨hrange, rfl⟩
    exact ⟨_, ⟨hrange, rfl⟩, rfl⟩

theorem loadInto_effect {m : Word × Word} (h : wordInRange (operandAddress m)) (s : State) (a : Reg) :
    ∃ t, loadInto a m s = .next t ∧ t.getReg a = s.wordAt (operandAddress m) ∧ t.pc = s.pc ∧ Keeps s t [a] [] [] noBytes :=
  ⟨_, loadInto_eq_next.2 ⟨h, rfl⟩, setReg_effect ..⟩

/-- Settles O34: one load, of the direct operand and of the indexed one, both in DS. -/
theorem loadResults : Obligations.LoadResults := fun s a b w =>
  ⟨fun h => loadInto_effect (m := directOperand s w) h s a, fun h => loadInto_effect (m := indexedOperand s b w) h s a⟩

theorem storeOperand_effect {m : Word × Word} (h : wordInRange (operandAddress m)) (s : State) (v : Word) :
    ∃ t, finish (storeOperand s m v) = .next t ∧ t.wordAt (operandAddress m) = v ∧ t.pc = s.pc ∧
      Keeps s t [] [] [] (inWord (operandAddress m)) :=
  ⟨_, finish_eq_next.2 (storeOperand_eq_ok.2 ⟨h, rfl⟩), storeWord_wordAt .., rfl, .storeWord (fun _ => id) v⟩

/-- Settles O35: one store, to the direct operand and to the indexed one, both in DS. -/
theorem storeResults : Obligations.StoreResults := fun s a b w =>
  ⟨fun h => storeOperand_effect (m := directOperand s w) h s (s.getReg a),
    fun h => storeOperand_effect (m := indexedOperand s b w) h s (s.getReg a)⟩

/-! ## Far-pointer loads -/

/-- A far-pointer load completes exactly when both words are in memory, and both are read before either register is written
(42_data_transfer.md R209). -/
theorem loadFarInto_eq_next {a : Reg} {j : SReg} {m : Word × Word} {s t : State} :
    loadFarInto a j m s = .next t ↔ wordInRange (operandAddress m) ∧ wordInRange (operandAddress (m.1, m.2 + 2#16)) ∧
      t = (s.setReg a (s.wordAt (operandAddress m))).setSeg j (s.wordAt (operandAddress (m.1, m.2 + 2#16))) := by
  simp only [loadFarInto, finish_eq_next, bind_eq_ok, loadFarPointer_eq_ok, Except.ok.injEq]
  constructor
  · rintro ⟨_, ⟨hoff, hseg, rfl⟩, rfl⟩
    exact ⟨hoff, hseg, rfl⟩
  · rintro ⟨hoff, hseg, rfl⟩
    exact ⟨_, ⟨hoff, hseg, rfl⟩, rfl⟩

/-- An instruction that is a far-pointer load at an offset of DS loads the far pointer there, DS itself its target or not. -/
theorem loadsFarPointer_of_loadFarInto {i : Instr} {s : State} {a : Reg} {j : SReg} {off : Word}
    (h : exec i s = loadFarInto a j (s.getSeg .ds, off) s) : loadsFarPointer i s a j off := fun hoff hseg =>
  ⟨_, h.trans (loadFarInto_eq_next.2 ⟨hoff, hseg, rfl⟩), (setSeg_getReg ..).trans (getReg_setReg_same ..), getSeg_setSeg_same .., rfl,
    (Keeps.setReg (List.mem_singleton_self a) _).trans (.setSeg (List.mem_singleton_self j) _)⟩

/-- Settles O36: each form is that load of its own operand. -/
theorem farPointerLoads : Obligations.FarPointerLoads := fun _ _ _ _ =>
  ⟨loadsFarPointer_of_loadFarInto rfl, loadsFarPointer_of_loadFarInto rfl, loadsFarPointer_of_loadFarInto rfl,
    loadsFarPointer_of_loadFarInto rfl⟩

end Sys2Proof.Machine
end

section
/-! PROOFS. Control flow (43_control_flow.md): the jumps, the conditional jumps after a comparison, the loops, the calls and the
returns. -/

namespace Sys2Proof.Machine

/-! ## Jumps -/

/-- Settles O45: each form writes pc alone. -/
theorem jumpResults : Obligations.JumpResults := fun s _ _ d =>
  ⟨⟨_, rfl, rfl, .setPc _⟩, ⟨_, rfl, rfl, .setPc _⟩, ⟨_, rfl, relativeTarget_movesBy s d, .setPc _⟩⟩

/-! ## Conditional jumps -/

theorem jumpsWhen_congr {i : Instr} {d : Byte} {s : State} {p q : Prop} (h : p ↔ q) (hp : jumpsWhen i d s p) : jumpsWhen i d s q :=
  propext h ▸ hp

/-- A transfer whose test says a condition is taken exactly on that condition (43_control_flow.md R237). -/
theorem jumpIf_when {taken : Bool} {s : State} {c : Prop} (hc : taken = true ↔ c) (d : Byte) :
    (c → movesBy s (jumpIf taken d s) d) ∧ (¬ c → (jumpIf taken d s).pc = s.pc) ∧ Keeps s (jumpIf taken d s) [] [] [] noBytes := by
  obtain ⟨htaken, hfalls, hkeeps⟩ := jumpIf_spec taken d s
  exact ⟨fun hp => htaken (hc.2 hp), fun hp => hfalls (Bool.eq_false_iff.2 (mt hc.1 hp)), hkeeps⟩

/-- An instruction that is the common operation of a condition jumps when the condition's flags say so (43_control_flow.md R237). -/
theorem jumpsWhen_of_conditionalJump {i : Instr} {d : Byte} {s : State} {k : Cond} {c : Prop}
    (h : exec i s = .next (conditionalJump k d s)) (hc : k.holds s.flags = true ↔ c) : jumpsWhen i d s c :=
  ⟨_, h, jumpIf_when hc d⟩

/-- Settles O46: every row of R236 gives its condition as flags. -/
theorem conditionalJumps : Obligations.ConditionalJumps := by
  intro s d
  and_intros <;> exact jumpsWhen_of_conditionalJump rfl (by simp [Cond.holds])

/-! ## The order of compared operands -/

section Compared

variable {f : Flags} {x y : Word}

theorem zero_iff_of_comparesFlags (h : comparesFlags f x y) : f.z = true ↔ x = y := by
  obtain ⟨-, -, hzero, -, -⟩ := h
  exact hzero.trans sub_eq_zero

/-- Carry or zero is the unsigned order (43_control_flow.md R236). -/
theorem carry_or_zero_iff_of_comparesFlags (h : comparesFlags f x y) : (f.c = true ∨ f.z = true) ↔ x.toNat ≤ y.toNat := by
  obtain ⟨hcarry, -, -⟩ := id h
  rw [hcarry, zero_iff_of_comparesFlags h, ← BitVec.toNat_inj]
  omega

/-- Sign tells the order of the operands, and overflow that it tells it wrongly (43_control_flow.md R236). -/
theorem sign_ne_overflow_iff_of_comparesFlags (h : comparesFlags f x y) : f.s ≠ f.o ↔ x.toInt < y.toInt := by
  obtain ⟨-, hoverflow, -, hsign, -⟩ := h
  obtain ⟨hx, hx'⟩ := fitsSigned_toInt x
  obtain ⟨hy, hy'⟩ := fitsSigned_toInt y
  have hdiff : ((x - y).toNat : Int) = (x.toInt - y.toInt) % 65536 := by
    rw [BitVec.toNat_sub, BitVec.toInt_eq_toNat_cond, BitVec.toInt_eq_toNat_cond]
    have := x.isLt
    have := y.isLt
    split_ifs <;> omega
  rw [ne_eq, Bool.eq_iff_iff, hsign, hoverflow, fitsSigned]
  omega

/-- The signed order with equality (43_control_flow.md R236). -/
theorem zero_or_sign_ne_overflow_iff_of_comparesFlags (h : comparesFlags f x y) :
    (f.z = true ∨ f.s ≠ f.o) ↔ x.toInt ≤ y.toInt := by
  rw [zero_iff_of_comparesFlags h, sign_ne_overflow_iff_of_comparesFlags h, ← BitVec.toInt_inj]
  omega

end Compared

/-- Settles O47: five orders of the operands read off the flags of the comparison, and their complements. -/
theorem compareThenBranch : Obligations.CompareThenBranch := by
  intro s a b d
  obtain ⟨-, hflags, -⟩ := compare_effect s a (s.getReg b)
  have heq := zero_iff_of_comparesFlags hflags
  have hbelow := sub16_carry_iff s.flags (s.getReg a) (s.getReg b).toNat
  have hbe := carry_or_zero_iff_of_comparesFlags hflags
  have hless := sign_ne_overflow_iff_of_comparesFlags hflags
  have hle := zero_or_sign_ne_overflow_iff_of_comparesFlags hflags
  obtain ⟨-, -, jc, jnc, jz, jnz, jbe, ja, -, -, -, -, jl, jge, jle, jg⟩ :=
    conditionalJumps (s.setFlags (sub16 s.flags (s.getReg a) (s.getReg b).toNat).2) d
  refine ⟨_, rfl, jumpsWhen_congr heq jz, jumpsWhen_congr ?_ jnz, jumpsWhen_congr hbelow jc, jumpsWhen_congr ?_ jnc,
    jumpsWhen_congr hbe jbe, jumpsWhen_congr ?_ ja, jumpsWhen_congr hless jl, jumpsWhen_congr ?_ jge, jumpsWhen_congr hle jle,
    jumpsWhen_congr ?_ jg⟩
  · rw [← Bool.not_eq_true, heq]
  · rw [← not_lt, ← hbelow, Bool.not_eq_true]; rfl
  · rw [← not_le, ← hbe, not_or, Bool.not_eq_true, Bool.not_eq_true]
  · rw [← not_lt, ← hless, not_ne_iff]
  · rw [← not_le, ← hle, not_or, Bool.not_eq_true, not_ne_iff]

/-! ## Loops -/

/-- The count just decremented is not zero exactly when CX was not one (43_control_flow.md R270). -/
theorem countdown_taken_iff (s : State) {b : Bool} {c : Prop} (hc : b = true ↔ c) :
    ((s.setReg .cx (s.getReg .cx - 1#16)).getReg .cx != 0#16 && b) = true ↔ s.getReg .cx ≠ 1#16 ∧ c := by
  rw [Bool.and_eq_true, bne_iff_ne, getReg_setReg_same, hc]
  exact and_congr_left' (not_congr sub_eq_zero)

/-- An instruction that is the common operation of the loops counts CX down and jumps when it is not zero then and the flags say so
(43_control_flow.md section 5). -/
theorem loopsWhen_of_loopIf {i : Instr} {d : Byte} {s : State} {b : Bool} {c : Prop}
    (h : exec i s = .next (loopIf b d s)) (hc : b = true ↔ c) : loopsWhen i d s c := by
  obtain ⟨htaken, hfalls, hkeeps⟩ := jumpIf_when (countdown_taken_iff s hc) d
  exact ⟨_, h, (hkeeps.regs .cx (by simp)).trans (getReg_setReg_same ..), htaken, hfalls,
    (Keeps.setReg (.head _) _).trans (hkeeps.mono (by simp) (by simp) (by simp) fun _ => id)⟩

/-- Settles O51: one loop at three conditions. -/
theorem loopResults : Obligations.LoopResults := fun _ _ =>
  ⟨loopsWhen_of_loopIf rfl (iff_of_true rfl trivial), loopsWhen_of_loopIf rfl Iff.rfl,
    loopsWhen_of_loopIf rfl (Bool.not_eq_true' _).to_iff⟩

/-! ## Calls -/

/-- The bytes of one push are those of the word below SP. -/
theorem inPushed_one (s : State) (a : Nat) : inPushed s 1 a ↔ inWord (stackAddress s (s.getReg .sp - 2#16)) a := by
  simp [inPushed, pushOffset]

theorem nearCall_eq (w : Word) (s : State) : nearCall w s = finish (pushAll s [s.pc] >>= fun u => .ok (u.setPc w)) := by
  unfold nearCall pushAll
  cases push s s.pc <;> rfl

/-- The far call is two pushes, then the two transfers; pc is pushed as it was at entry (43_control_flow.md R262). -/
theorem execCallF_eq (off sg : Word) (s : State) :
    execCallF off sg s = finish (pushAll s [s.getSeg .cs, s.pc] >>= fun u => .ok ((u.setSeg .cs sg).setPc off)) := by
  simp only [execCallF, pushAll]
  cases hpush : push s (s.getSeg .cs) with
  | error e => rfl
  | ok t =>
    obtain ⟨-, rfl⟩ := push_eq_ok.1 hpush
    show finish (push _ s.pc >>= _) = finish ((push _ s.pc >>= _) >>= _)
    cases push (s.pushed (s.getSeg .cs)) s.pc <;> rfl

theorem callsNear_of_nearCall {i : Instr} {s : State} {w : Word} (h : exec i s = nearCall w s) : callsNear i s w := by
  intro hroom
  obtain ⟨u, hu, hsp, -, hword, hkeeps⟩ := pushAll_keeps (vs := [s.pc]) hroom (by simp)
  refine ⟨u.setPc w, ?_, rfl, (setPc_getReg ..).trans hsp, hword 0 _ rfl, ?_⟩
  · rw [h, nearCall_eq, hu, bind_ok, finish_ok]
  · exact (hkeeps.trans (.setPc w)).mono (fun _ => id) (fun _ => id) (fun _ => id) fun a => (inPushed_one s a).1

theorem callF_effect (off sg : Word) {s : State} (hroom : roomToPush s 2) : ∃ t, execCallF off sg s = .next t ∧ t.pc = off ∧
    t.getSeg .cs = sg ∧ t.getReg .sp = pushOffset s 2 ∧ t.wordAt (stackAddress s (pushOffset s 1)) = s.getSeg .cs ∧
    t.wordAt (stackAddress s (pushOffset s 2)) = s.pc ∧ Keeps s t [.sp] [.cs] [] (inPushed s 2) := by
  obtain ⟨u, hu, hsp, -, hword, hkeeps⟩ := pushAll_keeps (vs := [s.getSeg .cs, s.pc]) hroom (by simp)
  refine ⟨(u.setSeg .cs sg).setPc off, ?_, rfl, by simp, by simpa using hsp, hword 0 _ rfl, hword 1 _ rfl, ?_⟩
  · rw [execCallF_eq, hu, bind_ok, finish_ok]
  · exact (hkeeps.mono (fun _ => id) (by simp) (fun _ => id) fun _ => id).trans ((Keeps.setSeg (.head _) sg).trans (.setPc off))

/-- Settles O48: the pushes in the order of the statement, then the transfer. -/
theorem callResults : Obligations.CallResults := fun _ _ off sg =>
  ⟨callsNear_of_nearCall rfl, callsNear_of_nearCall rfl, callF_effect off sg⟩

/-! ## Returns -/

theorem execRet_effect {s : State} (h : wordsToPop s 1) : ∃ t, execRet s = .next t ∧
    t.pc = s.wordAt (stackAddress s (s.getReg .sp)) ∧ t.getReg .sp = s.getReg .sp + 2#16 ∧ Keeps s t [.sp] [] [] noBytes := by
  refine ⟨s.popped.setPc (s.wordAt (stackAddress s (popOffset s 0))), ?_, ?_, by simp, (Keeps.popped (.head _)).trans (.setPc _)⟩
  · rw [execRet, pop_first h]; rfl
  · rw [setPc_pc, popOffset_zero]

theorem execRetI_effect (n : Word) {s : State} (h : wordsToPop s 1) : ∃ t, execRetI n s = .next t ∧
    t.pc = s.wordAt (stackAddress s (s.getReg .sp)) ∧ t.getReg .sp = s.getReg .sp + 2#16 + n ∧ Keeps s t [.sp] [] [] noBytes := by
  refine ⟨(s.popped.setPc (s.wordAt (stackAddress s (popOffset s 0)))).setReg .sp (s.popped.getReg .sp + n), ?_, ?_, by simp,
    (Keeps.popped (.head _)).trans ((Keeps.setPc _).trans (.setReg (.head _) _))⟩
  · rw [execRetI, pop_first h]; rfl
  · rw [setReg_pc, setPc_pc, popOffset_zero]

theorem execRetF_effect {s : State} (h : wordsToPop s 2) : ∃ t, execRetF s = .next t ∧
    t.pc = s.wordAt (stackAddress s (popOffset s 0)) ∧ t.getSeg .cs = s.wordAt (stackAddress s (popOffset s 1)) ∧
    t.getReg .sp = s.getReg .sp + 4#16 ∧ Keeps s t [.sp] [.cs] [] noBytes := by
  refine ⟨(s.popped.popped.setPc (s.wordAt (stackAddress s (popOffset s 0)))).setSeg .cs (s.wordAt (stackAddress s (popOffset s 1))),
    ?_, rfl, by simp, by simp [BitVec.add_assoc],
    (Keeps.popped (.head _)).trans ((Keeps.popped (.head _)).trans ((Keeps.setPc _).trans (.setSeg (.head _) _)))⟩
  simp [execRetF, pop_first h, pop_first (popped_words h)]

/-- Settles O49: the pops in order, then the transfer. -/
theorem returnResults : Obligations.ReturnResults := fun _ n => ⟨execRet_effect, execRetI_effect n, execRetF_effect⟩

/-! ## A return right after a call -/

/-- The slots popped from where `n + k` pushes left SP are those of the last pushes, the last one first. -/
theorem popOffset_eq_pushOffset {s t : State} {n k : Nat} (hsp : t.getReg .sp = pushOffset s (n + k)) :
    popOffset t k = pushOffset s n := by
  rw [popOffset, hsp]
  apply BitVec.eq_of_toNat_eq
  simp only [pushOffset, BitVec.toNat_add, BitVec.toNat_sub, BitVec.toNat_ofNat]
  omega

/-- Words that were pushed can be popped. -/
theorem wordsToPop_of_roomToPush {s t : State} {n : Nat} (hsp : t.getReg .sp = pushOffset s n) (hss : t.getSeg .ss = s.getSeg .ss)
    (h : roomToPush s n) : wordsToPop t n := by
  intro k hk
  have hslot : popOffset t k = pushOffset s (n - k - 1 + 1) := popOffset_eq_pushOffset (by rw [hsp]; congr 1; omega)
  rw [hslot, stackAddress, hss]
  exact h (n - k - 1) (by omega)

/-- Two states that keep all but SP in turn, with SP back where it was, end with the registers as they were. -/
theorem Keeps.getReg_eq_of_sp {s t u : State} {js ks : List SReg} {bs cs : Nat → Prop} (h : Keeps s t [.sp] js [] bs)
    (k : Keeps t u [.sp] ks [] cs) (hsp : u.getReg .sp = s.getReg .sp) (r : Reg) : u.getReg r = s.getReg r := by
  by_cases hr : r = .sp
  · rw [hr, hsp]
  · have hmem : r ∉ [Reg.sp] := by simpa using hr
    exact (k.regs r hmem).trans (h.regs r hmem)

theorem near_roundtrip {s : State} (w : Word) (hroom : roomToPush s 1) :
    ∃ t u, exec (.callA w) s = .next t ∧ exec .ret t = .next u ∧ u.pc = s.pc ∧ ∀ r, u.getReg r = s.getReg r := by
  obtain ⟨t, hcall, -, hsp, hword, hkeeps⟩ := (callsNear_of_nearCall (i := .callA w) rfl) hroom
  have hss : t.getSeg .ss = s.getSeg .ss := hkeeps.segs .ss (by simp)
  obtain ⟨u, hret, hpc, hsp', hkeeps'⟩ := execRet_effect (wordsToPop_of_roomToPush hsp hss hroom)
  refine ⟨t, u, hcall, hret, ?_, hkeeps.getReg_eq_of_sp hkeeps' ?_⟩
  · rw [hpc, hsp, stackAddress, hss]
    exact hword
  · rw [hsp', hsp, BitVec.sub_add_cancel]

theorem far_roundtrip {s : State} (off sg : Word) (hroom : roomToPush s 2) :
    ∃ t u, exec (.callF off sg) s = .next t ∧ exec .retF t = .next u ∧ u.pc = s.pc ∧ (∀ r, u.getReg r = s.getReg r) ∧
      ∀ j, u.getSeg j = s.getSeg j := by
  obtain ⟨t, hcall, -, -, hsp, hcs, hpc, hkeeps⟩ := callF_effect off sg hroom
  have hss : t.getSeg .ss = s.getSeg .ss := hkeeps.segs .ss (by simp)
  obtain ⟨u, hret, hpc', hcs', hsp', hkeeps'⟩ := execRetF_effect (wordsToPop_of_roomToPush hsp hss hroom)
  refine ⟨t, u, hcall, hret, ?_, hkeeps.getReg_eq_of_sp hkeeps' ?_, fun j => ?_⟩
  · rw [hpc', popOffset_eq_pushOffset (n := 2) hsp, stackAddress, hss]
    exact hpc
  · rw [hsp', hsp]
    exact BitVec.sub_add_cancel ..
  · by_cases hj : j = .cs
    · rw [hj, hcs', popOffset_eq_pushOffset (n := 1) hsp, stackAddress, hss]
      exact hcs
    · have hmem : j ∉ [SReg.cs] := by simpa using hj
      exact (hkeeps'.segs j hmem).trans (hkeeps.segs j hmem)

/-- Settles O50: the return pops the slots the call filled. -/
theorem callReturnRoundtrip : Obligations.CallReturnRoundtrip := fun _ w sg => ⟨near_roundtrip w, far_roundtrip w sg⟩

end Sys2Proof.Machine
end

section
/-! PROOFS. The stack and frame instructions (44_stack_frame.md): the words of the stack, PUSH and POP, PUSHA and POPA, ENTER and LEAVE. -/

namespace Sys2Proof.Machine

/-! ## The words of the stack -/

@[simp] theorem setReg_wordAt (s : State) (r : Reg) (v : Word) (pa : Nat) : (s.setReg r v).wordAt pa = s.wordAt pa := rfl

@[simp] theorem pushed_pc (s : State) (v : Word) : (s.pushed v).pc = s.pc := rfl

@[simp] theorem pushed_wordAt_top (s : State) (v : Word) : (s.pushed v).wordAt (stackAddress s (s.getReg .sp - 2#16)) = v :=
  storeWord_wordAt ..

/-- A word apart from the bytes a frame leaves free reads as before. -/
theorem Keeps.wordAt {s t : State} {rs : List Reg} {js : List SReg} {fs : List Flag} {bs : Nat → Prop} {pa : Nat}
    (h : Keeps s t rs js fs bs) (hpa : ∀ a, inWord pa a → ¬ bs a) : t.wordAt pa = s.wordAt pa :=
  wordAt_congr fun a ha => h.bytes a (hpa a ha)

/-- A byte lies in at most one of the stack words. -/
theorem not_inWord_of_slot_ne (s : State) {i j : Nat} (h : i ≠ j) (hi : i ≤ 0x7FFF) (hj : j ≤ 0x7FFF) (a : Nat)
    (ha : inWord (stackAddress s (pushOffset s i)) a) : ¬ inWord (stackAddress s (pushOffset s j)) a := by
  have := stackAddress_apart s h hi hj
  unfold inWord at *
  omega

/-- No push writes the word SP points at. -/
theorem not_inPushed_of_top (s : State) {n : Nat} (hn : n ≤ 0x7FFF) (a : Nat) (ha : inWord (stackAddress s (s.getReg .sp)) a) :
    ¬ inPushed s n a := by
  rintro ⟨k, hk, hpushed⟩
  rw [← pushOffset_zero] at ha
  exact not_inWord_of_slot_ne s (by omega) (by omega) (by omega) a ha hpushed

theorem inPushed_of_le {s : State} {n m a : Nat} (hnm : n ≤ m) (h : inPushed s n a) : inPushed s m a := by
  obtain ⟨k, hk, ha⟩ := h
  exact ⟨k, by omega, ha⟩

theorem pushOffset_succ (s : State) (n : Nat) : pushOffset s (n + 1) = pushOffset s n - 2#16 := by
  apply BitVec.eq_of_toNat_eq
  simp only [pushOffset, BitVec.toNat_sub, BitVec.toNat_ofNat]
  omega

/-- A push after `n` pushes fills the next slot. -/
theorem stackAddress_next {s t : State} {n : Nat} (hsp : t.getReg .sp = pushOffset s n) (hss : t.getSeg .ss = s.getSeg .ss) :
    stackAddress t (t.getReg .sp - 2#16) = stackAddress s (pushOffset s (n + 1)) := by
  rw [hsp, ← pushOffset_succ, stackAddress, hss, stackAddress]

/-- Two updates in a row restore every register when they restore those the second may write, the first's among them. -/
theorem Keeps.getReg_restored {s t u : State} {rs qs : List Reg} {js ks : List SReg} {fs gs : List Flag} {bs cs : Nat → Prop}
    (h : Keeps s t rs js fs bs) (k : Keeps t u qs ks gs cs) (hsub : rs ⊆ qs) (hqs : ∀ r ∈ qs, u.getReg r = s.getReg r)
    (r : Reg) : u.getReg r = s.getReg r := by
  by_cases hr : r ∈ qs
  · exact hqs r hr
  · exact (k.regs r hr).trans (h.regs r fun hmem => hr (hsub hmem))

/-! ## PUSH and POP -/

theorem execPush_effect (a : Reg) {s : State} (hroom : roomToPush s 1) : ∃ t, exec (.push a) s = .next t ∧
    t.getReg .sp = s.getReg .sp - 2#16 ∧ t.wordAt (stackAddress s (s.getReg .sp - 2#16)) = s.getReg a ∧ t.pc = s.pc ∧
    Keeps s t [.sp] [] [] (inWord (stackAddress s (s.getReg .sp - 2#16))) :=
  have hpush : push s (s.getReg a) = .ok (s.pushed (s.getReg a)) := push_eq_ok.2 ⟨hroom 0 (by omega), rfl⟩
  ⟨s.pushed (s.getReg a), finish_eq_next.2 hpush, by simp, by simp, rfl, .pushed (.head _) (fun _ => id) _⟩

/-- POP SP ends with SP at the popped word: the register is written after SP is incremented (44_stack_frame.md R283). -/
theorem execPop_effect (a : Reg) {s : State} (h : wordsToPop s 1) : ∃ t, exec (.pop a) s = .next t ∧
    t.getReg a = s.wordAt (stackAddress s (s.getReg .sp)) ∧ (a ≠ .sp → t.getReg .sp = s.getReg .sp + 2#16) ∧ t.pc = s.pc ∧
    Keeps s t [a, .sp] [] [] noBytes := by
  refine ⟨s.popped.setReg a (s.wordAt (stackAddress s (popOffset s 0))), ?_, ?_, fun ha => ?_, rfl,
    (Keeps.popped (by simp)).trans (.setReg (.head _) _)⟩
  · show execPop a s = _
    rw [execPop, pop_first h]; rfl
  · rw [getReg_setReg_same, popOffset_zero]
  · rw [getReg_setReg_ne _ _ _ _ ha.symm, popped_getReg, if_pos rfl]

/-- Settles O26: the two effects, for every register. -/
theorem pushPopResults : Obligations.PushPopResults := fun _ a => ⟨execPush_effect a, execPop_effect a⟩

/-- Settles O27: POP reads the word PUSH stored, and writes SP last when SP is the register. -/
theorem pushPopRoundtrip : Obligations.PushPopRoundtrip := by
  intro s a hroom
  obtain ⟨t, hpush, hsp, hword, -, hkeeps⟩ := execPush_effect a hroom
  have hss : t.getSeg .ss = s.getSeg .ss := hkeeps.segs .ss (by simp)
  obtain ⟨u, hpop, hval, hsp', -, hkeeps'⟩ := execPop_effect a (wordsToPop_of_roomToPush hsp hss hroom)
  have ha : u.getReg a = s.getReg a := by
    rw [hval, hsp, stackAddress, hss]
    exact hword
  refine ⟨t, u, hpush, hpop, hkeeps.getReg_restored hkeeps' (by simp) ?_⟩
  intro r hr
  by_cases hra : r = a
  · exact hra ▸ ha
  · obtain rfl : r = .sp := by simpa [hra] using hr
    rw [hsp' (Ne.symm hra), hsp, BitVec.sub_add_cancel]

/-! ## PUSHA and POPA -/

/-- PUSHA pushes the registers in number order (44_stack_frame.md R284). -/
theorem pushaWords_eq (s : State) : pushaWords s = allRegs.map s.getReg := rfl

theorem execPusha_effect {s : State} (hroom : roomToPush s 8) : ∃ t, exec .pusha s = .next t ∧
    t.getReg .sp = s.getReg .sp - 16#16 ∧ t.pc = s.pc ∧
    (∀ k r, allRegs[k]? = some r → t.wordAt (stackAddress s (pushOffset s (k + 1))) = s.getReg r) ∧
    Keeps s t [.sp] [] [] (inPushed s 8) := by
  obtain ⟨t, ht, hsp, hpc, hword, hkeeps⟩ := pushAll_keeps (vs := pushaWords s) hroom (by simp [pushaWords])
  refine ⟨t, finish_eq_next.2 ht, hsp, hpc, fun k r hr => hword k _ ?_, hkeeps⟩
  rw [pushaWords_eq, List.getElem?_map, hr, Option.map_some]

/-- Settles O28: eight words pushed in a row, read off the list of the registers. -/
theorem pushaResult : Obligations.PushaResult := fun _ => execPusha_effect

/-- The registers after POPA, each from its slot above SP: the last pushed word is SP's (44_stack_frame.md R285). -/
def State.popaRegs (s : State) : Regs :=
  let slot (k : Nat) := s.wordAt (stackAddress s (popOffset s k))
  { sp := slot 0, bp := slot 1, di := slot 2, si := slot 3, dx := slot 4, cx := slot 5, bx := slot 6, ax := slot 7 }

theorem frameWord_ok {s : State} {n k : Nat} (h : wordsToPop s n) (hk : k < n) :
    frameWord s k = .ok (s.wordAt (stackAddress s (popOffset s k))) := readWord_eq_ok.2 ⟨h k hk, rfl⟩

theorem execPopa_eq {s : State} (h : wordsToPop s 8) : execPopa s = .next { s with regs := s.popaRegs } := by
  simp [execPopa, frameWord_ok h, State.popaRegs]

/-- POPA reads the slots in the order of the pops, which is the pushes' order reversed (44_stack_frame.md R285). -/
theorem popaRegs_slot (s : State) {k : Nat} {r : Reg} (hr : allRegs.reverse[k]? = some r) :
    State.getReg { s with regs := s.popaRegs } r = s.wordAt (stackAddress s (popOffset s k)) := by
  have hk : k < 8 := (List.getElem?_eq_some_iff.1 hr).1
  interval_cases k <;> cases hr <;> rfl

theorem execPopa_effect {s : State} (h : wordsToPop s 8) : ∃ t, exec .popa s = .next t ∧
    (∀ k r, allRegs.reverse[k]? = some r → t.getReg r = s.wordAt (stackAddress s (popOffset s k))) ∧
    t.pc = s.pc ∧ Keeps s t allRegs [] [] noBytes :=
  ⟨_, execPopa_eq h, fun _ _ => popaRegs_slot s, rfl,
    { (Keeps.refl : Keeps s s allRegs [] [] noBytes) with
      regs := fun r hr => absurd (mem_allRegs r) hr
      segs := fun j _ => getSeg_congr rfl j }⟩

/-- Settles O29: the list of slots is the list of the registers reversed. -/
theorem popaResult : Obligations.PopaResult := fun _ => execPopa_effect

/-- Settles O30: the slot of a register in POPA's order is the one PUSHA filled with it. -/
theorem pushaPopaRoundtrip : Obligations.PushaPopaRoundtrip := by
  intro s hroom
  obtain ⟨t, hpusha, hsp, -, hword, hkeeps⟩ := execPusha_effect hroom
  have hss : t.getSeg .ss = s.getSeg .ss := hkeeps.segs .ss (by simp)
  obtain ⟨u, hpopa, hslot, -, -⟩ := execPopa_effect (wordsToPop_of_roomToPush (n := 8) hsp hss hroom)
  refine ⟨t, u, hpusha, hpopa, fun r => ?_⟩
  obtain ⟨k, hk⟩ := List.mem_iff_getElem?.1 (mem_allRegs r)
  have hlt : k < 8 := (List.getElem?_eq_some_iff.1 hk).1
  have hrev : allRegs.reverse[7 - k]? = some r := by
    have hlen : allRegs.length = 8 := rfl
    rw [List.getElem?_reverse (by omega), hlen, show 8 - 1 - (7 - k) = k by omega, hk]
  have haddr : stackAddress t (popOffset t (7 - k)) = stackAddress s (pushOffset s (k + 1)) := by
    rw [popOffset_eq_pushOffset (n := k + 1) (by rw [hsp, show k + 1 + (7 - k) = 8 by omega]; rfl), stackAddress, hss, stackAddress]
  rw [hslot _ _ hrev, haddr, hword k r hk]

/-! ## ENTER -/

/-- The nested part of ENTER: the outer frame pointers are copied, then the new one is pushed (44_stack_frame.md R286). -/
theorem nestFrames_ok {s : State} {n : Nat} (frame : Word) (hroom : roomToPush s n) (hn : n ≤ 0x7FFF) (hchain : chainReadable s n) :
    ∃ t, nestFrames s n frame = .ok t ∧ t.getReg .sp = pushOffset s n ∧ t.pc = s.pc ∧
      (0 < n → t.wordAt (stackAddress s (pushOffset s n)) = frame) ∧
      (∀ k, 1 ≤ k → k < n → (∀ a, inWord (stackAddress s (s.getReg .bp - BitVec.ofNat 16 (2 * k))) a → ¬ inPushed s n a) →
        t.wordAt (stackAddress s (pushOffset s k)) = s.wordAt (stackAddress s (s.getReg .bp - BitVec.ofNat 16 (2 * k)))) ∧
      Keeps s t [.sp, .bp] [] [] (inPushed s n) := by
  cases n with
  | zero => exact ⟨s, rfl, (pushOffset_zero s).symm, rfl, fun h => by omega, fun k _ _ => by omega, .refl⟩
  | succ n =>
    obtain ⟨u, hu, hsp, -, hpc, hkeeps, hcopied⟩ := copyFrames_ok (s := s) (n := n) (fun k hk => hroom k (by omega)) (by omega)
      fun k h1 hk => hchain k h1 (by omega)
    have hslot := stackAddress_next hsp (hkeeps.segs .ss (by simp))
    have hpush : push u frame = .ok (u.pushed frame) := push_eq_ok.2 ⟨hslot ▸ hroom n (by omega), rfl⟩
    have hlast : Keeps u (u.pushed frame) [.sp, .bp] [] [] (inWord (stackAddress s (pushOffset s (n + 1)))) :=
      .pushed (by simp) (fun _ ha => hslot ▸ ha) frame
    refine ⟨u.pushed frame, ?_, ?_, hpc, fun _ => ?_, fun k h1 hk hapart => ?_, ?_⟩
    · show (copyFrames s n >>= fun t => push t frame) = _
      rw [hu, bind_ok, hpush]
    · rw [pushed_getReg, if_pos rfl, hsp, pushOffset_succ]
    · rw [← hslot, pushed_wordAt_top]
    · rw [hlast.wordAt (not_inWord_of_slot_ne s (by omega) (by omega) (by omega)),
        hcopied k h1 (by omega) fun a ha h => hapart a ha (inPushed_of_le (by omega) h)]
    · exact (hkeeps.mono (fun _ => id) (fun _ => id) (fun _ => id) fun _ => inPushed_of_le (by omega)).trans
        (hlast.mono (fun _ => id) (fun _ => id) (fun _ => id) fun a ha => ⟨n, by omega, ha⟩)

theorem execEnter_effect (size : Word) (level : Byte) {s : State} (hroom : roomToPush s (level.toNat % 32 + 1))
    (hchain : chainReadable s (level.toNat % 32)) : ∃ t, exec (.enter size level) s = .next t ∧
    t.getReg .bp = s.getReg .sp - 2#16 ∧
    t.getReg .sp = s.getReg .sp - BitVec.ofNat 16 (2 + 2 * (level.toNat % 32)) - size ∧ t.pc = s.pc ∧
    t.wordAt (stackAddress s (s.getReg .sp - 2#16)) = s.getReg .bp ∧
    (0 < level.toNat % 32 → t.wordAt (stackAddress s (pushOffset s (level.toNat % 32 + 1))) = s.getReg .sp - 2#16) ∧
    (∀ k, 1 ≤ k → k < level.toNat % 32 →
      (∀ a, inWord (stackAddress s (s.getReg .bp - BitVec.ofNat 16 (2 * k))) a → ¬ inPushed s (level.toNat % 32 + 1) a) →
      t.wordAt (stackAddress s (pushOffset s (k + 1))) = s.wordAt (stackAddress s (s.getReg .bp - BitVec.ofNat 16 (2 * k)))) ∧
    Keeps s t [.sp, .bp] [] [] (inPushed s (level.toNat % 32 + 1)) := by
  have hpush : push s (s.getReg .bp) = .ok (s.pushed (s.getReg .bp)) := push_eq_ok.2 ⟨hroom 0 (by omega), rfl⟩
  have hbp : (s.pushed (s.getReg .bp)).getReg .bp = s.getReg .bp := by simp
  have hfirst : Keeps s (s.pushed (s.getReg .bp)) [.sp, .bp] [] [] (inPushed s (level.toNat % 32 + 1)) :=
    .pushed (by simp) (fun a ha => ⟨0, by omega, ha⟩) _
  obtain ⟨u, hu, hsp, hpc, hframe, hcopied, hkeeps⟩ := nestFrames_ok (s.getReg .sp - 2#16) (pushed_room hroom (s.getReg .bp))
    (by omega) (by simpa [chainReadable, pushed_stackAddress] using hchain)
  simp only [pushed_stackAddress, pushed_pushOffset, hbp] at hsp hframe hcopied
  refine ⟨(u.setReg .bp (s.getReg .sp - 2#16)).setReg .sp (u.getReg .sp - size), ?_, by simp, ?_, hpc, ?_, hframe,
    fun k h1 hk hapart => ?_, ?_⟩
  · show execEnter size level s = _
    simp [execEnter, hpush, hu]
  · rw [getReg_setReg_same, hsp, pushOffset, Nat.mul_add, Nat.add_comm]
  · have htop := hkeeps.wordAt (not_inPushed_of_top _ (by omega))
    simp only [pushed_stackAddress, pushed_getReg, if_true, pushed_wordAt_top] at htop
    exact htop
  · have hunpushed := hcopied k h1 hk fun a ha h => hapart a ha (pushed_inPushed _ h)
    exact hunpushed.trans (hfirst.wordAt hapart)
  · exact hfirst.trans ((hkeeps.mono (fun _ => id) (fun _ => id) (fun _ => id) fun _ => pushed_inPushed _).trans
      ((Keeps.setReg (by simp) _).trans (.setReg (by simp) _)))

/-! ## LEAVE -/

theorem execLeave_effect {s : State} (h : wordInRange (stackAddress s (s.getReg .bp))) : ∃ t, exec .leave s = .next t ∧
    t.getReg .bp = s.wordAt (stackAddress s (s.getReg .bp)) ∧ t.getReg .sp = s.getReg .bp + 2#16 ∧ t.pc = s.pc ∧
    Keeps s t [.sp, .bp] [] [] noBytes := by
  have hpop : pop (s.setReg .sp (s.getReg .bp)) =
      .ok (s.wordAt (stackAddress s (s.getReg .bp)), (s.setReg .sp (s.getReg .bp)).popped) :=
    pop_eq_ok.2 ⟨by simpa [stackAddress] using h, by simp [stackAddress]⟩
  refine ⟨(s.setReg .sp (s.getReg .bp)).popped.setReg .bp (s.wordAt (stackAddress s (s.getReg .bp))), ?_, by simp, by simp, rfl,
    (Keeps.setReg (.head _) _).trans ((Keeps.popped (.head _)).trans (.setReg (by simp) _))⟩
  show execLeave s = _
  rw [execLeave, hpop]; rfl

/-- Settles O31: the two effects, at every size and level. -/
theorem enterLeaveResults : Obligations.EnterLeaveResults := fun _ =>
  ⟨fun size level => execEnter_effect size level, execLeave_effect⟩

/-- Settles O32: LEAVE pops the old BP from the word BP points at after ENTER, whatever ENTER pushed below it. -/
theorem enterLeaveInverse : Obligations.EnterLeaveInverse := by
  intro s size level hroom hchain
  obtain ⟨t, henter, hbp, -, -, hword, -, -, hkeeps⟩ := execEnter_effect size level hroom hchain
  have haddr : stackAddress t (t.getReg .bp) = stackAddress s (s.getReg .sp - 2#16) := by
    rw [hbp, stackAddress, hkeeps.segs .ss (by simp), stackAddress]
  obtain ⟨u, hleave, hbp', hsp', -, hkeeps'⟩ := execLeave_effect (haddr ▸ hroom 0 (by omega))
  refine ⟨t, u, henter, hleave, hkeeps.getReg_restored hkeeps' (List.Subset.refl _) ?_⟩
  simp only [List.forall_mem_cons]
  exact ⟨by rw [hsp', hbp, BitVec.sub_add_cancel], by rw [hbp', haddr, hword], by simp⟩

end Sys2Proof.Machine
end

section
/-! PROOFS. The single string instructions (45_string_repeat.md R298 to R307): one iteration, its results and its frame. -/

namespace Sys2Proof.Machine

/-! ## One iteration -/

/-- The single string instruction of an operation (30_encoding.md R101). -/
def StringOp.single : StringOp → Instr
  | .movsb => .movsb
  | .movsw => .movsw
  | .stosb => .stosb
  | .stosw => .stosw
  | .lodsb => .lodsb
  | .lodsw => .lodsw
  | .cmpsb => .cmpsb
  | .cmpsw => .cmpsw

/-- The registers one iteration writes: the used pointers, and AX for LODS (45_string_repeat.md R298, R304). -/
def StringOp.regsWritten : StringOp → List Reg
  | .movsb | .movsw | .cmpsb | .cmpsw => [.si, .di]
  | .stosb | .stosw => [.di]
  | .lodsb | .lodsw => [.ax, .si]

theorem exec_single (op : StringOp) (s : State) : exec op.single s = finish (op.once s) := by cases op <;> rfl

/-- A single string instruction completes exactly when its operands are in memory (45_string_repeat.md R300 to R307). -/
theorem exec_single_eq_next {op : StringOp} {s t : State} : exec op.single s = .next t ↔ op.ready s ∧ t = op.result s := by
  rw [exec_single, finish_eq_next, once_eq_ok]

theorem exec_single_ready {op : StringOp} {s : State} (h : op.ready s) : exec op.single s = .next (op.result s) :=
  exec_single_eq_next.2 ⟨h, rfl⟩

theorem advance_keeps (s : State) (n m : Word) (fs : List Flag) (bs : Nat → Prop) :
    Keeps s (advanceDest (advanceSource s n) m) [.si, .di] [] fs bs :=
  (Keeps.setReg (by simp) _).trans (Keeps.setReg (by simp) _)

/-- The frame of one iteration, with the registers of its own operation. -/
theorem result_keeps (op : StringOp) (s : State) : Keeps s (op.result s) op.regsWritten [] op.flagsWritten (op.storedAt s) := by
  cases op with
  | movsb => exact (Keeps.storeByte (bs := StringOp.movsb.storedAt s) rfl _).trans (advance_keeps ..)
  | movsw => exact (Keeps.storeWord (bs := StringOp.movsw.storedAt s) (fun _ => id) _).trans (advance_keeps ..)
  | stosb => exact (Keeps.storeByte (bs := StringOp.stosb.storedAt s) rfl _).trans (Keeps.setReg (r := .di) (.head _) _)
  | stosw => exact (Keeps.storeWord (bs := StringOp.stosw.storedAt s) (fun _ => id) _).trans (Keeps.setReg (r := .di) (.head _) _)
  | lodsb | lodsw => exact (Keeps.setReg (r := .ax) (.head _) _).trans (Keeps.setReg (r := .si) (.tail _ (.head _)) _)
  | cmpsb | cmpsw => exact (Keeps.setFlags (sub16_keeps _ _ _)).trans (advance_keeps ..)

@[simp] theorem result_pc (op : StringOp) (s : State) : (op.result s).pc = s.pc := (result_frame op s).1

/-- No string operation writes CX. -/
@[simp] theorem result_cx (op : StringOp) (s : State) : (op.result s).getReg .cx = s.getReg .cx :=
  (result_frame op s).2.regs .cx (by simp)

theorem stringOffset_zero (s : State) (w n : Word) : stringOffset s w n 0 = w := by simp [stringOffset]

/-- A pointer advanced once more, in a state with the same direction (45_string_repeat.md R298). -/
theorem stringOffset_succ {s u : State} (hd : u.flags.d = s.flags.d) (w n : Word) (k : Nat) :
    stringOffset s w n (k + 1) = stringOffset s w n k + stringDelta u n := by
  have hk : BitVec.ofNat 16 (k + 1) * n = BitVec.ofNat 16 k * n + n := by rw [BitVec.ofNat_add, add_mul, BitVec.one_mul]
  unfold stringOffset stringDelta
  rw [hd, hk]
  split <;> abel

theorem result_source {op : StringOp} (h : op.usesSource = true) (s : State) :
    (op.result s).getReg .si = stringOffset s (s.getReg .si) op.size 1 := by
  rw [result_si, if_pos h, stringOffset_succ rfl, stringOffset_zero]

theorem result_dest {op : StringOp} (h : op.usesDest = true) (s : State) :
    (op.result s).getReg .di = stringOffset s (s.getReg .di) op.size 1 := by
  rw [result_di, if_pos h, stringOffset_succ rfl, stringOffset_zero]

/-! ## MOVS and STOS -/

@[simp] theorem advanceSource_byteAt (s : State) (n : Word) (a : Nat) : (advanceSource s n).byteAt a = s.byteAt a := rfl
@[simp] theorem advanceDest_byteAt (s : State) (n : Word) (a : Nat) : (advanceDest s n).byteAt a = s.byteAt a := rfl
@[simp] theorem advanceSource_wordAt (s : State) (n : Word) (a : Nat) : (advanceSource s n).wordAt a = s.wordAt a := rfl
@[simp] theorem advanceDest_wordAt (s : State) (n : Word) (a : Nat) : (advanceDest s n).wordAt a = s.wordAt a := rfl

theorem movsb_stores (s : State) : (StringOp.movsb.result s).byteAt (stringDest s) = s.byteAt (stringSource s) := by
  simp [StringOp.result, stringDest, stringSource, destAddress, sourceAddress]

theorem movsw_stores (s : State) : (StringOp.movsw.result s).wordAt (stringDest s) = s.wordAt (stringSource s) := by
  simp [StringOp.result, stringDest, stringSource, destAddress, sourceAddress]

theorem stosb_stores (s : State) : (StringOp.stosb.result s).byteAt (stringDest s) = (s.getReg .ax).setWidth 8 := by
  simp [StringOp.result, stringDest, destAddress, lowByte_eq_setWidth]

theorem stosw_stores (s : State) : (StringOp.stosw.result s).wordAt (stringDest s) = s.getReg .ax := by
  simp [StringOp.result, stringDest, destAddress]

/-- Settles O52: the element stored, the pointers advanced, and the frame, one form at a time. -/
theorem movsStosResults : Obligations.MovsStosResults := fun s =>
  ⟨fun hsrc hdst => ⟨_, exec_single_ready (op := .movsb) ⟨hsrc, hdst⟩, movsb_stores s, result_source rfl s, result_dest rfl s,
      result_pc .., result_keeps .movsb s⟩,
    fun hsrc hdst => ⟨_, exec_single_ready (op := .movsw) ⟨hsrc, hdst⟩, movsw_stores s, result_source rfl s, result_dest rfl s,
      result_pc .., result_keeps .movsw s⟩,
    fun hdst => ⟨_, exec_single_ready (op := .stosb) hdst, stosb_stores s, result_dest rfl s, result_pc .., result_keeps .stosb s⟩,
    fun hdst => ⟨_, exec_single_ready (op := .stosw) hdst, stosw_stores s, result_dest rfl s, result_pc .., result_keeps .stosw s⟩⟩

/-! ## LODS and CMPS -/

/-- LODSB replaces the low byte of AX (45_string_repeat.md R304). -/
theorem lodsb_ax (s : State) : ((StringOp.lodsb.result s).getReg .ax).toNat =
    (s.getReg .ax).toNat / 256 * 256 + (s.byteAt (stringSource s)).toNat := by
  simp [StringOp.result, advanceSource, stringSource, sourceAddress, toNat_wordOfBytes, toNat_highByte]

theorem lodsw_ax (s : State) : (StringOp.lodsw.result s).getReg .ax = s.wordAt (stringSource s) := by
  simp [StringOp.result, advanceSource, stringSource, sourceAddress]

/-- The flags a byte compare derives, those of the zero-extended bytes (45_string_repeat.md R306). -/
def byteCompareFlags (f : Flags) (p q : Byte) : Flags := (sub16 f (p.setWidth 16) q.toNat).2

theorem cmpsb_flags (s : State) :
    (StringOp.cmpsb.result s).flags = byteCompareFlags s.flags (s.byteAt (stringSource s)) (s.byteAt (stringDest s)) := rfl

theorem cmpsw_flags (s : State) :
    (StringOp.cmpsw.result s).flags = (sub16 s.flags (s.wordAt (stringSource s)) (s.wordAt (stringDest s)).toNat).2 := rfl

section ByteCompare

variable (f : Flags) (p q : Byte)

/-- A byte compare is the compare of the zero-extended bytes as words. -/
theorem byteCompareFlags_comparesFlags : comparesFlags (byteCompareFlags f p q) (p.setWidth 16) (q.setWidth 16) := by
  have hq : q.toNat = (q.setWidth 16 : Word).toNat := (BitVec.toNat_setWidth_of_le (by omega)).symm
  rw [byteCompareFlags, hq]
  exact sub16_comparesFlags ..

theorem byteCompareFlags_z : (byteCompareFlags f p q).z = true ↔ p = q := by
  rw [zero_iff_of_comparesFlags (byteCompareFlags_comparesFlags f p q)]
  bv_omega

theorem byteCompareFlags_c : (byteCompareFlags f p q).c = true ↔ p.toNat < q.toNat := sub16_carry_iff ..

theorem byteCompareFlags_p : (byteCompareFlags f p q).p = true ↔ evenOnes (p - q) := by
  obtain ⟨-, -, -, -, hp⟩ := byteCompareFlags_comparesFlags f p q
  have hlow : ((p.setWidth 16 - q.setWidth 16 : Word).setWidth 8 : Byte) = p - q := by bv_omega
  rwa [hlow] at hp

/-- The difference of two bytes is negative as a word exactly when it borrows (D23). -/
theorem byteCompareFlags_s : (byteCompareFlags f p q).s = (byteCompareFlags f p q).c := by
  obtain ⟨hc, -, -, hs, -⟩ := byteCompareFlags_comparesFlags f p q
  rw [Bool.eq_iff_iff, hs, hc]
  bv_omega

/-- The difference of two bytes fits in a signed word. -/
theorem byteCompareFlags_o : (byteCompareFlags f p q).o = false := by
  obtain ⟨-, ho, -⟩ := byteCompareFlags_comparesFlags f p q
  rw [Bool.eq_false_iff, ne_eq, ho, not_not, fitsSigned, BitVec.toInt_eq_toNat_of_msb, BitVec.toInt_eq_toNat_of_msb]
  · have := p.isLt
    have := q.isLt
    simp only [BitVec.toNat_setWidth]
    omega
  · simp [BitVec.msb_setWidth]
  · simp [BitVec.msb_setWidth]

end ByteCompare

/-- Settles O53: AX after LODS, the derivation of CMPS, the pointers advanced, and the frame, one form at a time. -/
theorem lodsCmpsResults : Obligations.LodsCmpsResults := fun s =>
  ⟨fun hsrc => ⟨_, exec_single_ready (op := .lodsb) hsrc, lodsb_ax s, result_source rfl s, result_pc .., result_keeps .lodsb s⟩,
    fun hsrc => ⟨_, exec_single_ready (op := .lodsw) hsrc, lodsw_ax s, result_source rfl s, result_pc .., result_keeps .lodsw s⟩,
    fun hsrc hdst => ⟨_, exec_single_ready (op := .cmpsb) ⟨hsrc, hdst⟩, byteCompareFlags_z .., byteCompareFlags_c ..,
      byteCompareFlags_p .., byteCompareFlags_s .., byteCompareFlags_o .., result_source rfl s, result_dest rfl s, result_pc ..,
      result_keeps .cmpsb s⟩,
    fun hsrc hdst => ⟨_, exec_single_ready (op := .cmpsw) ⟨hsrc, hdst⟩, sub16_comparesFlags .., result_source rfl s,
      result_dest rfl s, result_pc .., result_keeps .cmpsw s⟩⟩

end Sys2Proof.Machine
end

section
/-! PROOFS. The repeats (45_string_repeat.md R310 to R313): the loop run turn by turn, what `n` turns leave, the repeated compare and
the repeated move. -/

namespace Sys2Proof.Machine

/-! ## The repeats by kind and operation -/

/-- The repeat instruction of a kind. -/
def RepeatKind.instr : RepeatKind → Byte → Instr
  | .rep => .rep
  | .repz => .repz
  | .repnz => .repnz

theorem exec_repeat (kind : RepeatKind) (op : StringOp) (s : State) :
    exec (kind.instr op.opcode) s = finish (repeatLoop kind op (s.getReg .cx).toNat s) := by
  have hop : StringOp.ofByte op.opcode = some op := ofByte_eq_some.2 rfl
  have hdriver : repeatDriver kind op.opcode s = repeatLoop kind op (s.getReg .cx).toNat s := by rw [repeatDriver, hop]
  rw [← hdriver]
  cases kind <;> rfl

/-- The list of string opcodes is that of the operations with their single instructions (30_encoding.md R101). -/
theorem mem_stringOpcodes {b : Byte} {single : Instr} (h : (b, single) ∈ stringOpcodes) :
    ∃ op : StringOp, b = op.opcode ∧ single = op.single := by
  simp only [stringOpcodes, List.mem_cons, Prod.mk.injEq, List.not_mem_nil, or_false] at h
  obtain ⟨rfl, rfl⟩ | ⟨rfl, rfl⟩ | ⟨rfl, rfl⟩ | ⟨rfl, rfl⟩ |
    ⟨rfl, rfl⟩ | ⟨rfl, rfl⟩ | ⟨rfl, rfl⟩ | ⟨rfl, rfl⟩ := h
  exacts [⟨.movsb, rfl, rfl⟩, ⟨.movsw, rfl, rfl⟩, ⟨.stosb, rfl, rfl⟩, ⟨.stosw, rfl, rfl⟩,
    ⟨.lodsb, rfl, rfl⟩, ⟨.lodsw, rfl, rfl⟩, ⟨.cmpsb, rfl, rfl⟩, ⟨.cmpsw, rfl, rfl⟩]

theorem mem_repeats {b : Byte} {i : Instr} (h : i ∈ [Instr.rep b, .repz b, .repnz b]) : ∃ kind : RepeatKind, i = kind.instr b := by
  simp only [List.mem_cons, List.not_mem_nil, or_false] at h
  obtain rfl | rfl | rfl := h
  exacts [⟨.rep, rfl⟩, ⟨.repz, rfl⟩, ⟨.repnz, rfl⟩]

/-- The opcodes from 0x76 on are those of the compares. -/
theorem compares_iff (op : StringOp) : 0x76 ≤ op.opcode.toNat ↔ op.compares = true := by cases op <;> decide

/-- The driver's stop test is the stated one (45_string_repeat.md R310). -/
theorem stopsRepeat_iff (kind : RepeatKind) (op : StringOp) (t : State) :
    stopsRepeat (kind.instr op.opcode) op.opcode t ↔ kind.stops op t = true := by
  unfold stopsRepeat
  rw [compares_iff]
  cases kind <;> simp [RepeatKind.instr, RepeatKind.stops]

/-! ## Turns -/

section Turns

variable {kind : RepeatKind} {op : StringOp} {s t u : State} {n : Nat}

/-- `n` turns of the repeat of an operation. -/
abbrev Turns (kind : RepeatKind) (op : StringOp) (n : Nat) (s t : State) : Prop :=
  repeatTurns (kind.instr op.opcode) op.opcode op.single n s t

/-- The repeat of an operation ends after `n` turns. -/
abbrev Ends (kind : RepeatKind) (op : StringOp) (n : Nat) (t : State) : Prop :=
  repeatEnds (kind.instr op.opcode) op.opcode n t

/-- The state after one turn: an iteration, then CX decremented (45_string_repeat.md R310). -/
def StringOp.turn (op : StringOp) (s : State) : State := (op.result s).setReg .cx (s.getReg .cx - 1#16)

theorem turns_succ : Turns kind op (n + 1) s t ↔ ∃ u, Turns kind op n s u ∧ ¬ Ends kind op n u ∧ op.ready u ∧ t = op.turn u := by
  simp only [Turns, Ends, repeatTurns, exec_single_eq_next]
  constructor
  · rintro ⟨u, _, hu, hend, ⟨hready, rfl⟩, rfl⟩
    exact ⟨u, hu, hend, hready, by rw [result_cx]; rfl⟩
  · rintro ⟨u, hu, hend, hready, rfl⟩
    exact ⟨u, _, hu, hend, ⟨hready, rfl⟩, by rw [result_cx]; rfl⟩

theorem ends_iff : Ends kind op n t ↔ t.getReg .cx = 0#16 ∨ 0 < n ∧ kind.stops op t = true := by
  unfold Ends repeatEnds
  rw [stopsRepeat_iff]

theorem not_ends_iff : ¬ Ends kind op n t ↔ t.getReg .cx ≠ 0#16 ∧ (0 < n → kind.stops op t = false) := by
  rw [ends_iff, not_or, not_and, Bool.not_eq_true]

/-- The loop of the driver after a turn: the stop test, then the rest. -/
theorem repeatLoop_of_turns_succ (h : Turns kind op (n + 1) s t) (m : Nat) :
    repeatLoop kind op (n + 1 + m) s = if kind.stops op t then .ok t else repeatLoop kind op m t := by
  induction n generalizing t m with
  | zero =>
    obtain ⟨u, rfl, hend, hready, rfl⟩ := turns_succ.1 h
    rw [Nat.add_comm, repeatLoop_turn (not_ends_iff.1 hend).1 hready]
    rfl
  | succ n ih =>
    obtain ⟨u, hu, hend, hready, rfl⟩ := turns_succ.1 h
    obtain ⟨hcx, hgo⟩ := not_ends_iff.1 hend
    rw [show n + 1 + 1 + m = n + 1 + (m + 1) by omega, ih hu, hgo (by omega), repeatLoop_turn hcx hready]
    rfl

/-- Turns after which the repeat goes on are the first iterations of the driver's loop. -/
theorem repeatLoop_of_turns (h : Turns kind op n s t) (hgo : 0 < n → kind.stops op t = false) (m : Nat) :
    repeatLoop kind op (n + m) s = repeatLoop kind op m t := by
  cases n with
  | zero => cases h; rw [Nat.zero_add]
  | succ n => simp [repeatLoop_of_turns_succ h, hgo]

/-- Turns after which the repeat ends are all the iterations of the driver's loop. -/
theorem repeatLoop_of_ends (h : Turns kind op n s t) (hend : Ends kind op n t) (m : Nat) :
    repeatLoop kind op (n + m) s = .ok t := by
  by_cases hstop : 0 < n ∧ kind.stops op t = true
  · obtain ⟨k, rfl⟩ := Nat.exists_eq_add_one.2 hstop.1
    rw [repeatLoop_of_turns_succ h, if_pos hstop.2]
  · rw [repeatLoop_of_turns h (by simpa using hstop), repeatLoop_done ((ends_iff.1 hend).resolve_right hstop)]

/-! ## What `n` turns leave -/

/-- The addresses `n` turns from a state store to. -/
def StringOp.storedBy (op : StringOp) (s : State) (n a : Nat) : Prop :=
  op.stores = true ∧
    ∃ k j, k < n ∧ j < op.size.toNat ∧ a = phys (s.getSeg .es) (stringOffset s (s.getReg .di) op.size k) + j

theorem storedBy_mono {m a : Nat} (hnm : n ≤ m) (h : op.storedBy s n a) : op.storedBy s m a := by
  obtain ⟨hstores, k, j, hk, h⟩ := h
  exact ⟨hstores, k, j, by omega, h⟩

/-- What a repeat may store to is what its turns may, of which there are at most CX. -/
theorem repeatStores_iff (op : StringOp) (s : State) (a : Nat) :
    repeatStores s op.opcode a ↔ op.storedBy s (s.getReg .cx).toNat a := by
  have hstores : (op.opcode = 0x70#8 ∨ op.opcode = 0x71#8 ∨ op.opcode = 0x72#8 ∨ op.opcode = 0x73#8) ↔ op.stores = true := by
    cases op <;> decide
  unfold repeatStores
  rw [hstores]
  rfl

/-- A state is another after `n` turns: CX counted down, the used pointers `n` elements on, and the frame. -/
structure StringOp.Turned (op : StringOp) (s : State) (n : Nat) (t : State) : Prop where
  count : (t.getReg .cx).toNat + n = (s.getReg .cx).toNat
  source : op.usesSource = true → t.getReg .si = stringOffset s (s.getReg .si) op.size n
  dest : op.usesDest = true → t.getReg .di = stringOffset s (s.getReg .di) op.size n
  pc : t.pc = s.pc
  keeps : Keeps s t (.cx :: op.regsWritten) [] op.flagsWritten (op.storedBy s n)

/-- No string operation writes the direction flag. -/
theorem direction_not_written (op : StringOp) : Flag.d ∉ op.flagsWritten := by cases op <;> decide

theorem StringOp.Turned.direction (h : op.Turned s n t) : t.flags.d = s.flags.d := h.keeps.flags .d (direction_not_written op)

/-- When CX is used up there were as many turns as it counted. -/
theorem StringOp.Turned.count_of_used_up (h : op.Turned s n t) (hcx : t.getReg .cx = 0#16) : n = (s.getReg .cx).toNat := by
  rw [← h.count, hcx, BitVec.toNat_zero, Nat.zero_add]

theorem StringOp.Turned.seg (h : op.Turned s n t) (j : SReg) : t.getSeg j = s.getSeg j := h.keeps.segs j (by simp)

/-- What an iteration after `n` turns stores to is the element `n` of the repeat. -/
theorem storedBy_of_storedAt (h : op.Turned s n u) {a : Nat} (ha : op.storedAt u a) : op.storedBy s (n + 1) a := by
  have helement (hdest : op.usesDest = true) :
      destAddress u = phys (s.getSeg .es) (stringOffset s (s.getReg .di) op.size n) := by
    rw [destAddress, h.seg, h.dest hdest]
  cases op with
  | movsb | stosb => exact ⟨rfl, n, 0, by omega, by decide, ha.trans (helement rfl)⟩
  | movsw | stosw =>
    rcases ha with ha | ha
    · exact ⟨rfl, n, 0, by omega, by decide, ha.trans (helement rfl)⟩
    · exact ⟨rfl, n, 1, by omega, by decide, ha.trans (congrArg (· + 1) (helement rfl))⟩
  | lodsb | lodsw | cmpsb | cmpsw => exact ha.elim

theorem StringOp.Turned.zero (op : StringOp) (s : State) : op.Turned s 0 s :=
  ⟨rfl, fun _ => (stringOffset_zero ..).symm, fun _ => (stringOffset_zero ..).symm, rfl, .refl⟩

/-- One more turn (45_string_repeat.md R310). -/
theorem StringOp.Turned.turn (h : op.Turned s n u) (hcx : u.getReg .cx ≠ 0#16) : op.Turned s (n + 1) (op.turn u) where
  count := by
    have hcount := h.count
    have : (u.getReg .cx - 1#16).toNat + 1 = (u.getReg .cx).toNat := by bv_omega
    rw [StringOp.turn, getReg_setReg_same]
    omega
  source hsrc := by
    rw [StringOp.turn, getReg_setReg_ne _ _ _ _ (by decide), result_si, if_pos hsrc, h.source hsrc, stringOffset_succ h.direction]
  dest hdst := by
    rw [StringOp.turn, getReg_setReg_ne _ _ _ _ (by decide), result_di, if_pos hdst, h.dest hdst, stringOffset_succ h.direction]
  pc := (result_pc op u).trans h.pc
  keeps := by
    have hbefore := h.keeps.mono (fun _ => id) (fun _ => id) (fun _ => id) fun _ => storedBy_mono (Nat.le_add_right n 1)
    have hiteration := (result_keeps op u).mono (fun _ => List.mem_cons_of_mem Reg.cx) (fun _ => id) (fun _ => id)
      fun _ => storedBy_of_storedAt h
    exact hbefore.trans (hiteration.trans (.setReg (.head _) _))

theorem turned_of_turns (h : Turns kind op n s t) : op.Turned s n t := by
  induction n generalizing t with
  | zero => cases h; exact .zero op s
  | succ n ih =>
    obtain ⟨u, hu, hend, -, rfl⟩ := turns_succ.1 h
    exact (ih hu).turn (not_ends_iff.1 hend).1

/-! ## The end of a repeat -/

/-- The state after the turns at which a repeat ends is its next state (45_string_repeat.md R310). -/
theorem exec_repeat_of_ends (h : Turns kind op n s t) (hend : Ends kind op n t) : exec (kind.instr op.opcode) s = .next t := by
  have hcount := (turned_of_turns h).count
  rw [exec_repeat, finish_eq_next, ← hcount, Nat.add_comm]
  exact repeatLoop_of_ends h hend _

/-- A turn that raises ends the repeat with its fault (60_exceptions.md R353). -/
theorem exec_repeat_of_fault {f : Fault} (h : Turns kind op n s u) (hend : ¬ Ends kind op n u) (hf : exec op.single u = .fault f) :
    exec (kind.instr op.opcode) s = .fault f := by
  obtain ⟨hcx, hgo⟩ := not_ends_iff.1 hend
  obtain ⟨m, hm⟩ : ∃ m, (u.getReg .cx).toNat = m + 1 := Nat.exists_eq_succ_of_ne_zero fun h0 => hcx (by bv_omega)
  have honce : op.once u = .error f := by rwa [exec_single, finish_eq_fault] at hf
  rw [exec_repeat, finish_eq_fault, ← (turned_of_turns h).count, Nat.add_comm, hm, repeatLoop_of_turns h hgo, repeatLoop, if_neg hcx,
    honce, bind_error]

/-- A repeat whose operands are in memory at every turn ends, since CX counts down (45_string_repeat.md R310). -/
theorem exists_end (hready : ∀ n u, op.Turned s n u → n < (s.getReg .cx).toNat → op.ready u) :
    ∃ n t, Turns kind op n s t ∧ Ends kind op n t := by
  suffices hfrom : ∀ m n u, (u.getReg .cx).toNat = m → Turns kind op n s u → ∃ n t, Turns kind op n s t ∧ Ends kind op n t from
    hfrom _ 0 s rfl rfl
  intro m
  induction m with
  | zero => exact fun n u hm h => ⟨n, u, h, ends_iff.2 (.inl (by bv_omega))⟩
  | succ m ih =>
    intro n u hm h
    by_cases hend : Ends kind op n u
    · exact ⟨n, u, h, hend⟩
    · have hu := turned_of_turns h
      have hcount := hu.count
      have hcount' := (hu.turn (not_ends_iff.1 hend).1).count
      exact ih (n + 1) (op.turn u) (by omega) (turns_succ.2 ⟨u, h, hend, hready n u hu (by omega), rfl⟩)

/-! ## Segments that lie in memory -/

/-- The last offset bounds every other. -/
theorem wordInRange_of_segmentInRange {seg : Word} (h : segmentInRange seg) (off : Word) : wordInRange (phys seg off) := by
  have hoff := off.isLt
  have hlast : (0xFFFF#16 : Word).toNat = 65535 := rfl
  simp only [segmentInRange, wordInRange, phys, hlast] at *
  omega

theorem ready_of_segments (hds : segmentInRange (s.getSeg .ds)) (hes : segmentInRange (s.getSeg .es)) : op.ready s := by
  have hsrc : wordInRange (sourceAddress s) := wordInRange_of_segmentInRange hds _
  have hdst : wordInRange (destAddress s) := wordInRange_of_segmentInRange hes _
  cases op with
  | movsb | cmpsb => exact ⟨Nat.lt_of_succ_lt hsrc, Nat.lt_of_succ_lt hdst⟩
  | movsw | cmpsw => exact ⟨hsrc, hdst⟩
  | stosb => exact Nat.lt_of_succ_lt hdst
  | stosw => exact hdst
  | lodsb => exact Nat.lt_of_succ_lt hsrc
  | lodsw => exact hsrc

/-- With both segments in memory a repeat ends, since no turn changes them. -/
theorem exists_end_of_segments (hds : segmentInRange (s.getSeg .ds)) (hes : segmentInRange (s.getSeg .es)) :
    ∃ n t, Turns kind op n s t ∧ Ends kind op n t :=
  exists_end fun _ _ hu _ => ready_of_segments (by rwa [hu.seg]) (by rwa [hu.seg])

/-- The frame of a whole repeat. -/
theorem StringOp.Turned.repeat_keeps (h : op.Turned s n t) :
    Keeps s t [.ax, .cx, .si, .di] [] (if 0x76 ≤ op.opcode.toNat then derivedFlags else []) (repeatStores s op.opcode) := by
  have hregs : ∀ r ∈ Reg.cx :: op.regsWritten, r ∈ [Reg.ax, .cx, .si, .di] := by cases op <;> decide
  have hflags : (if 0x76 ≤ op.opcode.toNat then derivedFlags else []) = op.flagsWritten := if_congr (compares_iff op) rfl rfl
  have hcount := h.count
  rw [hflags]
  exact h.keeps.mono hregs (fun _ => id) (fun _ => id) fun a ha => (repeatStores_iff op s a).2 (storedBy_mono (by omega) ha)

end Turns

/-- Settles O54: the driver's loop run turn by turn; its fuel CX is never short, because every turn counts CX down. -/
theorem repeatCompletes : Obligations.RepeatCompletes := by
  intro s b single hop i hi
  obtain ⟨op, rfl, rfl⟩ := mem_stringOpcodes hop
  obtain ⟨kind, rfl⟩ := mem_repeats hi
  refine ⟨fun n t => exec_repeat_of_ends, fun n u f hu hend hf => ⟨f, exec_repeat_of_fault hu hend hf, rfl⟩, fun hds hes => ?_⟩
  obtain ⟨n, t, hturns, hend⟩ := exists_end_of_segments hds hes
  have hturned := turned_of_turns hturns
  exact ⟨n, t, hturns, hend, exec_repeat_of_ends hturns hend, hturned.pc, hturned.repeat_keeps⟩

/-! ## The repeated compare -/

section RepeatedCompare

variable {kind : RepeatKind} {s t : State} {n : Nat} {eq : Bool}

/-- After a turn of CMPSB, Z tells whether the two bytes it compared are equal. -/
theorem cmpsb_turn_z (h : Turns kind .cmpsb (n + 1) s t) : t.flags.z = (sourceByte s n == destByte s n) := by
  obtain ⟨u, hu, -, -, rfl⟩ := turns_succ.1 h
  have hturned := turned_of_turns hu
  have hbyte (a : Nat) : u.byteAt a = s.byteAt a := hturned.keeps.bytes a fun ha => absurd ha.1 (by decide)
  have hsrc : u.byteAt (stringSource u) = sourceByte s n := by
    rw [hbyte, stringSource, hturned.seg, hturned.source rfl]; rfl
  have hdst : u.byteAt (stringDest u) = destByte s n := by
    rw [hbyte, stringDest, hturned.seg, hturned.dest rfl]; rfl
  rw [StringOp.turn, setReg_flags, cmpsb_flags, hsrc, hdst, Bool.eq_iff_iff, byteCompareFlags_z, beq_iff_eq]

/-- A repeat of CMPSB that Z ≠ `eq` stops compares equal as `eq` says before its last turn. -/
theorem cmpsb_turns_go (hstops : ∀ u, kind.stops .cmpsb u = (u.flags.z != eq)) (h : Turns kind .cmpsb n s t) (k : Nat) (hk : k + 1 < n) :
    (sourceByte s k == destByte s k) = eq := by
  induction n generalizing t with
  | zero => omega
  | succ n ih =>
    obtain ⟨u, hu, hend, -, -⟩ := turns_succ.1 h
    rcases Nat.lt_or_eq_of_le (Nat.le_of_lt_succ hk) with hlt | rfl
    · exact ih hu hlt
    · have hgo := (not_ends_iff.1 hend).2 (by omega)
      rw [hstops, bne_eq_false_iff_eq, cmpsb_turn_z hu] at hgo
      exact hgo

theorem comparesUntil_of_stops (hstops : ∀ u, kind.stops .cmpsb u = (u.flags.z != eq)) (hds : segmentInRange (s.getSeg .ds))
    (hes : segmentInRange (s.getSeg .es)) : comparesUntil (kind.instr 0x76#8) s eq := by
  obtain ⟨n, t, hturns, hend⟩ := exists_end_of_segments (kind := kind) (op := .cmpsb) hds hes
  have hturned := turned_of_turns hturns
  have hcount := hturned.count
  have hz (h : 0 < n) : t.flags.z = (sourceByte s (n - 1) == destByte s (n - 1)) := by
    obtain ⟨m, rfl⟩ := Nat.exists_eq_add_one.2 h
    exact cmpsb_turn_z hturns
  refine ⟨t, n, exec_repeat_of_ends hturns hend, by omega, by omega, hturned.source rfl, hturned.dest rfl, cmpsb_turns_go hstops hturns,
    fun hlt => ?_, hz, ?_⟩
  · have hcx : t.getReg .cx ≠ 0#16 := fun h0 => hlt.ne (hturned.count_of_used_up h0)
    obtain ⟨hpos, hstop⟩ := (ends_iff.1 hend).resolve_left hcx
    rw [hstops, bne_iff_ne, hz hpos] at hstop
    exact ⟨hpos, hstop⟩
  · rintro rfl
    cases hturns
    rfl

end RepeatedCompare

/-- Settles O55: REPZ goes on while Z is set and REPNZ while it is clear. -/
theorem repeatedCompareStops : Obligations.RepeatedCompareStops := fun _ hds hes =>
  ⟨comparesUntil_of_stops (kind := .repz) (fun u => by simp [RepeatKind.stops, StringOp.compares]) hds hes,
    comparesUntil_of_stops (kind := .repnz) (fun u => by simp [RepeatKind.stops, StringOp.compares]) hds hes⟩

/-! ## The repeated move -/

section RepeatedMove

variable {s t u : State} {n m : Nat}

/-- The ranges REP MOVSB reads and writes upwards: they do not wrap in their segments, lie in memory and do not overlap. -/
structure MoveRanges (s : State) (n : Nat) : Prop where
  up : s.flags.d = false
  source_unwrapped : (s.getReg .si).toNat + n ≤ 0x10000
  dest_unwrapped : (s.getReg .di).toNat + n ≤ 0x10000
  source_inRange : stringSource s + n ≤ Config.memSize
  dest_inRange : stringDest s + n ≤ Config.memSize
  apart : stringSource s + n ≤ stringDest s ∨ stringDest s + n ≤ stringSource s

/-- Upwards, a byte pointer is its start plus the count. -/
theorem stringOffset_up (hup : s.flags.d = false) (w : Word) (k : Nat) : stringOffset s w 1#16 k = w + BitVec.ofNat 16 k := by
  rw [stringOffset, hup, if_neg (by decide), BitVec.mul_one]

/-- An offset that does not wrap adds to the physical address. -/
theorem phys_add {seg w : Word} {k : Nat} (h : w.toNat + k < 0x10000) : phys seg (w + BitVec.ofNat 16 k) = phys seg w + k := by
  rw [phys, phys, BitVec.toNat_add, BitVec.toNat_ofNat]
  omega

theorem MoveRanges.sourceAddress_eq (h : MoveRanges s n) (hu : StringOp.movsb.Turned s m u) (hm : m < n) :
    sourceAddress u = stringSource s + m := by
  have hwrap := h.source_unwrapped
  have hsi : u.getReg .si = s.getReg .si + BitVec.ofNat 16 m := (hu.source rfl).trans (stringOffset_up h.up ..)
  rw [sourceAddress, hu.seg, hsi, phys_add (by omega), stringSource]

theorem MoveRanges.destAddress_eq (h : MoveRanges s n) (hu : StringOp.movsb.Turned s m u) (hm : m < n) :
    destAddress u = stringDest s + m := by
  have hwrap := h.dest_unwrapped
  have hdi : u.getReg .di = s.getReg .di + BitVec.ofNat 16 m := (hu.dest rfl).trans (stringOffset_up h.up ..)
  rw [destAddress, hu.seg, hdi, phys_add (by omega), stringDest]

theorem MoveRanges.ready (h : MoveRanges s n) (hu : StringOp.movsb.Turned s m u) (hm : m < n) : StringOp.movsb.ready u := by
  have hsrc := h.source_inRange
  have hdst := h.dest_inRange
  refine ⟨?_, ?_⟩
  · rw [h.sourceAddress_eq hu hm]; omega
  · rw [h.destAddress_eq hu hm]; omega

/-- What `m` turns store to lies in the first `m` bytes of the destination range. -/
theorem MoveRanges.storedBy_within (h : MoveRanges s n) (hm : m ≤ n) {a : Nat} (ha : StringOp.movsb.storedBy s m a) :
    stringDest s ≤ a ∧ a < stringDest s + m := by
  have hwrap := h.dest_unwrapped
  obtain ⟨-, k, j, hk, hj, rfl⟩ := ha
  obtain rfl : j = 0 := Nat.lt_one_iff.1 hj
  rw [show StringOp.movsb.size = 1#16 from rfl, stringOffset_up h.up, phys_add (by omega), ← stringDest]
  omega

/-- A turn of MOVSB stores the source byte at the destination and changes no other byte. -/
theorem movsb_turn_byteAt (u : State) (a : Nat) :
    (StringOp.movsb.turn u).byteAt a = if a = destAddress u then u.byteAt (sourceAddress u) else u.byteAt a := by
  simp [StringOp.turn, StringOp.result]

/-- The bytes copied by `m` turns; the source range is read before and after as at the start, since no turn stores to it. -/
theorem MoveRanges.copied (h : MoveRanges s n) (hturns : Turns .rep .movsb m s t) (hm : m ≤ n) (k : Nat) (hk : k < m) :
    t.byteAt (stringDest s + k) = s.byteAt (stringSource s + k) := by
  induction m generalizing t with
  | zero => omega
  | succ m ih =>
    obtain ⟨u, hu, -, -, rfl⟩ := turns_succ.1 hturns
    have hturned := turned_of_turns hu
    rw [movsb_turn_byteAt, h.sourceAddress_eq hturned hm, h.destAddress_eq hturned hm]
    by_cases hlast : k = m
    · subst hlast
      have hapart := h.apart
      rw [if_pos rfl]
      refine hturned.keeps.bytes _ fun ha => ?_
      have := h.storedBy_within (by omega) ha
      omega
    · rw [if_neg (by omega)]
      exact ih hu (by omega) (by omega)

end RepeatedMove

/-- Settles O56: REP ends only when CX is used up, and each turn copies the next byte. -/
theorem repMovsbCopies : Obligations.RepMovsbCopies := by
  intro s n hn hup hsi hdi hsrc hdst hapart
  have h : MoveRanges s n := ⟨hup, hsi, hdi, hsrc, hdst, hapart⟩
  obtain ⟨m, t, hturns, hend⟩ := exists_end (kind := .rep) (op := .movsb) (s := s) fun m u hu hm => h.ready hu (hn ▸ hm)
  have hturned := turned_of_turns hturns
  have hcx : t.getReg .cx = 0#16 := (ends_iff.1 hend).resolve_right fun hstop => Bool.false_ne_true hstop.2
  obtain rfl : m = n := (hturned.count_of_used_up hcx).trans hn.symm
  exact ⟨t, exec_repeat_of_ends hturns hend, h.copied hturns (Nat.le_refl _), hcx,
    (hturned.source rfl).trans (stringOffset_up hup ..), (hturned.dest rfl).trans (stringOffset_up hup ..), hturned.pc,
    hturned.keeps.mono (fun _ => id) (fun _ => id) (fun _ => id) fun a => h.storedBy_within (Nat.le_refl _)⟩

end Sys2Proof.Machine
end

section
/-! PROOFS. The system instructions (46_system.md): HLT, WAIT and the flag instructions, INT, IRET, and IRET right after INT. -/

namespace Sys2Proof.Machine

/-! ## One flag written -/

/-- The flags with one of them, given by name, at a value: the write that goes with `Flags.get`. -/
def Flags.set (f : Flags) (k : Flag) (b : Bool) : Flags :=
  match k with
  | .c => { f with c := b }
  | .p => { f with p := b }
  | .z => { f with z := b }
  | .s => { f with s := b }
  | .t => { f with t := b }
  | .i => { f with i := b }
  | .d => { f with d := b }
  | .o => { f with o := b }

theorem get_set (f : Flags) (k x : Flag) (b : Bool) : (f.set k b).get x = if x = k then b else f.get x := by
  cases k <;> cases x <;> rfl

/-- An instruction that writes one flag sets it and changes nothing else. -/
theorem setsFlag_of_exec {i : Instr} {s : State} {k : Flag} {b : Bool} (h : exec i s = .next (s.setFlags (s.flags.set k b))) :
    ∃ t, exec i s = .next t ∧ t.flags.get k = b ∧ t.pc = s.pc ∧ Keeps s t [] [] [k] noBytes :=
  ⟨_, h, (get_set ..).trans (if_pos rfl), rfl,
    .setFlags fun _ hx => (get_set ..).trans (if_neg (mt List.mem_singleton.2 hx))⟩

/-- Settles O57: each flag instruction is the write of its one flag. -/
theorem systemResults : Obligations.SystemResults := fun _ =>
  ⟨rfl, rfl, setsFlag_of_exec (k := .c) rfl, setsFlag_of_exec (k := .c) rfl, setsFlag_of_exec (k := .i) rfl,
    setsFlag_of_exec (k := .i) rfl, setsFlag_of_exec (k := .d) rfl, setsFlag_of_exec (k := .d) rfl⟩

/-! ## INT and IRET -/

/-- INT is the entry sequence alone: neither I nor the latch gates it (46_system.md R332). -/
theorem execInt_effect {s : State} (v : Byte) (hroom : roomToPush s 3) :
    ∃ t, exec (.int v) s = .next t ∧ entersHandler s t v := by
  obtain ⟨t, hdispatch, henters⟩ := dispatch_ok hroom v
  exact ⟨t, finish_eq_next.2 hdispatch, henters⟩

/-- Settles O58 from what the entry sequence does. -/
theorem intEntersHandler : Obligations.IntEntersHandler := fun _ v => execInt_effect v

theorem execIret_effect {s : State} (h : wordsToPop s 3) : ∃ t, exec .iret s = .next t ∧
    t.pc = s.wordAt (stackAddress s (popOffset s 0)) ∧ t.getSeg .cs = s.wordAt (stackAddress s (popOffset s 1)) ∧
    t.flags = Flags.unpack (s.wordAt (stackAddress s (popOffset s 2))) ∧ t.getReg .sp = s.getReg .sp + 6#16 ∧
    Keeps s t [.sp] [.cs] allFlags noBytes := by
  obtain ⟨t, hreturn, heffect⟩ := returnFromInterrupt_ok h
  exact ⟨t, finish_eq_next.2 hreturn, heffect⟩

/-- Settles O59: the popped FLAGS word is unpacked, and packing it again is the mask. -/
theorem iretRestores : Obligations.IretRestores := by
  intro s h
  obtain ⟨t, hiret, hpc, hcs, hflags, hsp, hkeeps⟩ := execIret_effect h
  exact ⟨t, hiret, hpc, hcs, by rw [hflags, pack_unpack], hsp, hkeeps⟩

/-! ## IRET right after INT -/

/-- Two updates in a row restore every segment register when they restore those the second may write, the first's among them. -/
theorem Keeps.getSeg_restored {s t u : State} {rs qs : List Reg} {js ks : List SReg} {fs gs : List Flag} {bs cs : Nat → Prop}
    (h : Keeps s t rs js fs bs) (k : Keeps t u qs ks gs cs) (hsub : js ⊆ ks) (hks : ∀ j ∈ ks, u.getSeg j = s.getSeg j)
    (j : SReg) : u.getSeg j = s.getSeg j := by
  by_cases hj : j ∈ ks
  · exact hks j hj
  · exact (k.segs j hj).trans (h.segs j fun hmem => hj (hsub hmem))

/-- Settles O60: IRET pops the three slots INT filled, and unpacks the FLAGS word INT packed. -/
theorem interruptRoundtrip : Obligations.InterruptRoundtrip := by
  intro s v hroom
  obtain ⟨t, hint, hflags, hcs, hpc, hsp, -, -, -, -, hkeeps⟩ := execInt_effect v hroom
  have hss : t.getSeg .ss = s.getSeg .ss := hkeeps.segs .ss (by simp)
  have hslot {n k : Nat} (hn : n + k = 3) : stackAddress t (popOffset t k) = stackAddress s (pushOffset s n) := by
    rw [popOffset_eq_pushOffset (n := n) (hn.symm ▸ hsp), stackAddress, hss, stackAddress]
  obtain ⟨u, hiret, hpc', hcs', hflags', hsp', hkeeps'⟩ := execIret_effect (wordsToPop_of_roomToPush hsp hss hroom)
  have hspBack : u.getReg .sp = s.getReg .sp := by
    rw [hsp', hsp]
    exact BitVec.sub_add_cancel ..
  have hcsBack : u.getSeg .cs = s.getSeg .cs := by rw [hcs', hslot (n := 2) rfl, hcs]
  refine ⟨t, u, hint, hiret, ?_, ?_, hkeeps.getReg_restored hkeeps' (List.Subset.refl _) (by simpa using hspBack),
    hkeeps.getSeg_restored hkeeps' (List.Subset.refl _) (by simpa using hcsBack)⟩
  · rw [hpc', hslot (n := 3) rfl, hpc]
  · rw [hflags', hslot (n := 1) rfl, hflags, unpack_pack]

end Sys2Proof.Machine
end

section
/-! PROOFS. What an engine error leaves behind: the errored core and its return value (60_exceptions.md R350, R353). -/

namespace Sys2Proof.Machine

/-! ## A fault is a raise -/

/-- A raised error is of the kind it was raised with (60_exceptions.md R350). -/
@[simp] theorem raiseEngine_kind (e : EngineError) (s : State) : (raiseEngine e s).kind = e := by cases e <;> rfl

/-- An instruction that faults raises its error in a state it only evolved to; HLT and WAIT do not fault. -/
theorem exec_fault_raises {i : Instr} {s : State} {f : Fault} (h : exec i s = .fault f) :
    ∃ e u, f = raiseEngine e u ∧ Evolves s u := by
  by_cases hhlt : i = .hlt
  · subst hhlt; cases h
  by_cases hwait : i = .wait
  · subst hwait; cases h
  exact (exec_evolves hhlt hwait s).2 f h

/-- A step that faults raises its error in a state with the counters it started with, since only a completed instruction is counted
(40_step_fetch_dispatch.md R124). -/
theorem step_fault_raises {s : State} {f : Fault} (h : step s = .fault f) : ∃ e u, f = raiseEngine e u ∧ Progresses s u := by
  obtain ⟨hfetch, hraise⟩ := acceptAndFetch_progresses s
  rcases step_fault_cases h with herr | ⟨i, t, hok, hexec⟩
  · exact hraise f herr
  · obtain ⟨e, u, hf, hu⟩ := exec_fault_raises hexec
    exact ⟨e, u, hf, (hfetch _ hok).trans hu.progresses⟩

/-! ## The step that an engine error ends -/

/-- A step that an engine error ends returns 0 (60_exceptions.md R350). -/
theorem stepReturn_of_fault {s : State} {f : Fault} (h : step s = .fault f) : stepReturn s = 0 := by
  rw [stepReturn, h]

/-- Settles O9: the fault is a raise, whose state is errored and halted, so that the next step is a no-op. -/
theorem engineErrorStopsEngine : Obligations.EngineErrorStopsEngine := by
  intro s f hstep
  have hreturn := stepReturn_of_fault hstep
  obtain ⟨e, u, rfl, hu⟩ := step_fault_raises hstep
  obtain ⟨hcycles, hcount⟩ := hu.counters
  rw [raiseEngine_after, raiseEngine_kind]
  exact ⟨errored_error u e, errored_halted u e, errored_errmsg u e, hcycles, hcount, hreturn, step_stopped (.inl (errored_halted u e))⟩

end Sys2Proof.Machine
end
